-- ==== Sys2Proof/Word.lean ====
section
/-! DEFINITION. The bit vectors and index types of the block: bytes, command words, register
addresses, samples, and the fixed index ranges of channels, slots and patches
(spec/00_scope.md R7, R9: these counts are constants, never parameters). -/

namespace Sys2Proof

/-- One byte: the contents of a register, a data byte, a port byte (R7, R11). -/
abbrev Byte := BitVec 8

/-- One command word of the host (spec/30_encoding.md R82). -/
abbrev Word := BitVec 32

/-- An effective register address 0x00..0x3F (spec/20_memory.md R62). -/
abbrev RegAddr := BitVec 6

/-- The 16-bit two's-complement sample that CALC returns (spec/44_mixdown.md R240). -/
abbrev Sample := BitVec 16

/-- A channel 0..8 (R7). -/
abbrev Channel := Fin 9

/-- A slot 0..17 (spec/10_state.md R30). -/
abbrev SlotId := Fin 18

/-- A patch 0..37 (spec/10_state.md R26). -/
abbrev PatchId := Fin 38

end Sys2Proof
end

