-- ==== Sys2Proof/Syntax.lean ====
section
/-! DEFINITION. The host commands, one constructor per row of spec/opcode_table.json
(spec/30_encoding.md R81, R85, R86). Fields are the effective operands: ignored bits are gone
here, except the two that R241 itself drops (the mask keeps its 16 bits). -/

namespace Sys2Proof

/-- A host command. Every WRITE_REG row carries its data byte `d`, the channel rows their
channel, and the reserved row its effective address (R85). -/
inductive Instr where
  /-- WRITE_REG at 0x00 (R117). -/
  | wrAmpmMod (d : Byte)
  /-- WRITE_REG at 0x01 (R118). -/
  | wrAmpmCar (d : Byte)
  /-- WRITE_REG at 0x02 (R119). -/
  | wrKltl (d : Byte)
  /-- WRITE_REG at 0x03 (R120). -/
  | wrKlwffb (d : Byte)
  /-- WRITE_REG at 0x04 (R121). -/
  | wrArdrMod (d : Byte)
  /-- WRITE_REG at 0x05 (R122). -/
  | wrArdrCar (d : Byte)
  /-- WRITE_REG at 0x06 (R123). -/
  | wrSlrrMod (d : Byte)
  /-- WRITE_REG at 0x07 (R124). -/
  | wrSlrrCar (d : Byte)
  /-- WRITE_REG at 0x0E (R125). -/
  | wrRhythm (d : Byte)
  /-- WRITE_REG at 0x10 + c (R126). -/
  | wrFnumLo (c : Channel) (d : Byte)
  /-- WRITE_REG at 0x20 + c (R127). -/
  | wrBlkKey (c : Channel) (d : Byte)
  /-- WRITE_REG at 0x30 + c (R128). -/
  | wrInstVol (c : Channel) (d : Byte)
  /-- WRITE_REG at a reserved address (R129). -/
  | wrReserved (a : RegAddr) (d : Byte)
  /-- WRITE_IO on an even port: latch an address (R130). -/
  | ioAddr (d : Byte)
  /-- WRITE_IO on an odd port: write to the latched address (R131). -/
  | ioData (d : Byte)
  /-- CALC: advance by one sample (R231). -/
  | calcSample
  /-- RESET (R291). -/
  | reset
  /-- SET_MASK with the 16-bit value M of the word (R241). -/
  | setMask (m : BitVec 16)
  deriving DecidableEq, Repr

end Sys2Proof
end

