-- ==== Sys2Proof/WellFormed.lean ====
section
/-! DEFINITION. Which terms of `Instr` are commands of the block. Channels are `Fin 9`, so R85's
bound c ≤ 8 holds by type; what is left is that the reserved row carries a reserved address. -/

namespace Sys2Proof

/-- The reserved register addresses (spec/30_encoding.md R99):
0x08..0x0D, 0x0F, 0x19..0x1F, 0x29..0x2F, 0x39..0x3F. -/
def reservedAddr (a : RegAddr) : Bool :=
  let n := a.toNat
  (decide (0x08 ≤ n) && decide (n ≤ 0x0D)) || decide (n = 0x0F)
    || (decide (0x19 ≤ n) && decide (n ≤ 0x1F)) || (decide (0x29 ≤ n) && decide (n ≤ 0x2F))
    || decide (0x39 ≤ n)

/-- A command is well formed: a reserved write is at a reserved address (R85 row 13, R99). Every
other row is well formed at every operand, because every field value is legal (R100, R103). -/
def Instr.wf : Instr → Bool
  | .wrReserved a _ => reservedAddr a
  | .wrAmpmMod _ => true
  | .wrAmpmCar _ => true
  | .wrKltl _ => true
  | .wrKlwffb _ => true
  | .wrArdrMod _ => true
  | .wrArdrCar _ => true
  | .wrSlrrMod _ => true
  | .wrSlrrCar _ => true
  | .wrRhythm _ => true
  | .wrFnumLo _ _ => true
  | .wrBlkKey _ _ => true
  | .wrInstVol _ _ => true
  | .ioAddr _ => true
  | .ioData _ => true
  | .calcSample => true
  | .reset => true
  | .setMask _ => true

end Sys2Proof
end

