-- ==== Sys2Proof/Decode.lean ====
section
/-! DEFINITION. Decoding a 32-bit command word and encoding a command (spec/30_encoding.md R82 to
R86). A command word is one 32-bit value that the host hands over whole: there is no instruction
memory and no byte order (R67, R82), so the decoder takes the word itself. -/

namespace Sys2Proof

/-- Why a word spells no command: R84 and R264 give this one reason. -/
inductive DecodeError where
  /-- Kind 0x5..0xF, or a nonzero bit in a must-be-0 field (R84). -/
  | undefinedCommandWord
  deriving DecidableEq, Repr

/-- The register classes of R85, in the table's order. -/
inductive RegClass where
  | ampmMod
  | ampmCar
  | klTl
  | klWfFb
  | arDrMod
  | arDrCar
  | slRrMod
  | slRrCar
  | rhythm
  | fnumLo (c : Channel)
  | blkKey (c : Channel)
  | instVol (c : Channel)
  | reserved (a : RegAddr)
  deriving DecidableEq, Repr

/-- The effective register address `A mod 64` of an address byte (R62, R83). -/
def effAddr (a : Byte) : RegAddr := a.extractLsb' 0 6

/-- The channel a low nibble names, if it is at most 8 (R85, R101). -/
def channelOf (n : BitVec 4) : Option Channel :=
  if h : n.toNat < 9 then some ⟨n.toNat, h⟩ else none

/-- The class of an effective address: the first row of R85's table that matches. -/
def regClass (a : RegAddr) : RegClass :=
  if a = 0x00#6 then .ampmMod
  else if a = 0x01#6 then .ampmCar
  else if a = 0x02#6 then .klTl
  else if a = 0x03#6 then .klWfFb
  else if a = 0x04#6 then .arDrMod
  else if a = 0x05#6 then .arDrCar
  else if a = 0x06#6 then .slRrMod
  else if a = 0x07#6 then .slRrCar
  else if a = 0x0E#6 then .rhythm
  else
    match (a.extractLsb' 4 2).toNat, channelOf (a.extractLsb' 0 4) with
    | 1, some c => .fnumLo c
    | 2, some c => .blkKey c
    | 3, some c => .instVol c
    | _, _ => .reserved a

/-- The command that writes data byte `d` to a register of the class (R85). -/
def RegClass.instr (k : RegClass) (d : Byte) : Instr :=
  match k with
  | .ampmMod => .wrAmpmMod d
  | .ampmCar => .wrAmpmCar d
  | .klTl => .wrKltl d
  | .klWfFb => .wrKlwffb d
  | .arDrMod => .wrArdrMod d
  | .arDrCar => .wrArdrCar d
  | .slRrMod => .wrSlrrMod d
  | .slRrCar => .wrSlrrCar d
  | .rhythm => .wrRhythm d
  | .fnumLo c => .wrFnumLo c d
  | .blkKey c => .wrBlkKey c d
  | .instVol c => .wrInstVol c d
  | .reserved a => .wrReserved a d

/-- The command that WRITE_REG(a, d) is, for an effective address `a` (R85). -/
def decodeReg (a : RegAddr) (d : Byte) : Instr := (regClass a).instr d

/-- The `kind` field, bits 31:28 (R82). -/
def wordKind (w : Word) : BitVec 4 := w.extractLsb' 28 4

/-- Bits 27:16, which must be 0 in every command word (R82). -/
def wordZero (w : Word) : BitVec 12 := w.extractLsb' 16 12

/-- Bits 15:8: the address byte A or the port byte P (R83). -/
def wordHi (w : Word) : Byte := w.extractLsb' 8 8

/-- Bits 7:0: the data byte D (R83). -/
def wordData (w : Word) : Byte := w.extractLsb' 0 8

/-- Bits 15:0: the mask value M (R83). -/
def wordMask (w : Word) : BitVec 16 := w.extractLsb' 0 16

/-- The command a word spells, or the reason why it spells none (R82 to R86). -/
def decode (w : Word) : Except DecodeError Instr :=
  if wordZero w ≠ 0#12 then .error .undefinedCommandWord
  else if wordKind w = 0x0#4 then .ok (decodeReg (effAddr (wordHi w)) (wordData w))
  else if wordKind w = 0x1#4 then
    if (wordHi w).getLsbD 0 then .ok (.ioData (wordData w)) else .ok (.ioAddr (wordData w))
  else if wordKind w = 0x2#4 then
    if wordMask w = 0#16 then .ok .calcSample else .error .undefinedCommandWord
  else if wordKind w = 0x3#4 then
    if wordMask w = 0#16 then .ok .reset else .error .undefinedCommandWord
  else if wordKind w = 0x4#4 then .ok (.setMask (wordMask w))
  else .error .undefinedCommandWord

/-- The command word with the given kind, bits 15:8 and bits 7:0 (R82, R105). -/
def commandWord (kind : BitVec 4) (hi lo : Byte) : Word :=
  (kind.setWidth 32 <<< (28 : Nat)) ||| (hi.setWidth 32 <<< (8 : Nat)) ||| lo.setWidth 32

/-- The word of WRITE_REG at effective address `a`: the ignored address bits 7:6 are 0 (R83). -/
def regWord (a : RegAddr) (d : Byte) : Word := commandWord 0x0#4 (a.setWidth 8) d

/-- The register address `base + c` of a channel's register (R64). -/
def channelAddr (base : RegAddr) (c : Channel) : RegAddr := base + BitVec.ofNat 6 c.val

/-- The word of a command (R82, R85, R86), with every ignored bit 0. -/
def encode : Instr → Word
  | .wrAmpmMod d => regWord 0x00#6 d
  | .wrAmpmCar d => regWord 0x01#6 d
  | .wrKltl d => regWord 0x02#6 d
  | .wrKlwffb d => regWord 0x03#6 d
  | .wrArdrMod d => regWord 0x04#6 d
  | .wrArdrCar d => regWord 0x05#6 d
  | .wrSlrrMod d => regWord 0x06#6 d
  | .wrSlrrCar d => regWord 0x07#6 d
  | .wrRhythm d => regWord 0x0E#6 d
  | .wrFnumLo c d => regWord (channelAddr 0x10#6 c) d
  | .wrBlkKey c d => regWord (channelAddr 0x20#6 c) d
  | .wrInstVol c d => regWord (channelAddr 0x30#6 c) d
  | .wrReserved a d => regWord a d
  | .ioAddr d => commandWord 0x1#4 0#8 d
  | .ioData d => commandWord 0x1#4 1#8 d
  | .calcSample => commandWord 0x2#4 0#8 0#8
  | .reset => commandWord 0x3#4 0#8 0#8
  | .setMask m => 0x40000000#32 ||| m.setWidth 32

/-- The instruction the decoder reads from a table row's bits: `w` cut to `nbits` bits is the
command word (R82: every command is one 32-bit word). -/
def decodeTableWord (nbits w : Nat) : Option Instr :=
  match decode (BitVec.ofNat 32 (w % 2 ^ nbits)) with
  | .ok i => some i
  | .error _ => none

end Sys2Proof
end

