-- ==== Sys2Proof/Config.lean ====
section
/-! DEFINITION. The configuration record `Cfg` of spec/00_scope.md R8, the types its tables range
over (operator patches R25, the percussion input R220), and the one configuration the machine runs
under. That configuration is an opaque constant: every table, width and reset seed that the spec
leaves OPEN is a free value, of which Lean knows the constraints of R8 and nothing else. -/

namespace Sys2Proof

/-- One operator's patch (spec/10_state.md R25); 1-bit fields are `Bool`, 1 being `true`. -/
structure Patch where
  /-- tremolo enable -/
  am : Bool
  /-- vibrato enable -/
  pm : Bool
  /-- envelope type: 1 selects SustainHold after Decay -/
  eg : Bool
  /-- key-rate-scaling flag -/
  kr : Bool
  /-- frequency multiplier index -/
  ml : BitVec 4
  /-- key-level scaling -/
  kl : BitVec 2
  /-- total level -/
  tl : BitVec 6
  /-- waveform: 0 full sine, 1 half sine -/
  wf : Bool
  /-- feedback amount -/
  fb : BitVec 3
  /-- attack rate -/
  ar : BitVec 4
  /-- decay rate -/
  dr : BitVec 4
  /-- sustain level -/
  sl : BitVec 4
  /-- release rate -/
  rr : BitVec 4
  deriving DecidableEq, Repr

/-- The percussion voices with a raw-output function of their own (R220). -/
inductive PercVoice where
  | hh
  | sd
  | tom
  | cym
  deriving DecidableEq, Repr

/-- What a percussion voice's raw output may read (spec/43_operator_output.md R220). -/
structure PercIn where
  /-- the slot's attenuation code of this CALC -/
  egout : Nat
  /-- the slot's waveform index of this CALC -/
  pgout : Nat
  /-- the slot's waveform select -/
  wf : Bool
  /-- the noise bit of this CALC -/
  nbit : Bool
  /-- noise oscillator A after this CALC's step -/
  na : Nat
  /-- noise oscillator B after this CALC's step -/
  nb : Nat
  /-- the waveform index of every slot -/
  pgAll : SlotId → Nat

/-- The configuration of one instance (R8), with the constraints of R8 that the rules rest on as
proof fields. A table that R8 indexes by `Fin 2^n`, for a width n of this record, is a function of
`Nat` here: its values at indices below 2^n are the table, its values beyond are never constrained
and no reachable state reads them. -/
structure Cfg where
  /-- `CLK`: input clock in Hz; no rule of the machine reads it. -/
  clk : Nat
  clk_pos : 0 < clk
  /-- `RATE`: sample rate in Hz, one CALC per sample period (R303); no rule reads it. -/
  rate : Nat
  rate_pos : 0 < rate
  /-- `PG_BITS`: width of the waveform-table index. -/
  pgBits : Nat
  /-- `DP_BITS`: significant bits of the phase accumulator. -/
  dpBits : Nat
  pgBits_pos : 1 ≤ pgBits
  pgBits_le : pgBits ≤ dpBits
  dpBits_le : dpBits ≤ 32
  /-- `EG_BITS`: width of the envelope output. -/
  egBits : Nat
  /-- `EG_DP_BITS`: significant bits of the envelope accumulator. -/
  egDpBits : Nat
  egBits_pos : 1 ≤ egBits
  egBits_le : egBits ≤ egDpBits
  egDpBits_le : egDpBits ≤ 30
  /-- `DB_MUTE`: codes at or above DB_MUTE − 1 are muted. -/
  dbMute : Nat
  dbMute_ge : 2 ≤ dbMute
  /-- `WAVE`, per WF: attenuation code with the sign folded in (R201). -/
  wave : Bool → Nat → Nat
  /-- `DB2LIN`: attenuation code to signed linear amplitude. -/
  db2lin : Nat → Int
  /-- `AR_ADJUST`: the attack curve. -/
  arAdjust : Nat → Nat
  arAdjust_lt : ∀ i, i < 2 ^ egBits → arAdjust i < 2 ^ egBits
  /-- `DPHASE` per (F-number, block, ML). -/
  dphase : BitVec 9 → BitVec 3 → BitVec 4 → Nat
  /-- `PM_APPLY`: the whole perturbed increment (R156). -/
  pmApply : Nat → Int → Nat
  /-- `RKS` per (F-number bit 8, block, KR). -/
  rks : Bool → BitVec 3 → Bool → BitVec 4
  /-- `AR_RATE` per (AR, rks). -/
  arRate : BitVec 4 → BitVec 4 → Nat
  arRate_lt : ∀ r k, arRate r k < 2 ^ egDpBits
  /-- `DR_RATE` per (rate, rks). -/
  drRate : BitVec 4 → BitVec 4 → Nat
  drRate_lt : ∀ r k, drRate r k < 2 ^ egDpBits
  /-- `ATTACK_INSTANT`: AR values whose attack completes on its first sample. -/
  attackInstant : BitVec 4 → Bool
  /-- `SL_THRESH` per SL, in accumulator units. -/
  slThresh : BitVec 4 → Nat
  slThresh_le : ∀ l, slThresh l ≤ 2 ^ egDpBits
  /-- `TLL` per (F-number bits 8:5, block, level, KL), in envelope units. -/
  tll : BitVec 4 → BitVec 3 → BitVec 6 → BitVec 2 → Nat
  /-- `VOL_TL`: 4-bit volume to 6-bit level. -/
  volTl : BitVec 4 → BitVec 6
  /-- `EG2DB`: envelope units to attenuation codes. -/
  eg2db : Nat → Nat
  eg2db_mono : ∀ x y, x ≤ y → eg2db x ≤ eg2db y
  /-- `FB_OFFSET` of the stored average and FB. -/
  fbOffset : Int → BitVec 3 → Int
  /-- `MOD_OFFSET` of the modulator's output. -/
  modOffset : Int → Int
  /-- `PM_DP_BITS`, `PM_PG_BITS`: vibrato accumulator and table-index widths. -/
  pmDpBits : Nat
  pmPgBits : Nat
  pmPgBits_le : pmPgBits ≤ pmDpBits
  /-- `PM_DPHASE`: vibrato increment per sample. -/
  pmDphase : Nat
  /-- `PM_TABLE`: vibrato LFO value. -/
  pmTable : Nat → Int
  /-- `AM_DP_BITS`, `AM_PG_BITS`: tremolo accumulator and table-index widths. -/
  amDpBits : Nat
  amPgBits : Nat
  amPgBits_le : amPgBits ≤ amDpBits
  /-- `AM_DPHASE`: tremolo increment per sample. -/
  amDphase : Nat
  /-- `AM_TABLE`: tremolo LFO value in attenuation codes. -/
  amTable : Nat → Nat
  /-- `NOISE_TAPS`: feedback pattern of the noise register. -/
  noiseTaps : BitVec 17
  /-- `NOISE_SEED`: the noise register at reset. -/
  noiseSeed : BitVec 17
  noiseSeed_ne : noiseSeed ≠ 0#17
  /-- `NA_STEP`, `NB_STEP`: one step of the noise oscillators. -/
  naStep : Nat → Nat
  nbStep : Nat → Nat
  /-- `NA_INIT`, `NB_INIT`: the noise oscillators at reset. -/
  naInit : Nat
  nbInit : Nat
  /-- `PERC_RAW`: raw output of the HH, SD, TOM and CYM voices (R220, R222). -/
  percRaw : PercVoice → PercIn → Int
  /-- `FACTORY`: the patches restored at reset. -/
  factory : PatchId → Patch

/-- `EG_SH`, the shift from the envelope accumulator to the envelope output (spec/42_envelope.md). -/
def Cfg.egSh (c : Cfg) : Nat := c.egDpBits - c.egBits

/-- `EG_FULL`, the accumulator value of full attack phase (spec/42_envelope.md). -/
def Cfg.egFull (c : Cfg) : Nat := 2 ^ c.egDpBits

/-- `EG_MAX`, the largest envelope output (spec/42_envelope.md). -/
def Cfg.egMax (c : Cfg) : Nat := 2 ^ c.egBits - 1

/-- R222, first item: a sign taken from the phase exists such that its XOR with the noise bit is
the sign of the result (a result 0 has either sign), and the result depends on the noise bit.
DEDUCED: which truth value means negative is left to the phase sign, so both readings are in. -/
def NoiseSigned (f : PercIn → Int) : Prop :=
  (∃ sign : Nat → (SlotId → Nat) → Bool, ∀ x : PercIn,
    if x.nbit ^^ sign x.pgout x.pgAll then f x ≤ 0 else 0 ≤ f x)
  ∧ ∃ x : PercIn, f { x with nbit := false } ≠ f { x with nbit := true }

/-- R222, second item: the result depends on both noise oscillators. -/
def BlendsNoiseOscillators (f : PercIn → Int) : Prop :=
  (∃ (x : PercIn) (n : Nat), f { x with na := n } ≠ f x)
  ∧ ∃ (x : PercIn) (n : Nat), f { x with nb := n } ≠ f x

/-- The rest of R8's constraints: `DPHASE` stays below 2^DP_BITS, and `PERC_RAW` has the structure
that R222 asks of a configuration that claims to follow the source. They stand apart from the
proof fields because no rule of the machine needs them, and because REF and REFZ of
spec/93_implementation_defined.md do not meet them. -/
structure Cfg.Conforms (c : Cfg) : Prop where
  dphase_lt : ∀ f b m, c.dphase f b m < 2 ^ c.dpBits
  snare : NoiseSigned (c.percRaw .sd)
  hihat : NoiseSigned (c.percRaw .hh)
  cymbalBlend : BlendsNoiseOscillators (c.percRaw .cym)
  hihatBlend : BlendsNoiseOscillators (c.percRaw .hh)

/-- A configuration with every constraint of R8. -/
structure ConformingCfg where
  cfg : Cfg
  conforms : cfg.Conforms

/-- A patch with every field 0. -/
def Patch.zero : Patch :=
  { am := false, pm := false, eg := false, kr := false, ml := 0#4, kl := 0#2, tl := 0#6,
    wf := false, fb := 0#3, ar := 0#4, dr := 0#4, sl := 0#4, rr := 0#4 }

/-- Some configuration: it shows only that R8's constraints can be met together, and no rule or
proof reads a value of it. -/
def Config.sample : Cfg :=
  { clk := 1, clk_pos := by decide, rate := 1, rate_pos := by decide
    pgBits := 1, dpBits := 1, pgBits_pos := by decide, pgBits_le := by decide
    dpBits_le := by decide, egBits := 1, egDpBits := 1, egBits_pos := by decide
    egBits_le := by decide, egDpBits_le := by decide, dbMute := 2, dbMute_ge := by decide
    wave := fun _ _ => 0, db2lin := fun _ => 0
    arAdjust := fun _ => 0, arAdjust_lt := fun _ _ => by decide
    dphase := fun _ _ _ => 0, pmApply := fun d _ => d, rks := fun _ _ _ => 0#4
    arRate := fun _ _ => 0, arRate_lt := fun _ _ => by decide
    drRate := fun _ _ => 0, drRate_lt := fun _ _ => by decide
    attackInstant := fun _ => false, slThresh := fun _ => 0, slThresh_le := fun _ => by decide
    tll := fun _ _ _ _ => 0, volTl := fun _ => 0#6
    eg2db := fun x => x, eg2db_mono := fun _ _ h => h
    fbOffset := fun _ _ => 0, modOffset := fun _ => 0
    pmDpBits := 0, pmPgBits := 0, pmPgBits_le := by decide, pmDphase := 0, pmTable := fun _ => 0
    amDpBits := 0, amPgBits := 0, amPgBits_le := by decide, amDphase := 0, amTable := fun _ => 0
    noiseTaps := 0#17, noiseSeed := 1#17, noiseSeed_ne := by decide
    naStep := fun x => x, nbStep := fun x => x, naInit := 0, nbInit := 0
    percRaw := fun v x =>
      match v with
      | .sd => if x.nbit then -1 else 1
      | .hh => if x.nbit then -(1 + (x.na : Int) + x.nb) else 1 + x.na + x.nb
      | .tom => 0
      | .cym => (x.na : Int) + x.nb
    factory := fun _ => Patch.zero }

theorem Config.sample_conforms : Config.sample.Conforms := by
  let z : PercIn :=
    { egout := 0, pgout := 0, wf := false, nbit := false, na := 0, nb := 0, pgAll := fun _ => 0 }
  refine ⟨fun _ _ _ => Nat.two_pow_pos _, ⟨⟨fun _ _ => false, fun x => ?_⟩, z, by decide⟩,
    ⟨⟨fun _ _ => false, fun x => ?_⟩, z, by decide⟩,
    ⟨⟨z, 1, by decide⟩, z, 1, by decide⟩, ⟨⟨z, 1, by decide⟩, z, 1, by decide⟩⟩
  · cases h : x.nbit <;> simp [Config.sample, h]
  · cases h : x.nbit <;> simp [Config.sample, h] <;> omega

/-- The configuration of the instance, before its proof is dropped: a free value (R8: "No rule
assumes any property of a field beyond the constraints stated here"). It has no body. -/
opaque Config.chosen [Inhabited ConformingCfg] : ConformingCfg

/-- `Cfg`: the configuration of the instance that `exec` and `step` model, fixed at construction
and written by no command (spec/10_state.md R38, spec/70_reset_and_hazards.md R292, R294). -/
def Config.cfg : Cfg :=
  (@Config.chosen ⟨⟨Config.sample, Config.sample_conforms⟩⟩).cfg

/-- The instance's configuration meets every constraint of R8. -/
theorem Config.cfg_conforms : Config.cfg.Conforms :=
  (@Config.chosen ⟨⟨Config.sample, Config.sample_conforms⟩⟩).conforms

end Sys2Proof
end

