-- ==== Sys2Proof/Machine/State.lean ====
section
/-! DEFINITION. The state as plain data (spec/10_state.md R21 to R37), the reasons a step can stop
(spec/60_exceptions.md R264, R265), and the state after construction (spec/10_state.md R58,
spec/70_reset_and_hazards.md R292). -/

namespace Sys2Proof.Machine

/-- The seven envelope modes (R29). -/
inductive EgMode where
  | settle
  | attack
  | decay
  | sustainHold
  | sustain
  | release
  | finish
  deriving DecidableEq, Repr

/-- A slot's role (R44). -/
inductive Role where
  | modulator
  | carrier
  deriving DecidableEq, Repr

/-- The stored state of one slot (R27). -/
structure SlotState where
  /-- phase accumulator, a 32-bit register kept below 2^DP_BITS (R28) -/
  phase : BitVec 32
  /-- envelope mode (R29) -/
  egMode : EgMode
  /-- envelope accumulator (bounds: R183) -/
  egPhase : Nat
  /-- raw output of the most recent output stage -/
  out0 : Int
  /-- raw output of the output stage before that -/
  out1 : Int
  /-- averaged output of the most recent modulator stage -/
  feedback : Int
  deriving DecidableEq, Repr

/-- The block's stored state (R21 to R37). -/
structure Block where
  /-- register shadow (R21) -/
  reg : Vector Byte 64
  /-- patch store (R25, R26) -/
  patch : Vector Patch 38
  /-- slots (R27, R30) -/
  slot : Vector SlotState 18
  /-- hi-hat volume latch (R32) -/
  pvolHh : BitVec 4
  /-- tom volume latch (R32) -/
  pvolTom : BitVec 4
  /-- vibrato LFO accumulator (R33) -/
  pmPhase : Nat
  /-- tremolo LFO accumulator (R33) -/
  amPhase : Nat
  /-- noise register (R34) -/
  noise : BitVec 17
  /-- noise oscillator A (R35) -/
  naPhase : Nat
  /-- noise oscillator B (R35) -/
  nbPhase : Nat
  /-- I/O address latch (R36) -/
  ioAddr : Byte
  /-- mute mask (R37) -/
  mask : BitVec 14
  deriving DecidableEq, Repr

/-- The machine: the block, and beside it the model's bookkeeping of its host, which is no block
state and which no command reads (R23, R240; notes/assumptions/2.md and 3.md). -/
structure State where
  /-- the block's state -/
  block : Block
  /-- command words the host has issued and the block has not applied yet, oldest first (R23) -/
  pending : List Word
  /-- index in the host's command sequence of the next command (R23) -/
  index : Nat
  /-- samples CALC has returned to the host, newest first (R240) -/
  samples : List Sample
  deriving DecidableEq, Repr

/-- Why the machine stops with a fault: the closed list of R265. -/
inductive Fault where
  /-- `SETTLE_UNMODELLED` (R179, R265): raised by CALC's envelope stage when a slot holds mode
  Settle, with the lowest such slot (R267). Safe: the spec gives Settle no behaviour and no
  reachable state holds it (R60). -/
  | settleUnmodelled (slot : SlotId)
  deriving DecidableEq, Repr

/-- Why the machine refuses: the closed list of R264, and the interface's own constructor. -/
inductive Refusal where
  /-- `UNDEFINED_COMMAND_WORD` (R84, R264): raised by the step on a word that decodes to no
  command, with the word and its index in the command sequence. Safe: the command word is the
  spec's own form, so refusing it removes no behaviour of the block. -/
  | undefinedCommandWord (word : Word) (index : Nat)
  /-- An instruction without a meaning in the dispatch. Raised by no arm. Safe. -/
  | notModelled (mnemonic : String)
  deriving DecidableEq, Repr

/-- A slot after construction and after RESET (R58). -/
def SlotState.initial (c : Cfg) : SlotState :=
  { phase := 0#32, egMode := .finish, egPhase := 2 ^ c.egDpBits, out0 := 0, out1 := 0
    feedback := 0 }

/-- A newly constructed block (R58, R292): RESET's state with mask 0. -/
def Block.construct (c : Cfg) : Block :=
  { reg := Vector.replicate 64 0x00#8
    patch := Vector.ofFn c.factory
    slot := Vector.replicate 18 (SlotState.initial c)
    pvolHh := 0#4
    pvolTom := 0#4
    pmPhase := 0
    amPhase := 0
    noise := c.noiseSeed
    naPhase := c.naInit
    nbPhase := c.nbInit
    ioAddr := 0x00#8
    mask := 0#14 }

/-- The machine right after construction (R292): no command issued yet, index 0 (R23), no sample
returned. -/
def State.reset : State :=
  { block := Block.construct Config.cfg, pending := [], index := 0, samples := [] }

end Sys2Proof.Machine
end

