-- ==== Sys2Proof/Machine/Ops.lean ====
section
/-! DEFINITION. The named operations over the register shadow, the patch store and the slots, and
the arithmetic of spec/00_scope.md R11. There is no exception to take and none to return from: the
block has no trap, saves no state and has no vector (spec/60_exceptions.md R261, R266, R268, R269);
a refusal or a fault is an outcome of the model, not a behaviour of the block. -/

namespace Sys2Proof.Machine

/-- `clip16` (R11). -/
def clip16 (v : Int) : Int := max (-32768) (min 32767 v)

/-- A clipped value as the 16-bit two's-complement sample (R240). -/
def sampleOf (v : Int) : Sample := BitVec.ofInt 16 v

/-- The floor mean of a stage's last two raw outputs, `(out0 + out1) >> 1` (R210). -/
def average (out0 out1 : Int) : Int := (out0 + out1) >>> (1 : Nat)

/-- `(p + off) mod 2^n`, the non-negative remainder (R202). -/
def wrapIndex (n p : Nat) (off : Int) : Nat := (((p : Int) + off) % 2 ^ n).toNat

/-- `reg[a]` (R12, R21). -/
def Block.regAt (b : Block) (a : RegAddr) : Byte := b.reg[a.toNat]

/-- `reg[a] <- v` (R12, R21). -/
def Block.setReg (b : Block) (a : RegAddr) (v : Byte) : Block :=
  { b with reg := b.reg.set a.toNat v }

/-- `MemRead(a, 1)` (R12). -/
def Block.memRead (b : Block) (a : Nat) : Byte := b.regAt (BitVec.ofNat 6 a)

/-- `MemWrite(a, 1, v)` (R12): `reg[a mod 64] <- v mod 256`. -/
def Block.memWrite (b : Block) (a v : Nat) : Block :=
  b.setReg (BitVec.ofNat 6 a) (BitVec.ofNat 8 v)

/-- `patch[p]` (R25). -/
def Block.patchAt (b : Block) (p : PatchId) : Patch := b.patch[p.val]

/-- Rewrite fields of `patch[p]`. -/
def Block.modifyPatch (b : Block) (p : PatchId) (f : Patch → Patch) : Block :=
  { b with patch := b.patch.set p.val (f (b.patchAt p)) }

/-- `slot[s]` (R27). -/
def Block.slotAt (b : Block) (s : SlotId) : SlotState := b.slot[s.val]

/-- Every slot replaced by its own function of the slot number (`for s in 0..17`, R12, where each
slot's step writes only that slot). -/
def Block.forSlots (b : Block) (f : SlotId → SlotState) : Block :=
  { b with slot := Vector.ofFn f }

/-- The lowest slot that holds Settle (R267), if any. -/
def Block.firstSettle (b : Block) : Option SlotId :=
  (List.finRange 18).find? fun s => decide ((b.slotAt s).egMode = .settle)

/-- A command that transforms the block and nothing else. -/
def State.onBlock (s : State) (f : Block → Block) : State := { s with block := f s.block }

end Sys2Proof.Machine
end

