-- ==== Sys2Proof/Machine/Operands.lean ====
section
/-! DEFINITION. The derived views of spec/10_state.md R40 to R45 and R50 to R54: pure functions of
the block, computed on demand, so that no view is ever stale (R55). The key line, the sustain flag
and the role they rest on are in Flags.lean. -/

namespace Sys2Proof.Machine

/-- The channel of a slot (R41). -/
def chOf (s : SlotId) : Channel := ⟨s.val / 2, by omega⟩

/-- The operator of a slot, as "is the carrier position" (R41: op = 1). -/
def opOf (s : SlotId) : Bool := decide (s.val % 2 = 1)

/-- The modulator slot of a channel (R41). -/
def modSlot (c : Channel) : SlotId := ⟨2 * c.val, by omega⟩

/-- The carrier slot of a channel (R41). -/
def carSlot (c : Channel) : SlotId := ⟨2 * c.val + 1, by omega⟩

/-- A register of the three channel groups, `reg[base + c]`. -/
def Block.chanReg (b : Block) (base : RegAddr) (c : Channel) : Byte :=
  b.regAt (channelAddr base c)

/-- Rhythm mode, `reg[0x0E][5]` (R40). -/
def Block.rhythm (b : Block) : Bool := (b.regAt 0x0E#6).getLsbD 5

/-- The instrument bound to a channel, 0..18 (R42). -/
def Block.inst (b : Block) (c : Channel) : Fin 19 :=
  if b.rhythm = true ∧ 6 ≤ c.val then ⟨c.val + 10, by omega⟩
  else ⟨((b.chanReg 0x30#6 c).extractLsb' 4 4).toNat, by omega⟩

/-- The number of operator `op` of instrument `i` (R26). -/
def patchId (i : Fin 19) (op : Bool) : PatchId :=
  ⟨2 * i.val + op.toNat, by have := op.toNat_lt; omega⟩

/-- The patch bound to a slot (R43). -/
def Block.patchOf (b : Block) (s : SlotId) : Patch :=
  b.patchAt (patchId (b.inst (chOf s)) (opOf s))

/-- A slot's role (R44). -/
def Block.role (b : Block) (s : SlotId) : Role :=
  if opOf s = true ∨ (b.rhythm = true ∧ (s = 14 ∨ s = 16)) then .carrier else .modulator

/-- A channel's 9-bit F-number (R45). -/
def Block.fnum (b : Block) (c : Channel) : BitVec 9 :=
  (b.chanReg 0x20#6 c).extractLsb' 0 1 ++ b.chanReg 0x10#6 c

/-- A channel's 3-bit block (R45). -/
def Block.blockNo (b : Block) (c : Channel) : BitVec 3 := (b.chanReg 0x20#6 c).extractLsb' 1 3

/-- A channel's 4-bit volume, `reg[0x30 + c][3:0]` (R97, R98). -/
def Block.volume (b : Block) (c : Channel) : BitVec 4 := (b.chanReg 0x30#6 c).extractLsb' 0 4

/-- A slot's level, 0..63 (R50). -/
def Block.level (b : Block) (c : Cfg) (s : SlotId) : BitVec 6 :=
  if b.role s = .modulator then (b.patchOf s).tl
  else if b.rhythm = true ∧ s = 14 then c.volTl b.pvolHh
  else if b.rhythm = true ∧ s = 16 then c.volTl b.pvolTom
  else c.volTl (b.volume (chOf s))

/-- A slot's phase increment before vibrato (R51). -/
def Block.dphase (b : Block) (c : Cfg) (s : SlotId) : Nat :=
  c.dphase (b.fnum (chOf s)) (b.blockNo (chOf s)) (b.patchOf s).ml

/-- A slot's key-scale rate index (R52). -/
def Block.rks (b : Block) (c : Cfg) (s : SlotId) : BitVec 4 :=
  c.rks ((b.fnum (chOf s)).getLsbD 8) (b.blockNo (chOf s)) (b.patchOf s).kr

/-- A slot's total level plus key-scale level, in envelope units (R53). -/
def Block.tll (b : Block) (c : Cfg) (s : SlotId) : Nat :=
  c.tll ((b.fnum (chOf s)).extractLsb' 5 4) (b.blockNo (chOf s)) (b.level c s) (b.patchOf s).kl

/-- A slot's waveform select (R54). -/
def Block.wf (b : Block) (s : SlotId) : Bool := (b.patchOf s).wf

end Sys2Proof.Machine
end

