-- ==== Sys2Proof/Machine/Flags.lean ====
section
/-! DEFINITION. The block has no status flags, condition codes or predicates (spec/10_state.md R24).
What the source calls key status and sustain flag are views of the register shadow; they are here:
R46 to R49. -/

namespace Sys2Proof.Machine

/-- A channel's key status, `reg[0x20 + c][4]` (R46). -/
def Block.key (b : Block) (c : Channel) : Bool := (b.chanReg 0x20#6 c).getLsbD 4

/-- The bit of register 0x0E that keys a percussion slot (R47), if the slot is one. -/
def percBitIndex (s : SlotId) : Option Nat :=
  if s = 12 ∨ s = 13 then some 4
  else if s = 14 then some 0
  else if s = 15 then some 3
  else if s = 16 then some 2
  else if s = 17 then some 1
  else none

/-- A slot's percussion key bit (R47). -/
def Block.percBit (b : Block) (s : SlotId) : Bool :=
  match percBitIndex s with
  | some i => (b.regAt 0x0E#6).getLsbD i
  | none => false

/-- A slot's key line (R48). -/
def Block.line (b : Block) (s : SlotId) : Bool := b.key (chOf s) || (b.rhythm && b.percBit s)

/-- A slot's sustain flag (R49). -/
def Block.sustain (b : Block) (s : SlotId) : Bool :=
  decide (b.role s = .carrier) && (b.chanReg 0x20#6 (chOf s)).getLsbD 5

end Sys2Proof.Machine
end

