-- ==== Sys2Proof/Machine/Keys.lean ====
section
/-! DEFINITION. Key-on, key-off and the key processing that every register write ends with
(spec/40_register_writes.md R111 to R116). -/

namespace Sys2Proof.Machine

/-- KeyOn (R113): phase and envelope restart; the output history stays. -/
def keyOn (sl : SlotState) : SlotState := { sl with phase := 0#32, egPhase := 0, egMode := .attack }

/-- The accumulator after the attack-curve conversion of KeyOff (R114). -/
def attackConvert (c : Cfg) (egPhase : Nat) : Nat := c.arAdjust (egPhase >>> c.egSh) <<< c.egSh

/-- KeyOff (R114): an active slot moves to Release, one still in Attack through the attack curve. -/
def keyOff (c : Cfg) (sl : SlotState) : SlotState :=
  match sl.egMode with
  | .attack => { sl with egPhase := attackConvert c sl.egPhase, egMode := .release }
  | .decay => { sl with egMode := .release }
  | .sustainHold => { sl with egMode := .release }
  | .sustain => { sl with egMode := .release }
  | .settle => sl
  | .release => sl
  | .finish => sl

/-- The forced Finish of rhythm entry and exit (R115, R116). -/
def forceFinish (sl : SlotState) : SlotState := { sl with egMode := .finish }

/-- What key processing does to slot `s`, from the key lines before (`b0`) and after (`b1`) the
write (R112). -/
def keyStep (c : Cfg) (b0 b1 : Block) (s : SlotId) (sl : SlotState) : SlotState :=
  let o := b0.line s
  let n := b1.line s
  if b0.rhythm = false ∧ b1.rhythm = true ∧ 12 ≤ s.val then
    if o = false ∧ n = true then keyOn sl else forceFinish sl
  else if b0.rhythm = true ∧ b1.rhythm = false ∧ 12 ≤ s.val then
    if o = true ∧ n = false then forceFinish sl else sl
  else if o = false ∧ n = true then keyOn sl
  else if o = true ∧ n = false ∧ b1.role s = .carrier then keyOff c sl
  else sl

/-- KeyProcess (R112). -/
def keyProcess (c : Cfg) (b0 b1 : Block) : Block :=
  b1.forSlots fun s => keyStep c b0 b1 s (b1.slotAt s)

/-- The common write sequence (R111) at an effective address, with the class step given: shadow,
class step, key processing against the state before the write. -/
def Block.writeWith (b : Block) (c : Cfg) (a : RegAddr) (d : Byte) (classStep : Block → Block) :
    Block :=
  keyProcess c b (classStep (b.setReg a d))

/-- A register write of the machine: R111 on the block. -/
def State.write (s : State) (a : RegAddr) (d : Byte) (classStep : Block → Block) :
    Host.Outcome State Fault Refusal :=
  .next (s.onBlock fun b => b.writeWith Config.cfg a d classStep)

end Sys2Proof.Machine
end

