-- ==== Sys2Proof/Machine/ChannelWrites.lean ====
section
/-! DEFINITION. Rhythm control, the channel registers and the reserved registers
(spec/40_register_writes.md R125 to R129). -/

namespace Sys2Proof.Machine

/-- Class step of WR_INST_VOL (R128): in rhythm mode the high nibble of 0x37 and 0x38 goes to the
hi-hat and tom volume latches (R98). -/
def instVolStep (c : Channel) (d : Byte) (b : Block) : Block :=
  if b.rhythm = true ∧ c = 7 then { b with pvolHh := d.extractLsb' 4 4 }
  else if b.rhythm = true ∧ c = 8 then { b with pvolTom := d.extractLsb' 4 4 }
  else b

/-- WR_RHYTHM (R125): shadow and key processing; the views do the rest. -/
def execWrRhythm (d : Byte) (s : State) : Host.Outcome State Fault Refusal :=
  s.write 0x0E#6 d id

/-- WR_FNUM_LO (R126). -/
def execWrFnumLo (c : Channel) (d : Byte) (s : State) : Host.Outcome State Fault Refusal :=
  s.write (channelAddr 0x10#6 c) d id

/-- WR_BLK_KEY (R127). -/
def execWrBlkKey (c : Channel) (d : Byte) (s : State) : Host.Outcome State Fault Refusal :=
  s.write (channelAddr 0x20#6 c) d id

/-- WR_INST_VOL (R128). -/
def execWrInstVol (c : Channel) (d : Byte) (s : State) : Host.Outcome State Fault Refusal :=
  s.write (channelAddr 0x30#6 c) d (instVolStep c d)

/-- WR_RESERVED (R129): the shadow alone. -/
def execWrReserved (a : RegAddr) (d : Byte) (s : State) : Host.Outcome State Fault Refusal :=
  s.write a d id

end Sys2Proof.Machine
end

