-- ==== Sys2Proof/Machine/PatchWrites.lean ====
section
/-! DEFINITION. The eight registers of the user instrument, 0x00..0x07
(spec/40_register_writes.md R117 to R124; fields: spec/30_encoding.md R89 to R93). -/

namespace Sys2Proof.Machine

/-- AM, PM, EG, KR and ML of a patch (R89). -/
def ampmFields (d : Byte) (p : Patch) : Patch :=
  { p with am := d.getLsbD 7, pm := d.getLsbD 6, eg := d.getLsbD 5, kr := d.getLsbD 4
           ml := d.extractLsb' 0 4 }

/-- KL and TL of patch 0 (R90). -/
def klTlFields (d : Byte) (p : Patch) : Patch :=
  { p with kl := d.extractLsb' 6 2, tl := d.extractLsb' 0 6 }

/-- KL and WF of patch 1 (R91). -/
def klWfFields (d : Byte) (p : Patch) : Patch :=
  { p with kl := d.extractLsb' 6 2, wf := d.getLsbD 4 }

/-- WF and FB of patch 0 (R91). -/
def wfFbFields (d : Byte) (p : Patch) : Patch :=
  { p with wf := d.getLsbD 3, fb := d.extractLsb' 0 3 }

/-- AR and DR of a patch (R92). -/
def arDrFields (d : Byte) (p : Patch) : Patch :=
  { p with ar := d.extractLsb' 4 4, dr := d.extractLsb' 0 4 }

/-- SL and RR of a patch (R93). -/
def slRrFields (d : Byte) (p : Patch) : Patch :=
  { p with sl := d.extractLsb' 4 4, rr := d.extractLsb' 0 4 }

/-- Class step of WR_AMPM_MOD and WR_AMPM_CAR on patch `p` (R117, R118). -/
def ampmStep (p : PatchId) (d : Byte) (b : Block) : Block := b.modifyPatch p (ampmFields d)

/-- Class step of WR_KLTL (R119). -/
def klTlStep (d : Byte) (b : Block) : Block := b.modifyPatch 0 (klTlFields d)

/-- Class step of WR_KLWFFB (R120). -/
def klWfFbStep (d : Byte) (b : Block) : Block :=
  (b.modifyPatch 1 (klWfFields d)).modifyPatch 0 (wfFbFields d)

/-- Class step of WR_ARDR_MOD and WR_ARDR_CAR on patch `p` (R121, R122). -/
def arDrStep (p : PatchId) (d : Byte) (b : Block) : Block := b.modifyPatch p (arDrFields d)

/-- Class step of WR_SLRR_MOD and WR_SLRR_CAR on patch `p` (R123, R124). -/
def slRrStep (p : PatchId) (d : Byte) (b : Block) : Block := b.modifyPatch p (slRrFields d)

/-- WR_AMPM_MOD (R117). -/
def execWrAmpmMod (d : Byte) (s : State) : Host.Outcome State Fault Refusal :=
  s.write 0x00#6 d (ampmStep 0 d)

/-- WR_AMPM_CAR (R118). -/
def execWrAmpmCar (d : Byte) (s : State) : Host.Outcome State Fault Refusal :=
  s.write 0x01#6 d (ampmStep 1 d)

/-- WR_KLTL (R119). -/
def execWrKltl (d : Byte) (s : State) : Host.Outcome State Fault Refusal :=
  s.write 0x02#6 d (klTlStep d)

/-- WR_KLWFFB (R120). -/
def execWrKlwffb (d : Byte) (s : State) : Host.Outcome State Fault Refusal :=
  s.write 0x03#6 d (klWfFbStep d)

/-- WR_ARDR_MOD (R121). -/
def execWrArdrMod (d : Byte) (s : State) : Host.Outcome State Fault Refusal :=
  s.write 0x04#6 d (arDrStep 0 d)

/-- WR_ARDR_CAR (R122). -/
def execWrArdrCar (d : Byte) (s : State) : Host.Outcome State Fault Refusal :=
  s.write 0x05#6 d (arDrStep 1 d)

/-- WR_SLRR_MOD (R123). -/
def execWrSlrrMod (d : Byte) (s : State) : Host.Outcome State Fault Refusal :=
  s.write 0x06#6 d (slRrStep 0 d)

/-- WR_SLRR_CAR (R124). -/
def execWrSlrrCar (d : Byte) (s : State) : Host.Outcome State Fault Refusal :=
  s.write 0x07#6 d (slRrStep 1 d)

end Sys2Proof.Machine
end

