-- ==== Sys2Proof/Machine/IoWrites.lean ====
section
/-! DEFINITION. The I/O port pair (spec/40_register_writes.md R130, R131). -/

namespace Sys2Proof.Machine

/-- The class step that R85 selects for an effective address (R111). -/
def classStep (a : RegAddr) (d : Byte) (b : Block) : Block :=
  match regClass a with
  | .ampmMod => ampmStep 0 d b
  | .ampmCar => ampmStep 1 d b
  | .klTl => klTlStep d b
  | .klWfFb => klWfFbStep d b
  | .arDrMod => arDrStep 0 d b
  | .arDrCar => arDrStep 1 d b
  | .slRrMod => slRrStep 0 d b
  | .slRrCar => slRrStep 1 d b
  | .rhythm => b
  | .fnumLo _ => b
  | .blkKey _ => b
  | .instVol c => instVolStep c d b
  | .reserved _ => b

/-- WRITE_REG(A, d) for an address byte A (R111). -/
def Block.writeReg (b : Block) (c : Cfg) (addr : Byte) (d : Byte) : Block :=
  b.writeWith c (effAddr addr) d (classStep (effAddr addr) d)

/-- IO_ADDR (R130): latch all 8 bits of the address byte. -/
def execIoAddr (d : Byte) (s : State) : Host.Outcome State Fault Refusal :=
  .next (s.onBlock fun b => { b with ioAddr := d })

/-- IO_DATA (R131): WRITE_REG at the latched address; the latch stays. -/
def execIoData (d : Byte) (s : State) : Host.Outcome State Fault Refusal :=
  .next (s.onBlock fun b => b.writeReg Config.cfg b.ioAddr d)

end Sys2Proof.Machine
end

