-- ==== Sys2Proof/Machine/Generators.lean ====
section
/-! DEFINITION. The first stages of CALC: the LFOs, the noise generator and the phase generator
(spec/41_phase_lfo_noise.md R151 to R162). -/

namespace Sys2Proof.Machine

/-- Vibrato LFO step (R151). -/
def vibratoStep (c : Cfg) (b : Block) : Block :=
  { b with pmPhase := (b.pmPhase + c.pmDphase) % 2 ^ c.pmDpBits }

/-- `lfo_pm`, looked up with the updated accumulator (R151). -/
def lfoPm (c : Cfg) (b : Block) : Int := c.pmTable (b.pmPhase >>> (c.pmDpBits - c.pmPgBits))

/-- Tremolo LFO step (R152). -/
def tremoloStep (c : Cfg) (b : Block) : Block :=
  { b with amPhase := (b.amPhase + c.amDphase) % 2 ^ c.amDpBits }

/-- `lfo_am`, looked up with the updated accumulator (R152). -/
def lfoAm (c : Cfg) (b : Block) : Nat := c.amTable (b.amPhase >>> (c.amDpBits - c.amPgBits))

/-- One step of the 17-bit noise register (R153). -/
def noiseNext (c : Cfg) (n : BitVec 17) : BitVec 17 :=
  if n.getLsbD 0 then (n >>> (1 : Nat)) ^^^ c.noiseTaps else n >>> (1 : Nat)

/-- Noise register step (R153). -/
def noiseStep (c : Cfg) (b : Block) : Block := { b with noise := noiseNext c b.noise }

/-- The noise bit, read after the step (R154). -/
def noiseBit (b : Block) : Bool := b.noise.getLsbD 0

/-- Noise oscillator step (R155). -/
def noiseOscStep (c : Cfg) (b : Block) : Block :=
  { b with naPhase := c.naStep b.naPhase, nbPhase := c.nbStep b.nbPhase }

/-- Step 1 of CALC, the shared generators in order (R231, R232). -/
def generators (c : Cfg) (b : Block) : Block :=
  noiseOscStep c (noiseStep c (tremoloStep c (vibratoStep c b)))

/-- A slot's phase increment for this sample (R156). -/
def phaseInc (c : Cfg) (b : Block) (s : SlotId) : Nat :=
  if (b.patchOf s).pm then c.pmApply (b.dphase c s) (lfoPm c b) else b.dphase c s

/-- The phase accumulator plus an increment, mod 2^DP_BITS (R157). -/
def phaseAdd (c : Cfg) (phase : BitVec 32) (inc : Nat) : BitVec 32 :=
  BitVec.ofNat 32 ((phase.toNat + inc) % 2 ^ c.dpBits)

/-- The phase step of every slot (R157, R159). -/
def phaseStage (c : Cfg) (b : Block) : Block :=
  b.forSlots fun s =>
    { b.slotAt s with phase := phaseAdd c (b.slotAt s).phase (phaseInc c b s) }

/-- A slot's waveform index, from the phase just updated (R160). -/
def pgout (c : Cfg) (b : Block) (s : SlotId) : Nat :=
  (b.slotAt s).phase.toNat >>> (c.dpBits - c.pgBits)

end Sys2Proof.Machine
end

