-- ==== Sys2Proof/Machine/Envelope.lean ====
section
/-! DEFINITION. The envelope stage of CALC (spec/42_envelope.md R171 to R187). -/

namespace Sys2Proof.Machine

/-- The envelope increment of a slot in a mode (R172). Settle has none: CALC faults before any
envelope step when a slot holds it (R179), so that row is never used. -/
def Block.egRate (b : Block) (c : Cfg) (s : SlotId) (m : EgMode) : Nat :=
  match m with
  | .attack => c.arRate (b.patchOf s).ar (b.rks c s)
  | .decay => c.drRate (b.patchOf s).dr (b.rks c s)
  | .sustainHold => 0
  | .sustain => c.drRate (b.patchOf s).rr (b.rks c s)
  | .release =>
    if b.sustain s then c.drRate 5#4 (b.rks c s) else c.drRate (b.patchOf s).rr (b.rks c s)
  | .finish => 0
  | .settle => 0

/-- What an envelope step gives: the slot and its envelope output `e` of this sample. -/
structure EgResult where
  slot : SlotState
  e : Nat
  deriving DecidableEq, Repr

/-- Attack step (R173). -/
def attackStep (c : Cfg) (p : Patch) (rate : Nat) (sl : SlotState) : EgResult :=
  if c.egFull ≤ sl.egPhase + rate ∨ c.attackInstant p.ar = true then
    { slot := { sl with egPhase := 0, egMode := .decay }, e := 0 }
  else
    { slot := { sl with egPhase := sl.egPhase + rate }, e := c.arAdjust (sl.egPhase >>> c.egSh) }

/-- Decay step (R174). -/
def decayStep (c : Cfg) (p : Patch) (rate : Nat) (sl : SlotState) : EgResult :=
  { slot :=
      if c.slThresh p.sl ≤ sl.egPhase + rate then
        { sl with egPhase := c.slThresh p.sl
                  egMode := if p.eg then .sustainHold else .sustain }
      else { sl with egPhase := sl.egPhase + rate }
    e := sl.egPhase >>> c.egSh }

/-- SustainHold step (R175). -/
def sustainHoldStep (c : Cfg) (p : Patch) (sl : SlotState) : EgResult :=
  { slot := if p.eg then sl else { sl with egMode := .sustain }
    e := sl.egPhase >>> c.egSh }

/-- The step that Sustain and Release share (R176, R177): the Finish test reads `e` before the
add, and the add happens either way. -/
def fadeStep (c : Cfg) (rate : Nat) (sl : SlotState) : EgResult :=
  if 2 ^ c.egBits ≤ sl.egPhase >>> c.egSh then
    { slot := { sl with egPhase := sl.egPhase + rate, egMode := .finish }, e := c.egMax }
  else { slot := { sl with egPhase := sl.egPhase + rate }, e := sl.egPhase >>> c.egSh }

/-- EgStep of one slot, with the rate of the mode it starts in (R173 to R178, R182). The Settle row
has no meaning and is never used: CALC faults first (R179). -/
def egStep (c : Cfg) (p : Patch) (rate : Nat) (sl : SlotState) : EgResult :=
  match sl.egMode with
  | .attack => attackStep c p rate sl
  | .decay => decayStep c p rate sl
  | .sustainHold => sustainHoldStep c p sl
  | .sustain => fadeStep c rate sl
  | .release => fadeStep c rate sl
  | .finish => { slot := sl, e := c.egMax }
  | .settle => { slot := sl, e := c.egMax }

/-- The envelope step of slot `s` in the block (R172 to R178). -/
def Block.envelope (b : Block) (c : Cfg) (s : SlotId) : EgResult :=
  egStep c (b.patchOf s) (b.egRate c s (b.slotAt s).egMode) (b.slotAt s)

/-- The envelope step of every slot. -/
def egStage (c : Cfg) (b : Block) : Block := b.forSlots fun s => (b.envelope c s).slot

/-- A slot's attenuation code for the sample, from its envelope output `e` (R185, R186). -/
def Block.attenuation (b : Block) (c : Cfg) (s : SlotId) (e : Nat) : Nat :=
  min (c.eg2db (e + b.tll c s) + if (b.patchOf s).am then lfoAm c b else 0) (c.dbMute - 1)

/-- `egout[s]`, computed from the block as it is before the envelope step of `s` (R185). -/
def egout (c : Cfg) (b : Block) (s : SlotId) : Nat := b.attenuation c s (b.envelope c s).e

/-- An attenuation code at or above the mute code (R187). -/
def muted (c : Cfg) (eg : Nat) : Bool := decide (c.dbMute - 1 ≤ eg)

end Sys2Proof.Machine
end

