-- ==== Sys2Proof/Machine/Output.lean ====
section
/-! DEFINITION. The output stages of CALC: modulator, carrier and percussion
(spec/43_operator_output.md R201 to R222). -/

namespace Sys2Proof.Machine

/-- The raw output of an FM stage: 0 when muted (R204), else the waveform at the offset index
through the linear table (R202, R203). -/
def rawOutput (c : Cfg) (wf : Bool) (pg eg : Nat) (off : Int) : Int :=
  if muted c eg then 0 else c.db2lin (c.wave wf (wrapIndex c.pgBits pg off) + eg)

/-- Shift a new raw output into a slot's history (R206, R208, R221). -/
def pushOutput (sl : SlotState) (raw : Int) : SlotState := { sl with out1 := sl.out0, out0 := raw }

/-- The mean of a slot's last two raw outputs (R210). -/
def SlotState.mean (sl : SlotState) : Int := average sl.out0 sl.out1

/-- The feedback phase offset (R206, R207). -/
def feedbackOffset (c : Cfg) (fb : BitVec 3) (feedback : Int) : Int :=
  if fb = 0#3 then 0 else c.fbOffset feedback fb

/-- ModStage (R206): the returned average is the slot's new `feedback`. -/
def modStage (c : Cfg) (p : Patch) (pg eg : Nat) (sl : SlotState) : SlotState :=
  let sl' := pushOutput sl (rawOutput c p.wf pg eg (feedbackOffset c p.fb sl.feedback))
  { sl' with feedback := sl'.mean }

/-- CarStage (R208): the returned average is the slot's `mean`. -/
def carStage (c : Cfg) (p : Patch) (pg eg : Nat) (fm : Int) (sl : SlotState) : SlotState :=
  pushOutput sl (rawOutput c p.wf pg eg (c.modOffset fm))

/-- PercStage (R221): `PERC_RAW` is not asked for a muted slot (R204). -/
def percStage (c : Cfg) (v : PercVoice) (x : PercIn) (sl : SlotState) : SlotState :=
  pushOutput sl (if muted c x.egout then 0 else c.percRaw v x)

/-- The per-sample temporaries that the output stages read (spec/10_state.md R39). -/
structure Temps where
  pgout : SlotId → Nat
  egout : SlotId → Nat
  nbit : Bool

/-- The slot of a percussion voice (spec/10_state.md R31, R220). -/
def percSlot : PercVoice → SlotId
  | .hh => 14
  | .sd => 15
  | .tom => 16
  | .cym => 17

/-- The percussion input of voice `v` (R220). -/
def percInput (b : Block) (t : Temps) (v : PercVoice) : PercIn :=
  { egout := t.egout (percSlot v)
    pgout := t.pgout (percSlot v)
    wf := b.wf (percSlot v)
    nbit := t.nbit
    na := b.naPhase
    nb := b.nbPhase
    pgAll := t.pgout }

/-- A voice's output: the slots after its stages and the value it adds to the mix. -/
structure VoiceOut where
  slots : Vector SlotState 18
  value : Int

/-- `ChannelOut(ch)` (R212): ModStage, then CarStage on what it returned. -/
def channelOut (c : Cfg) (b : Block) (t : Temps) (ch : Channel) (slots : Vector SlotState 18) :
    VoiceOut :=
  let m := modSlot ch
  let k := carSlot ch
  let ms := modStage c (b.patchOf m) (t.pgout m) (t.egout m) slots[m.val]
  let ks := carStage c (b.patchOf k) (t.pgout k) (t.egout k) ms.feedback slots[k.val]
  { slots := (slots.set m.val ms).set k.val ks, value := ks.mean }

/-- A percussion voice's output (R221). -/
def percOut (c : Cfg) (b : Block) (t : Temps) (v : PercVoice) (slots : Vector SlotState 18) :
    VoiceOut :=
  let s := percSlot v
  let ps := percStage c v (percInput b t v) slots[s.val]
  { slots := slots.set s.val ps, value := ps.mean }

end Sys2Proof.Machine
end

