-- ==== Sys2Proof/Machine/Mixdown.lean ====
section
/-! DEFINITION. CALC: the mixdown, masking and clipping (spec/44_mixdown.md R231 to R240). -/

namespace Sys2Proof.Machine

/-- A summed source of the mix (R233). -/
inductive Voice where
  | channel (c : Channel)
  | bd
  | perc (v : PercVoice)
  deriving DecidableEq, Repr

/-- The slot whose Finish skips the voice (R233). -/
def Voice.skipSlot : Voice → SlotId
  | .channel c => carSlot c
  | .bd => 13
  | .perc v => percSlot v

/-- The voice's mask bit (R233). -/
def Voice.maskBit : Voice → Nat
  | .channel c => c.val
  | .bd => 13
  | .perc .hh => 9
  | .perc .sd => 12
  | .perc .tom => 11
  | .perc .cym => 10

/-- The voices of a CALC, in R231's order: channels 0 to 5 always, then channels 6 to 8 or the five
percussion voices (R236 to R238). -/
def voices (rhythm : Bool) : List Voice :=
  [.channel 0, .channel 1, .channel 2, .channel 3, .channel 4, .channel 5] ++
    if rhythm then [.bd, .perc .hh, .perc .sd, .perc .tom, .perc .cym]
    else [.channel 6, .channel 7, .channel 8]

/-- The stages of a voice; the bass drum is `ChannelOut(6)` (R213, R233). -/
def runVoice (c : Cfg) (b : Block) (t : Temps) (slots : Vector SlotState 18) : Voice → VoiceOut
  | .channel ch => channelOut c b t ch slots
  | .bd => channelOut c b t 6 slots
  | .perc v => percOut c b t v slots

/-- The mix so far: the slots, the melodic sum and the percussion sum. -/
structure Mix where
  slots : Vector SlotState 18
  inst : Int
  perc : Int

/-- Add a voice's value to its sum: a channel to `inst`, a percussion voice to `perc` (R236 to
R238). -/
def Mix.add (m : Mix) (v : Voice) (x : Int) : Mix :=
  match v with
  | .channel _ => { m with inst := m.inst + x }
  | .bd => { m with perc := m.perc + x }
  | .perc _ => { m with perc := m.perc + x }

/-- One voice of the mixdown: skipped whole in Finish (R234), run and not summed when masked
(R235). -/
def mixVoice (c : Cfg) (b : Block) (t : Temps) (m : Mix) (v : Voice) : Mix :=
  if m.slots[v.skipSlot.val].egMode = .finish then m
  else
    let o := runVoice c b t m.slots v
    if b.mask.getLsbD v.maskBit then { m with slots := o.slots }
    else { m with slots := o.slots }.add v o.value

/-- Step 3 of CALC (R231). -/
def mixdown (c : Cfg) (b : Block) (t : Temps) : Mix :=
  (voices b.rhythm).foldl (mixVoice c b t) { slots := b.slot, inst := 0, perc := 0 }

/-- Sum and clip (R239). -/
def Mix.sample (m : Mix) : Int := clip16 (m.inst + 2 * m.perc)

/-- The block after CALC's first two steps up to the phases: generators and phase step. -/
def calcPhases (c : Cfg) (b : Block) : Block := phaseStage c (generators c b)

/-- The temporaries of a CALC, from the block after its phase step. -/
def tempsOf (c : Cfg) (b : Block) : Temps :=
  { pgout := pgout c b, egout := egout c b, nbit := noiseBit b }

/-- CALC's mix: every generator, every phase and every envelope first, then the output stages
(R231, R232). -/
def calcMix (c : Cfg) (b : Block) : Mix :=
  mixdown c (egStage c (calcPhases c b)) (tempsOf c (calcPhases c b))

/-- The block after CALC, when no slot holds Settle (R231). -/
def Block.calc (b : Block) (c : Cfg) : Block :=
  { egStage c (calcPhases c b) with slot := (calcMix c b).slots }

/-- CALC (R231): a fault of the lowest slot in Settle ends it with the state unchanged (R179,
R267; no earlier step of CALC changes a mode); else the block advances and the sample goes to the
host (R240). -/
def execCalc (s : State) : Host.Outcome State Fault Refusal :=
  match s.block.firstSettle with
  | some k => .fault (.settleUnmodelled k)
  | none =>
    .next { s with
      block := s.block.calc Config.cfg
      samples := sampleOf (calcMix Config.cfg s.block).sample :: s.samples }

end Sys2Proof.Machine
end

