-- ==== Sys2Proof/Machine/System.lean ====
section
/-! DEFINITION. RESET and SET_MASK (spec/70_reset_and_hazards.md R291; spec/44_mixdown.md R241). -/

namespace Sys2Proof.Machine

/-- RESET of one slot (R291). -/
def resetSlot (c : Cfg) (sl : SlotState) : SlotState :=
  { sl with phase := 0#32, egMode := .finish, egPhase := c.egFull, out0 := 0, out1 := 0
            feedback := 0 }

/-- RESET (R291): every field but the mask, with no key processing. -/
def Block.resetBlock (b : Block) (c : Cfg) : Block :=
  { b with
    reg := Vector.ofFn fun _ => 0x00#8
    patch := Vector.ofFn fun p => c.factory p
    slot := Vector.ofFn fun s => resetSlot c (b.slotAt s)
    pvolHh := 0#4
    pvolTom := 0#4
    pmPhase := 0
    amPhase := 0
    noise := c.noiseSeed
    naPhase := c.naInit
    nbPhase := c.nbInit
    ioAddr := 0x00#8 }

/-- RESET (R291). -/
def execReset (s : State) : Host.Outcome State Fault Refusal :=
  .next (s.onBlock fun b => b.resetBlock Config.cfg)

/-- SET_MASK (R241): `mask <- M mod 2^14`. -/
def execSetMask (m : BitVec 16) (s : State) : Host.Outcome State Fault Refusal :=
  .next (s.onBlock fun b => { b with mask := m.extractLsb' 0 14 })

end Sys2Proof.Machine
end

