-- ==== Sys2Proof/Machine/Dispatch.lean ====
section
/-! DEFINITION. One arm per constructor of `Instr`, each one direct call of its meaning. -/

namespace Sys2Proof.Machine

def exec (i : Instr) (s : State) : Host.Outcome State Fault Refusal :=
  match i with
  | .wrAmpmMod d => Sys2Proof.Machine.execWrAmpmMod d s
  | .wrAmpmCar d => Sys2Proof.Machine.execWrAmpmCar d s
  | .wrKltl d => Sys2Proof.Machine.execWrKltl d s
  | .wrKlwffb d => Sys2Proof.Machine.execWrKlwffb d s
  | .wrArdrMod d => Sys2Proof.Machine.execWrArdrMod d s
  | .wrArdrCar d => Sys2Proof.Machine.execWrArdrCar d s
  | .wrSlrrMod d => Sys2Proof.Machine.execWrSlrrMod d s
  | .wrSlrrCar d => Sys2Proof.Machine.execWrSlrrCar d s
  | .wrRhythm d => Sys2Proof.Machine.execWrRhythm d s
  | .wrFnumLo c d => Sys2Proof.Machine.execWrFnumLo c d s
  | .wrBlkKey c d => Sys2Proof.Machine.execWrBlkKey c d s
  | .wrInstVol c d => Sys2Proof.Machine.execWrInstVol c d s
  | .wrReserved a d => Sys2Proof.Machine.execWrReserved a d s
  | .ioAddr d => Sys2Proof.Machine.execIoAddr d s
  | .ioData d => Sys2Proof.Machine.execIoData d s
  | .calcSample => Sys2Proof.Machine.execCalc s
  | .reset => Sys2Proof.Machine.execReset s
  | .setMask m => Sys2Proof.Machine.execSetMask m s

end Sys2Proof.Machine
end

