-- ==== Sys2Proof/Machine/Fetch.lean ====
section
/-! DEFINITION. How a command reaches the block: the host's queue of issued commands
(spec/10_state.md R23, spec/20_memory.md R73). The block fetches nothing by itself (R76). -/

namespace Sys2Proof.Machine

/-- The next command word the host has issued, if any. -/
def fetch (s : State) : Option Word := s.pending.head?

/-- A command applied: it leaves the queue and the index grows by exactly 1 (R23). -/
def State.retire (s : State) : State :=
  { s with pending := s.pending.tail, index := s.index + 1 }

/-- The host's next command is `w`: it takes the place of the queue's head, if there is one. -/
def State.withCommand (s : State) (w : Word) : State := { s with pending := w :: s.pending.tail }

/-- The refusal of a word that spells no command, with the word and its index (R264). -/
def undefinedWord (s : State) (w : Word) : Refusal := .undefinedCommandWord w s.index

end Sys2Proof.Machine
end

