-- ==== Sys2Proof/Machine/Step.lean ====
section
/-! DEFINITION. One step: apply the host's next command completely (spec/10_state.md R23,
spec/20_memory.md R69, R73), or refuse a word that spells none (spec/30_encoding.md R84). -/

namespace Sys2Proof.Machine

/-- One step. With no command issued the block holds its state (R274). A fault or a refusal takes
precedence over every effect of its command (R267). -/
def step (s : State) : Host.Outcome State Fault Refusal :=
  match fetch s with
  | none => .next s
  | some w =>
    match decode w with
    | .error _ => .refused (undefinedWord s w)
    | .ok i =>
      match exec i s with
      | .next t => .next t.retire
      | .fault f => .fault f
      | .refused r => .refused r

/-- `s` with the command whose bits are `w` as the host's next command: the command word is `w` cut
to `nbits` bits, the bits above being 0. -/
def State.withFetchWord (s : State) (nbits w : Nat) : State :=
  s.withCommand (BitVec.ofNat 32 (w % 2 ^ nbits))

end Sys2Proof.Machine
end

