-- ==== Sys2Proof/Machine/Marks.lean ====
section
/-! DEFINITION. The sticky mark that a refusal or a fault leaves on the model
(spec/60_exceptions.md R262, R263, R267): the marked model keeps the state before the command and
applies no further command. -/

namespace Sys2Proof.Machine

/-- The mark of a refusal or a fault, with its reason and information (R264, R265). -/
inductive Mark where
  | refused (r : Refusal)
  | faulted (f : Fault)
  deriving DecidableEq, Repr

/-- The model state of R262 and R263: the machine's state and the mark, if any. -/
structure Marked where
  state : State
  mark : Option Mark
  deriving DecidableEq, Repr

/-- The newly constructed model: no mark (R292). -/
def Marked.constructed : Marked := { state := State.reset, mark := none }

/-- One step of the marked model: no command is applied once it is marked; a refusal or a fault
adds the mark and changes nothing else (R267). -/
def Marked.advance (m : Marked) : Marked :=
  match m.mark with
  | some _ => m
  | none =>
    match step m.state with
    | .next t => { state := t, mark := none }
    | .fault f => { m with mark := some (.faulted f) }
    | .refused r => { m with mark := some (.refused r) }

/-- `n` steps of the marked model. -/
def Marked.run : Nat → Marked → Marked
  | 0, m => m
  | n + 1, m => Marked.run n m.advance

end Sys2Proof.Machine
end

