-- ==== Sys2Proof/Safety.lean ====
section
/-! DEFINITION. What counts as a safe run, and the terms the statements use: the invariant that
every step keeps (spec/10_state.md R28, R33, R60; spec/42_envelope.md R183), the preset patches
(R26), a run that ends unmarked (spec/60_exceptions.md R263), and, written from the spec's tables
apart from the machine's own definitions, the class of a register address (R85), the percussion
key bit of a slot (R47), what a slot is bound to (R42 to R45, R51, R52), whether the user patch holds
what its registers hold (R89 to R93) and the slots of a voice (R233). -/

namespace Sys2Proof.Machine

/-- The bounds of R183 on an envelope accumulator, per mode. -/
def egBound (c : Cfg) (m : EgMode) (egPhase : Nat) : Prop :=
  match m with
  | .attack => egPhase < c.egFull
  | .decay => egPhase ≤ c.egFull
  | .sustainHold => egPhase ≤ c.egFull
  | .sustain => egPhase < 2 * c.egFull
  | .release => egPhase < 2 * c.egFull
  | .finish => egPhase < 3 * c.egFull
  | .settle => False

/-- A slot is in bounds: its phase below 2^DP_BITS (R28), its mode not Settle (R60), its
accumulator within R183. -/
structure SlotState.InBounds (c : Cfg) (sl : SlotState) : Prop where
  phase_lt : sl.phase.toNat < 2 ^ c.dpBits
  eg : egBound c sl.egMode sl.egPhase

/-- The block's invariant: every slot in bounds, and the LFO accumulators within their widths
(R33). -/
structure Block.Inv (c : Cfg) (b : Block) : Prop where
  slots : ∀ k : SlotId, (b.slotAt k).InBounds c
  pm_lt : b.pmPhase < 2 ^ c.pmDpBits
  am_lt : b.amPhase < 2 ^ c.amDpBits

/-- The patches that no command but RESET writes hold their factory contents (R26). -/
def Block.PresetsIntact (c : Cfg) (b : Block) : Prop :=
  ∀ p : PatchId, 2 ≤ p.val → b.patchAt p = c.factory p

/-- No slot holds Settle: the condition under which CALC completes (R179, R231). -/
def Block.NoSettle (b : Block) : Prop := ∀ k : SlotId, (b.slotAt k).egMode ≠ .settle

/-- Two blocks that differ at most in the mask. -/
def Block.SameButMask (a b : Block) : Prop := { a with mask := b.mask } = b

/-- A run of the marked model has ended well: no mark, and no command left. R263 says only that a
faulted state is never final and does not define "final": that a refused state and one with commands
still issued are not final either is the model's DESIGN CHOICE (safe; notes/assumptions/15.md). -/
def Marked.Final (m : Marked) : Prop := m.mark = none ∧ m.state.pending = []

/-- The mode of a slot after this CALC's envelope step (R171, R234). -/
def Block.endMode (b : Block) (c : Cfg) (k : SlotId) : EgMode := (b.envelope c k).slot.egMode

/-- The temporaries of the CALC that starts in `b` (R39). -/
def Block.temps (b : Block) (c : Cfg) : Temps := tempsOf c (calcPhases c b)

/-- The command that a WRITE_REG to address `a` (0..63) is, by R85's table in plain numbers. -/
def writeRow (a : Nat) (d : Byte) : Instr :=
  if a = 0x00 then .wrAmpmMod d
  else if a = 0x01 then .wrAmpmCar d
  else if a = 0x02 then .wrKltl d
  else if a = 0x03 then .wrKlwffb d
  else if a = 0x04 then .wrArdrMod d
  else if a = 0x05 then .wrArdrCar d
  else if a = 0x06 then .wrSlrrMod d
  else if a = 0x07 then .wrSlrrCar d
  else if a = 0x0E then .wrRhythm d
  else if 0x10 ≤ a ∧ a ≤ 0x18 then .wrFnumLo (Fin.ofNat 9 (a - 0x10)) d
  else if 0x20 ≤ a ∧ a ≤ 0x28 then .wrBlkKey (Fin.ofNat 9 (a - 0x20)) d
  else if 0x30 ≤ a ∧ a ≤ 0x38 then .wrInstVol (Fin.ofNat 9 (a - 0x30)) d
  else .wrReserved (BitVec.ofNat 6 a) d

/-- The percussion key bit of a slot in a byte of register 0x0E (R47, R94). -/
def percKeyBit (d : Byte) (k : SlotId) : Bool :=
  if k.val = 12 ∨ k.val = 13 then d.getLsbD 4
  else if k.val = 14 then d.getLsbD 0
  else if k.val = 15 then d.getLsbD 3
  else if k.val = 16 then d.getLsbD 2
  else if k.val = 17 then d.getLsbD 1
  else false

/-! ### What a slot is bound to, from the stored fields in plain numbers (R40 to R45, R51, R52) -/

/-- `reg[a]` as a number. -/
def Block.byte (b : Block) (a : Nat) : Nat := (b.reg[a % 64]'(Nat.mod_lt _ (by decide))).toNat

/-- Bit 5 of 0x0E is 1 (R40). -/
abbrev Block.rhythmOn (b : Block) : Prop := b.byte 0x0E / 32 % 2 = 1

/-- The instrument that slot `k`'s channel, k / 2, binds (R42). -/
def Block.boundInst (b : Block) (k : SlotId) : Nat :=
  if b.rhythmOn ∧ 6 ≤ k.val / 2 then k.val / 2 + 10
  else b.byte (0x30 + k.val / 2) / 16

/-- The patch bound to a slot, number 2 · inst + op with op = k mod 2 (R26, R43). The number is
below 38 in every state, so the remainder cuts nothing. -/
def Block.boundPatch (b : Block) (k : SlotId) : Patch :=
  b.patch[(2 * b.boundInst k + k.val % 2) % 38]'(Nat.mod_lt _ (by decide))

/-- Whether a slot has the Carrier role: op = 1, or slot 14 or 16 in rhythm mode (R44). -/
abbrev Block.carrierRole (b : Block) (k : SlotId) : Prop :=
  k.val % 2 = 1 ∨ b.rhythmOn ∧ (k.val = 14 ∨ k.val = 16)

/-- The F-number of slot `k`'s channel (R45). -/
def Block.pitchNumber (b : Block) (k : SlotId) : Nat :=
  b.byte (0x20 + k.val / 2) % 2 * 256 + b.byte (0x10 + k.val / 2)

/-- The block of slot `k`'s channel (R45). -/
def Block.pitchBlock (b : Block) (k : SlotId) : Nat := b.byte (0x20 + k.val / 2) / 2 % 8

/-- The phase increment of a slot before vibrato: `DPHASE` of F-number, block and ML (R51). -/
def Block.tableIncrement (b : Block) (c : Cfg) (k : SlotId) : Nat :=
  c.dphase (BitVec.ofNat 9 (b.pitchNumber k)) (BitVec.ofNat 3 (b.pitchBlock k)) (b.boundPatch k).ml

/-- The key-scale rate index of a slot: `RKS` of F-number bit 8, block and KR (R52). -/
def Block.rateIndex (b : Block) (c : Cfg) (k : SlotId) : BitVec 4 :=
  c.rks (decide (256 ≤ b.pitchNumber k)) (BitVec.ofNat 3 (b.pitchBlock k)) (b.boundPatch k).kr

/-- Patches 0 and 1 hold the fields that R89 to R93 give register `a` (0x00..0x07) with byte `d`. -/
def Block.userPatchHolds (b : Block) (a : Nat) (d : Byte) : Prop :=
  let p (op : Nat) : Patch := b.patch[op % 2]'(by omega)
  if a = 0x02 then (p 0).kl = d.extractLsb' 6 2 ∧ (p 0).tl = d.extractLsb' 0 6
  else if a = 0x03 then
    (p 1).kl = d.extractLsb' 6 2 ∧ (p 1).wf = d.getLsbD 4 ∧ (p 0).wf = d.getLsbD 3 ∧
      (p 0).fb = d.extractLsb' 0 3
  else if a ≤ 0x01 then
    (p a).am = d.getLsbD 7 ∧ (p a).pm = d.getLsbD 6 ∧ (p a).eg = d.getLsbD 5 ∧
      (p a).kr = d.getLsbD 4 ∧ (p a).ml = d.extractLsb' 0 4
  else if a ≤ 0x05 then (p (a - 4)).ar = d.extractLsb' 4 4 ∧ (p (a - 4)).dr = d.extractLsb' 0 4
  else (p (a - 6)).sl = d.extractLsb' 4 4 ∧ (p (a - 6)).rr = d.extractLsb' 0 4

/-- The commands `l`, applied in order, lead from `s` to `t`. -/
def Leads : List Instr → State → State → Prop
  | [], s, t => t = s
  | i :: l, s, t => ∃ u : State, exec i s = .next u ∧ Leads l u t

/-! ### Voices -/

/-- The slots whose output history a voice's stages move (R206, R208, R213, R221). -/
def Voice.owns : Voice → SlotId → Prop
  | .channel c, k => k = modSlot c ∨ k = carSlot c
  | .bd, k => k = 12 ∨ k = 13
  | .perc v, k => k = percSlot v

/-- What a voice adds to the sample, read off the slots after the CALC: nothing if its skip-test
slot is in Finish or its mask bit is 1, else the mean of that slot's last two raw outputs (R210,
R234, R235). -/
def Block.voiceValue (b : Block) (v : Voice) : Int :=
  if (b.slotAt v.skipSlot).egMode = .finish ∨ b.mask.getLsbD v.maskBit = true then 0
  else ((b.slotAt v.skipSlot).out0 + (b.slotAt v.skipSlot).out1) / 2

/-- The melodic voices of a CALC (R236, R237). -/
def melodicVoices (rhythm : Bool) : List Voice :=
  if rhythm then [.channel 0, .channel 1, .channel 2, .channel 3, .channel 4, .channel 5]
  else [.channel 0, .channel 1, .channel 2, .channel 3, .channel 4, .channel 5, .channel 6,
    .channel 7, .channel 8]

/-- The percussion voices of a CALC (R238). -/
def percussionVoices (rhythm : Bool) : List Voice :=
  if rhythm then [.bd, .perc .hh, .perc .sd, .perc .tom, .perc .cym] else []

end Sys2Proof.Machine
end

