-- ==== Sys2Proof/Certificates/Slice0/Obligations.lean ====
section
/-! DEFINITION. The statements for the provers, from the numbered rules of spec/. -/

open Sys2Proof Sys2Proof.Machine

/-! ### The command word (spec/30_encoding.md) -/

/-- R82 to R86: decoding the word of a well-formed command gives the command back, at every value
of every operand. -/
def Obligations.DecodeOfEncodeIsInstr : Prop :=
  ∀ i : Instr, i.wf = true → decode (encode i) = .ok i

/-- R83 (its items on A and P): a word that decodes gives a well-formed command whose own word is the
same word with the ignored bits cleared, bits 15:14 of a register write and bits 15:9 of an I/O write.
R83 ignores bits 15:14 of a SET_MASK word too; that a term of `Instr` keeps them is the model's choice
(notes/assumptions/10.md), and the meaning of SET_MASK drops them (R241). -/
def Obligations.EncodeOfDecodeClearsIgnoredBits : Prop :=
  ∀ (w : Word) (i : Instr), decode w = .ok i →
    i.wf = true ∧
    encode i =
      (if w.extractLsb' 28 4 = 0x0#4 then w &&& 0xFFFF3FFF#32
       else if w.extractLsb' 28 4 = 0x1#4 then w &&& 0xFFFF01FF#32
       else w)

/-- R84: exactly the words with kind 0x5..0xF or a nonzero must-be-0 bit decode to no command, and
a machine that meets one refuses it by name. -/
def Obligations.UndefinedWordsAreRefused : Prop :=
  ∀ w : Word,
    (decode w = .error .undefinedCommandWord ↔
      (5 ≤ (w.extractLsb' 28 4).toNat ∨ w.extractLsb' 16 12 ≠ 0#12 ∨
        ((w.extractLsb' 28 4 = 0x2#4 ∨ w.extractLsb' 28 4 = 0x3#4) ∧
          w.extractLsb' 0 16 ≠ 0#16))) ∧
    (decode w = .error .undefinedCommandWord →
      ∀ (s : State) (rest : List Word), s.pending = w :: rest →
        step s = .refused (.undefinedCommandWord w s.index))

/-- R85: the class of a register write, by the address table, for every word of kind 0x0. -/
def Obligations.RegisterClassOfWriteReg : Prop :=
  ∀ w : Word, w.extractLsb' 28 4 = 0x0#4 → w.extractLsb' 16 12 = 0#12 →
    decode w = .ok (writeRow ((w.extractLsb' 8 8).toNat % 64) (w.extractLsb' 0 8))

/-- R86: the other kinds. -/
def Obligations.DecodeOfOtherKinds : Prop :=
  ∀ w : Word, w.extractLsb' 16 12 = 0#12 →
    (w.extractLsb' 28 4 = 0x1#4 →
      decode w =
        if w.getLsbD 8 = false then .ok (.ioAddr (w.extractLsb' 0 8))
        else .ok (.ioData (w.extractLsb' 0 8))) ∧
    (w.extractLsb' 28 4 = 0x2#4 → w.extractLsb' 0 16 = 0#16 → decode w = .ok .calcSample) ∧
    (w.extractLsb' 28 4 = 0x3#4 → w.extractLsb' 0 16 = 0#16 → decode w = .ok .reset) ∧
    (w.extractLsb' 28 4 = 0x4#4 → decode w = .ok (.setMask (w.extractLsb' 0 16)))

/-- spec/95_test_vectors.md section 2.1 (V1 to V18): words read off the spec's tables. -/
def Obligations.ListedWordsDecode : Prop :=
  decode 0x00000021#32 = .ok (.wrAmpmMod 0x21#8) ∧
  decode 0x00000121#32 = .ok (.wrAmpmCar 0x21#8) ∧
  decode 0x00004E30#32 = .ok (.wrRhythm 0x30#8) ∧
  decode 0x00001800#32 = .ok (.wrFnumLo 8 0x00#8) ∧
  decode 0x00001900#32 = .ok (.wrReserved 0x19#6 0x00#8) ∧
  decode 0x00002819#32 = .ok (.wrBlkKey 8 0x19#8) ∧
  decode 0x1000FE20#32 = .ok (.ioAddr 0x20#8) ∧
  decode 0x1000FF01#32 = .ok (.ioData 0x01#8) ∧
  decode 0x20000000#32 = .ok .calcSample ∧
  decode 0x30000000#32 = .ok .reset ∧
  decode 0x40000202#32 = .ok (.setMask 0x0202#16)

/-! ### One step (spec/10_state.md R23, spec/20_memory.md R73, spec/60_exceptions.md) -/

/-- R23, R69, R73: a step applies the host's next command completely; the command leaves the queue
and the index grows by exactly 1. (The queue is the model's own: notes/assumptions/2.md.) -/
def Obligations.StepRunsIssuedCommand : Prop :=
  ∀ (s : State) (w : Word) (rest : List Word) (i : Instr),
    s.pending = w :: rest → decode w = .ok i →
      step s =
        match exec i s with
        | .next t => .next { t with pending := rest, index := s.index + 1 }
        | .fault f => .fault f
        | .refused r => .refused r

/-- R274: with no command issued, the state holds unchanged. (That the model takes a step then is
its own choice: notes/assumptions/2.md.) -/
def Obligations.NoCommandHoldsState : Prop :=
  ∀ s : State, s.pending = [] → step s = .next s

/-- R262: a word that spells no command marks the model refused, with its state kept; the mark
stays for the rest of the run, whatever commands follow. -/
def Obligations.RefusalMarkIsSticky : Prop :=
  ∀ (s : State) (w : Word) (rest : List Word) (n : Nat),
    s.pending = w :: rest → decode w = .error .undefinedCommandWord →
      Marked.run (n + 1) { state := s, mark := none } =
        { state := s, mark := some (.refused (.undefinedCommandWord w s.index)) }

/-- R263, R267: a CALC that meets Settle records the fault of the lowest such slot, with its state
kept; the mark stays for the rest of the run, and the faulted state is never final. (What else
`Final` asks is the model's own: notes/assumptions/15.md.) -/
def Obligations.FaultMarkIsSticky : Prop :=
  ∀ (s : State) (rest : List Word) (n : Nat) (k : SlotId),
    s.pending = 0x20000000#32 :: rest → (s.block.slotAt k).egMode = .settle →
    (∀ j, j < k → (s.block.slotAt j).egMode ≠ .settle) →
      Marked.run (n + 1) { state := s, mark := none } =
        { state := s, mark := some (.faulted (.settleUnmodelled k)) } ∧
      ¬ (Marked.run (n + 1) { state := s, mark := none }).Final

/-! ### Invariants -/

/-- R183, R28, R33, R60: from every state whose block is in bounds, every step gives such a state:
no slot in Settle, every phase below 2^DP_BITS, every envelope accumulator within R183's bound for
its mode, every LFO accumulator within its width. -/
def Obligations.StepKeepsBounds : Prop :=
  ∀ s t : State, s.block.Inv Config.cfg → step s = .next t → t.block.Inv Config.cfg

/-- The constructed block meets the bounds of R183, R28, R33 and R60. -/
def Obligations.ConstructedBlockIsInBounds : Prop := State.reset.block.Inv Config.cfg

/-- R26: patches 2 to 37 hold their factory contents after construction, and no step changes
that. -/
def Obligations.StepKeepsPresetPatches : Prop :=
  State.reset.block.PresetsIntact Config.cfg ∧
  ∀ s t : State, s.block.PresetsIntact Config.cfg → step s = .next t →
    t.block.PresetsIntact Config.cfg

/-- R153: with `NOISE_TAPS[16] = 1`, a nonzero noise register never steps to 0; 0 is a fixed
point. For every configuration. -/
def Obligations.NoiseRegisterStaysNonzero : Prop :=
  ∀ (c : Cfg) (b : Block),
    (c.noiseTaps.getLsbD 16 = true → b.noise ≠ 0#17 → (noiseStep c b).noise ≠ 0#17) ∧
    (b.noise = 0#17 → (noiseStep c b).noise = 0#17)

/-! ### Register writes of the user instrument (spec/40_register_writes.md R117 to R124) -/

/-- R117, R118, R89: WR_AMPM_MOD writes the shadow and AM, PM, EG, KR and ML of patch 0, and nothing
else: no key event, every slot as it was. WR_AMPM_CAR does the same with patch 1. -/
def Obligations.AmpmWritesSetPatchFields : Prop :=
  ∀ (d : Byte) (s : State),
    exec (.wrAmpmMod d) s = .next { s with
      block := { s.block with
        reg := s.block.reg.set 0x00 d
        patch := s.block.patch.set 0 { s.block.patchAt 0 with
          am := d.getLsbD 7, pm := d.getLsbD 6, eg := d.getLsbD 5, kr := d.getLsbD 4
          ml := d.extractLsb' 0 4 } } } ∧
    exec (.wrAmpmCar d) s = .next { s with
      block := { s.block with
        reg := s.block.reg.set 0x01 d
        patch := s.block.patch.set 1 { s.block.patchAt 1 with
          am := d.getLsbD 7, pm := d.getLsbD 6, eg := d.getLsbD 5, kr := d.getLsbD 4
          ml := d.extractLsb' 0 4 } } }

/-- R119, R90: WR_KLTL writes the shadow and KL and TL of patch 0, and nothing else. -/
def Obligations.WrKltlWritesPatch0 : Prop :=
  ∀ (d : Byte) (s : State),
    exec (.wrKltl d) s = .next { s with
      block := { s.block with
        reg := s.block.reg.set 0x02 d
        patch := s.block.patch.set 0 { s.block.patchAt 0 with
          kl := d.extractLsb' 6 2, tl := d.extractLsb' 0 6 } } }

/-- R120, R91: WR_KLWFFB writes the shadow, KL and WF of patch 1, and WF and FB of patch 0, and
nothing else; bit 5 reaches no patch. -/
def Obligations.WrKlwffbWritesBothPatches : Prop :=
  ∀ (d : Byte) (s : State),
    exec (.wrKlwffb d) s = .next { s with
      block := { s.block with
        reg := s.block.reg.set 0x03 d
        patch := (s.block.patch.set 0 { s.block.patchAt 0 with
            wf := d.getLsbD 3, fb := d.extractLsb' 0 3 }).set 1 { s.block.patchAt 1 with
            kl := d.extractLsb' 6 2, wf := d.getLsbD 4 } } }

/-- R121, R122, R92: WR_ARDR_MOD writes the shadow and AR and DR of patch 0, and nothing else;
WR_ARDR_CAR does the same with patch 1. -/
def Obligations.ArDrWritesSetPatchRates : Prop :=
  ∀ (d : Byte) (s : State),
    exec (.wrArdrMod d) s = .next { s with
      block := { s.block with
        reg := s.block.reg.set 0x04 d
        patch := s.block.patch.set 0 { s.block.patchAt 0 with
          ar := d.extractLsb' 4 4, dr := d.extractLsb' 0 4 } } } ∧
    exec (.wrArdrCar d) s = .next { s with
      block := { s.block with
        reg := s.block.reg.set 0x05 d
        patch := s.block.patch.set 1 { s.block.patchAt 1 with
          ar := d.extractLsb' 4 4, dr := d.extractLsb' 0 4 } } }

/-- R123, R124, R93: WR_SLRR_MOD writes the shadow and SL and RR of patch 0, and nothing else;
WR_SLRR_CAR does the same with patch 1. -/
def Obligations.SlRrWritesSetPatchLevels : Prop :=
  ∀ (d : Byte) (s : State),
    exec (.wrSlrrMod d) s = .next { s with
      block := { s.block with
        reg := s.block.reg.set 0x06 d
        patch := s.block.patch.set 0 { s.block.patchAt 0 with
          sl := d.extractLsb' 4 4, rr := d.extractLsb' 0 4 } } } ∧
    exec (.wrSlrrCar d) s = .next { s with
      block := { s.block with
        reg := s.block.reg.set 0x07 d
        patch := s.block.patch.set 1 { s.block.patchAt 1 with
          sl := d.extractLsb' 4 4, rr := d.extractLsb' 0 4 } } }

/-! ### Rhythm control (R115, R116, R125, R133) -/

/-- R115: a write that turns rhythm mode on. Slots 12 to 17 key on if their line rises in this write
and are forced to Finish otherwise; slots 0 to 11 and everything but the shadow stay. Channels 6 to
8 then bind instruments 16 to 18, and slots 14 and 16 have the Carrier role. -/
def Obligations.RhythmEntryKeysOrFinishes : Prop :=
  ∀ (d : Byte) (s : State), s.block.rhythm = false → d.getLsbD 5 = true →
    ∃ slots : Vector SlotState 18,
      exec (.wrRhythm d) s = .next { s with
        block := { s.block with reg := s.block.reg.set 0x0E d, slot := slots } } ∧
      (∀ k : SlotId, slots[k.val] =
        if k.val < 12 then s.block.slotAt k
        else if s.block.key (chOf k) = false ∧ percKeyBit d k = true then
          { s.block.slotAt k with phase := 0#32, egPhase := 0, egMode := .attack }
        else { s.block.slotAt k with egMode := .finish }) ∧
      (∀ c : Channel, 6 ≤ c.val →
        (({ s.block with reg := s.block.reg.set 0x0E d } : Block).inst c).val = c.val + 10) ∧
      ({ s.block with reg := s.block.reg.set 0x0E d } : Block).role 14 = .carrier ∧
      ({ s.block with reg := s.block.reg.set 0x0E d } : Block).role 16 = .carrier

/-- R116: a write that turns rhythm mode off. A slot of 12 to 17 whose line falls in this write goes
to Finish with no release; every other slot and everything but the shadow stay. Every channel then
binds the instrument in its register's high nibble, and slots 14 and 16 are modulators again. -/
def Obligations.RhythmExitFinishesFallenSlots : Prop :=
  ∀ (d : Byte) (s : State), s.block.rhythm = true → d.getLsbD 5 = false →
    ∃ slots : Vector SlotState 18,
      exec (.wrRhythm d) s = .next { s with
        block := { s.block with reg := s.block.reg.set 0x0E d, slot := slots } } ∧
      (∀ k : SlotId, slots[k.val] =
        if 12 ≤ k.val ∧ s.block.key (chOf k) = false ∧ s.block.line k = true then
          { s.block.slotAt k with egMode := .finish }
        else s.block.slotAt k) ∧
      (∀ c : Channel,
        (({ s.block with reg := s.block.reg.set 0x0E d } : Block).inst c).val =
          (s.block.chanReg 0x30#6 c).toNat / 16) ∧
      ({ s.block with reg := s.block.reg.set 0x0E d } : Block).role 14 = .modulator ∧
      ({ s.block with reg := s.block.reg.set 0x0E d } : Block).role 16 = .modulator

/-- R125, R133: a write of 0x0E that keeps bit 5. No rhythm entry or exit: the binding of every
channel stays, and a slot moves only by its own percussion bit, and only in rhythm mode: a rising
line keys it on, a falling line keys it off if it has the Carrier role, and the modulator of the bass
drum (slot 12) keeps its envelope. -/
def Obligations.RhythmRewriteKeysByPercussionBit : Prop :=
  ∀ (d : Byte) (s : State), d.getLsbD 5 = s.block.rhythm →
    ∃ slots : Vector SlotState 18,
      exec (.wrRhythm d) s = .next { s with
        block := { s.block with reg := s.block.reg.set 0x0E d, slot := slots } } ∧
      (∀ k : SlotId, slots[k.val] =
        if s.block.rhythm = true ∧ s.block.key (chOf k) = false ∧
            s.block.percBit k = false ∧ percKeyBit d k = true then
          { s.block.slotAt k with phase := 0#32, egPhase := 0, egMode := .attack }
        else if s.block.rhythm = true ∧ s.block.key (chOf k) = false ∧
            s.block.percBit k = true ∧ percKeyBit d k = false ∧ k.val ≠ 12 then
          keyOff Config.cfg (s.block.slotAt k)
        else s.block.slotAt k) ∧
      (∀ c : Channel,
        ({ s.block with reg := s.block.reg.set 0x0E d } : Block).inst c = s.block.inst c)

/-- R42, R115, R116 (spec/95_test_vectors.md S2): rhythm mode on, then off, restores the instrument
of every channel. -/
def Obligations.RhythmRoundTripRestoresInstruments : Prop :=
  ∀ (d1 d2 : Byte) (s : State), s.block.rhythm = false → d1.getLsbD 5 = true →
    d2.getLsbD 5 = false →
    ∃ t u : State, exec (.wrRhythm d1) s = .next t ∧ exec (.wrRhythm d2) t = .next u ∧
      (∀ c : Channel, u.block.inst c = s.block.inst c) ∧
      ∀ c : Channel, 6 ≤ c.val → (t.block.inst c).val = c.val + 10

/-! ### Channel, reserved and I/O writes (R126 to R131) -/

/-- R126: WR_FNUM_LO writes the shadow and nothing else, with no key event; the channel's F-number
then has `d` as its low byte, above it bit 0 of the channel's 0x20 register. -/
def Obligations.WrFnumLoSetsPitch : Prop :=
  ∀ (c : Channel) (d : Byte) (s : State),
    ∃ t : State, exec (.wrFnumLo c d) s = .next t ∧
      t = { s with block := { s.block with reg := s.block.reg.set (0x10 + c.val) d } } ∧
      (t.block.fnum c).toNat = ((s.block.chanReg 0x20#6 c).toNat % 2) * 256 + d.toNat ∧
      (∀ c' : Channel, c' ≠ c → t.block.fnum c' = s.block.fnum c') ∧
      ∀ c' : Channel, t.block.blockNo c' = s.block.blockNo c'

/-- R127, R45, R46, R49: WR_BLK_KEY writes the shadow. The slots of channel `c` key on if their
line rises; a Carrier-role slot of it keys off if its line falls; every other slot and everything
else stay. The channel's F-number bit 8, block, key and sustain flag are then those of `d`. -/
def Obligations.WrBlkKeyKeysChannel : Prop :=
  ∀ (c : Channel) (d : Byte) (s : State),
    ∃ t : State, exec (.wrBlkKey c d) s = .next t ∧
      t = { s with block := { s.block with
        reg := s.block.reg.set (0x20 + c.val) d, slot := t.block.slot } } ∧
      (∀ k : SlotId, t.block.slotAt k =
        if chOf k = c ∧ s.block.line k = false ∧ d.getLsbD 4 = true then
          { s.block.slotAt k with phase := 0#32, egPhase := 0, egMode := .attack }
        else if chOf k = c ∧ s.block.line k = true ∧ d.getLsbD 4 = false ∧
            (s.block.rhythm && s.block.percBit k) = false ∧ s.block.role k = .carrier then
          keyOff Config.cfg (s.block.slotAt k)
        else s.block.slotAt k) ∧
      (t.block.fnum c).toNat = (d.toNat % 2) * 256 + (s.block.chanReg 0x10#6 c).toNat ∧
      (t.block.blockNo c).toNat = d.toNat / 2 % 8 ∧
      t.block.key c = d.getLsbD 4 ∧
      ∀ k : SlotId, chOf k = c → t.block.role k = .carrier → t.block.sustain k = d.getLsbD 5

/-- R114: KeyOff, seen at a melodic channel: when rhythm mode is off and a held key is let go, the
carrier moves to Release from Attack (through the attack curve), Decay, SustainHold and Sustain,
and stays as it is in Release and Finish; the modulator stays as it is. -/
def Obligations.KeyOffReleasesCarrier : Prop :=
  ∀ (c : Channel) (d : Byte) (s : State), s.block.rhythm = false → s.block.key c = true →
    d.getLsbD 4 = false → (s.block.slotAt (carSlot c)).egMode ≠ .settle →
    ∃ t : State, exec (.wrBlkKey c d) s = .next t ∧
      t.block.slotAt (modSlot c) = s.block.slotAt (modSlot c) ∧
      t.block.slotAt (carSlot c) =
        { s.block.slotAt (carSlot c) with
          egMode :=
            if (s.block.slotAt (carSlot c)).egMode = .finish then .finish else .release
          egPhase :=
            if (s.block.slotAt (carSlot c)).egMode = .attack then
              Config.cfg.arAdjust ((s.block.slotAt (carSlot c)).egPhase /
                2 ^ (Config.cfg.egDpBits - Config.cfg.egBits)) *
                2 ^ (Config.cfg.egDpBits - Config.cfg.egBits)
            else (s.block.slotAt (carSlot c)).egPhase }

/-- R128, R98: WR_INST_VOL writes the shadow and, in rhythm mode, the high nibble of 0x37 and 0x38
into the hi-hat and tom volume latches; nothing else, and no key event. The channel then binds the
high nibble unless rhythm mode is on and c ≥ 6, and its carrier slot's level is the scaled low
nibble in every mode. -/
def Obligations.WrInstVolBindsAndSetsVolume : Prop :=
  ∀ (c : Channel) (d : Byte) (s : State),
    ∃ t : State, exec (.wrInstVol c d) s = .next t ∧
      t = { s with block := { s.block with
        reg := s.block.reg.set (0x30 + c.val) d
        pvolHh := if s.block.rhythm = true ∧ c.val = 7 then d.extractLsb' 4 4 else s.block.pvolHh
        pvolTom :=
          if s.block.rhythm = true ∧ c.val = 8 then d.extractLsb' 4 4 else s.block.pvolTom } } ∧
      ((s.block.rhythm = false ∨ c.val ≤ 5) → (t.block.inst c).val = d.toNat / 16) ∧
      (s.block.rhythm = true → 6 ≤ c.val → t.block.inst c = s.block.inst c) ∧
      t.block.level Config.cfg (carSlot c) = Config.cfg.volTl (d.extractLsb' 0 4)

/-- R129, R99: WR_RESERVED writes the shadow and nothing else. -/
def Obligations.WrReservedWritesShadowOnly : Prop :=
  ∀ (a : RegAddr) (d : Byte) (s : State), (Instr.wrReserved a d).wf = true →
    exec (.wrReserved a d) s =
      .next { s with block := { s.block with reg := s.block.reg.set a.toNat d } } ∧
    ∀ k : SlotId, ({ s.block with reg := s.block.reg.set a.toNat d } : Block).patchOf k =
      s.block.patchOf k

/-- R130: IO_ADDR latches all 8 bits and changes nothing else. -/
def Obligations.IoAddrLatches : Prop :=
  ∀ (d : Byte) (s : State),
    exec (.ioAddr d) s = .next { s with block := { s.block with ioAddr := d } }

/-- R131, R85: IO_DATA is the register write at the latched address mod 64, whatever class that is;
it completes and keeps the latch. -/
def Obligations.IoDataIsWriteRegAtLatch : Prop :=
  ∀ (d : Byte) (s : State),
    exec (.ioData d) s = exec (writeRow (s.block.ioAddr.toNat % 64) d) s ∧
    ∃ t : State, exec (.ioData d) s = .next t ∧ t.block.ioAddr = s.block.ioAddr ∧
      t.block.reg = s.block.reg.set (s.block.ioAddr.toNat % 64) d

/-- R71. Two equal writes in a row, of a register, of the latch or of the data port, leave the state
the first one left. A write of the byte that the shadow holds changes no state, but for the volume latch
of 0x37 and 0x38 in rhythm mode, and but for patches 0 and 1 at 0x00 to 0x07 when they do not hold the
shadow's fields. No well-formed command but RESET brings that about: once such a register has been
written, a write of the last byte written to it (R21) changes no state, whatever commands but RESET
stand between. Right after RESET no byte has been written, the shadow is 0x00 and the patches hold
`FACTORY`; the first write then sets their fields (R117 to R124, R134). That R71 does not speak of that
first write is the model's reading (notes/assumptions/9.md). -/
def Obligations.EqualWriteTwiceIsOnce : Prop :=
  ∀ (a : Fin 64) (d : Byte) (s : State),
    (∀ i : Instr, i = writeRow a.val d ∨ i = .ioAddr d ∨ i = .ioData d →
      ∃ t : State, exec i s = .next t ∧ exec i t = .next t) ∧
    (s.block.reg[a.val] = d →
      (8 ≤ a.val →
        exec (writeRow a.val d) s = .next { s with block := { s.block with
          pvolHh :=
            if s.block.rhythm = true ∧ a.val = 0x37 then d.extractLsb' 4 4 else s.block.pvolHh
          pvolTom :=
            if s.block.rhythm = true ∧ a.val = 0x38 then d.extractLsb' 4 4
            else s.block.pvolTom } }) ∧
      (a.val < 8 →
        (s.block.userPatchHolds a.val d → exec (writeRow a.val d) s = .next s) ∧
        ∃ t : State, exec (writeRow a.val d) s = .next t ∧
          t = { s with block := { s.block with patch := t.block.patch } } ∧
          t.block.userPatchHolds a.val d ∧
          ∀ p : PatchId, 2 ≤ p.val → t.block.patchAt p = s.block.patchAt p)) ∧
    (a.val < 8 → s.block.userPatchHolds a.val s.block.reg[a.val] →
      ∀ (i : Instr) (t : State), i.wf = true → i ≠ .reset → exec i s = .next t →
        t.block.userPatchHolds a.val t.block.reg[a.val]) ∧
    (a.val < 8 →
      ∀ (l : List Instr) (t u : State), exec (writeRow a.val d) s = .next t → Leads l t u →
        (∀ i ∈ l, i.wf = true ∧ i ≠ .reset) →
        exec (writeRow a.val u.block.reg[a.val]) u = .next u)

/-- R299: the order of an F-number write and a key write of one channel between two samples does
not matter: both orders leave the same state. -/
def Obligations.PitchAndKeyWritesCommute : Prop :=
  ∀ (c : Channel) (d e : Byte) (s : State),
    ∃ t u v : State,
      exec (.wrFnumLo c d) s = .next t ∧ exec (.wrBlkKey c e) t = .next v ∧
      exec (.wrBlkKey c e) s = .next u ∧ exec (.wrFnumLo c d) u = .next v

/-! ### Who writes what (frames over all commands) -/

/-- R151 to R155, R240: the LFO accumulators, the noise register and the noise oscillators move by
CALC and RESET alone, and only CALC returns a sample. -/
def Obligations.OnlyCalcAndResetMoveGenerators : Prop :=
  ∀ (i : Instr) (s t : State), i ≠ .calcSample → exec i s = .next t →
    t.samples = s.samples ∧
    (i ≠ .reset → t.block.pmPhase = s.block.pmPhase ∧ t.block.amPhase = s.block.amPhase ∧
      t.block.noise = s.block.noise ∧ t.block.naPhase = s.block.naPhase ∧
      t.block.nbPhase = s.block.nbPhase)

/-- R32, R36, R37, R241, R291: the mask changes by SET_MASK alone, RESET included among those that
keep it; the address latch by IO_ADDR and RESET alone; the volume latches, out of RESET, only in
rhythm mode and only by a write to 0x37 or 0x38, through WRITE_REG or the data port. -/
def Obligations.MaskAndLatchWriters : Prop :=
  ∀ (i : Instr) (s t : State), exec i s = .next t →
    ((∀ m, i ≠ .setMask m) → t.block.mask = s.block.mask) ∧
    ((∀ d, i ≠ .ioAddr d) → i ≠ .reset → t.block.ioAddr = s.block.ioAddr) ∧
    (i ≠ .reset →
      (s.block.rhythm = false ∨
        ((∀ d, i ≠ .wrInstVol 7 d) ∧
          ((∃ d, i = .ioData d) → s.block.ioAddr.toNat % 64 ≠ 0x37)) →
        t.block.pvolHh = s.block.pvolHh) ∧
      (s.block.rhythm = false ∨
        ((∀ d, i ≠ .wrInstVol 8 d) ∧
          ((∃ d, i = .ioData d) → s.block.ioAddr.toNat % 64 ≠ 0x38)) →
        t.block.pvolTom = s.block.pvolTom))

/-- R261, R78, R179: every command completes in every state, but for a CALC that meets Settle, a
mode no reachable state holds. -/
def Obligations.EveryCommandCompletes : Prop :=
  ∀ (i : Instr) (s : State), (i = .calcSample → s.block.NoSettle) → ∃ t, exec i s = .next t

/-- R115, R56: a change of rhythm mode comes only from a write of 0x0E, direct or through the data
port, or from RESET; out of RESET it leaves the instruments of channels 0 to 5 and the slots 0 to 11
as they were. -/
def Obligations.RhythmModeChangesReachPercussionOnly : Prop :=
  ∀ (i : Instr) (s t : State), i.wf = true → exec i s = .next t →
    t.block.rhythm ≠ s.block.rhythm →
      ((∃ d, i = .wrRhythm d) ∨ (∃ d, i = .ioData d ∧ s.block.ioAddr.toNat % 64 = 0x0E) ∨
        i = .reset) ∧
      (i ≠ .reset →
        (∀ c : Channel, c.val < 6 → t.block.inst c = s.block.inst c) ∧
        ∀ k : SlotId, k.val < 12 → t.block.slotAt k = s.block.slotAt k)

/-- R171: the envelope mode of a slot changes only as the table of R171 lists, with the cause it
lists: a key line's edge; in a CALC the accumulator reaching EG_FULL (or an instant attack), the
threshold of SL, EG = 0, or the output saturating; a rhythm transition. RESET is beside the table
(R58). -/
def Obligations.EnvelopeModeTransitions : Prop :=
  ∀ (i : Instr) (s t : State) (k : SlotId), exec i s = .next t →
    let old := (s.block.slotAt k).egMode
    let new := (t.block.slotAt k).egMode
    let x := (s.block.slotAt k).egPhase
    let p := s.block.boundPatch k
    let rks := s.block.rateIndex Config.cfg k
    new ≠ old →
      (new = .attack ∧ s.block.line k = false ∧ t.block.line k = true) ∨
      (new = .release ∧ (old = .attack ∨ old = .decay ∨ old = .sustainHold ∨ old = .sustain) ∧
        s.block.line k = true ∧ t.block.line k = false ∧ t.block.role k = .carrier) ∨
      (i = .calcSample ∧
        ((old = .attack ∧ new = .decay ∧
            (2 ^ Config.cfg.egDpBits ≤ x + Config.cfg.arRate p.ar rks ∨
              Config.cfg.attackInstant p.ar = true)) ∨
          (old = .decay ∧ (new = if p.eg then .sustainHold else .sustain) ∧
            Config.cfg.slThresh p.sl ≤ x + Config.cfg.drRate p.dr rks) ∨
          (old = .sustainHold ∧ new = .sustain ∧ p.eg = false) ∨
          ((old = .sustain ∨ old = .release) ∧ new = .finish ∧
            2 ^ Config.cfg.egBits ≤ x / 2 ^ (Config.cfg.egDpBits - Config.cfg.egBits)))) ∨
      (new = .finish ∧ 12 ≤ k.val ∧
        ((s.block.rhythm = false ∧ t.block.rhythm = true ∧
            ¬ (s.block.line k = false ∧ t.block.line k = true)) ∨
          (s.block.rhythm = true ∧ t.block.rhythm = false ∧
            s.block.line k = true ∧ t.block.line k = false))) ∨
      (i = .reset ∧ new = .finish)

/-! ### CALC: generators, phase and envelope (spec/41, spec/42). What a slot is bound to (its patch,
pitch, rate index, table increment and role, R42 to R45, R51, R52, R54) is spelled from the stored
fields in Sys2Proof/Safety.lean, apart from the views that the machine computes with. -/

/-- R151 to R155, R231: CALC completes whenever no slot holds Settle. It advances the LFO
accumulators, the noise register and the noise oscillators, keeps every register, patch, latch and
the mask, and returns one sample. -/
def Obligations.CalcCompletesAndStepsGenerators : Prop :=
  ∀ s : State, s.block.NoSettle →
    ∃ (t : State) (v : Sample), exec .calcSample s = .next t ∧
      t = { s with
        samples := v :: s.samples
        block := { s.block with
          slot := t.block.slot
          pmPhase := (s.block.pmPhase + Config.cfg.pmDphase) % 2 ^ Config.cfg.pmDpBits
          amPhase := (s.block.amPhase + Config.cfg.amDphase) % 2 ^ Config.cfg.amDpBits
          noise :=
            if s.block.noise.toNat % 2 = 1 then
              BitVec.ofNat 17 (s.block.noise.toNat / 2) ^^^ Config.cfg.noiseTaps
            else BitVec.ofNat 17 (s.block.noise.toNat / 2)
          naPhase := Config.cfg.naStep s.block.naPhase
          nbPhase := Config.cfg.nbStep s.block.nbPhase } }

/-- R179, R267: a CALC that meets Settle faults with the lowest slot that holds it. -/
def Obligations.CalcFaultsOnLowestSettle : Prop :=
  ∀ (s : State) (k : SlotId), (s.block.slotAt k).egMode = .settle →
    (∀ j, j < k → (s.block.slotAt j).egMode ≠ .settle) →
      exec .calcSample s = .fault (.settleUnmodelled k)

/-- R156, R157, R159, R51: in a CALC the phase of every slot, Finish or not, masked or not, advances by
its increment mod 2^DP_BITS; the increment is `DPHASE` of the channel's F-number and block and the
bound patch's ML, perturbed by this CALC's vibrato value if the bound patch has PM = 1. -/
def Obligations.CalcAdvancesEveryPhase : Prop :=
  ∀ s : State, s.block.NoSettle →
    ∃ t : State, exec .calcSample s = .next t ∧
      ∀ k : SlotId, (t.block.slotAt k).phase.toNat =
        ((s.block.slotAt k).phase.toNat +
          (if (s.block.boundPatch k).pm then
            Config.cfg.pmApply (s.block.tableIncrement Config.cfg k)
              (Config.cfg.pmTable
                ((s.block.pmPhase + Config.cfg.pmDphase) % 2 ^ Config.cfg.pmDpBits /
                  2 ^ (Config.cfg.pmDpBits - Config.cfg.pmPgBits)))
          else s.block.tableIncrement Config.cfg k)) % 2 ^ Config.cfg.dpBits

/-- R173, R52: the Attack step, in a CALC, at the rate of AR and the key-scale index: the accumulator, the mode and the envelope output `e`. -/
def Obligations.CalcAttackStep : Prop :=
  ∀ (s : State) (k : SlotId), s.block.NoSettle → (s.block.slotAt k).egMode = .attack →
    ∃ t : State, exec .calcSample s = .next t ∧
      let x := s.block.slotAt k
      let p := s.block.boundPatch k
      let rate := Config.cfg.arRate p.ar (s.block.rateIndex Config.cfg k)
      if 2 ^ Config.cfg.egDpBits ≤ x.egPhase + rate ∨ Config.cfg.attackInstant p.ar = true then
        (t.block.slotAt k).egPhase = 0 ∧ (t.block.slotAt k).egMode = .decay ∧
          (s.block.envelope Config.cfg k).e = 0
      else
        (t.block.slotAt k).egPhase = x.egPhase + rate ∧ (t.block.slotAt k).egMode = .attack ∧
          (s.block.envelope Config.cfg k).e =
            Config.cfg.arAdjust (x.egPhase / 2 ^ (Config.cfg.egDpBits - Config.cfg.egBits))

/-- R174, R52: the Decay step, in a CALC, at the rate of DR and the key-scale index. -/
def Obligations.CalcDecayStep : Prop :=
  ∀ (s : State) (k : SlotId), s.block.NoSettle → (s.block.slotAt k).egMode = .decay →
    ∃ t : State, exec .calcSample s = .next t ∧
      let x := s.block.slotAt k
      let p := s.block.boundPatch k
      let rate := Config.cfg.drRate p.dr (s.block.rateIndex Config.cfg k)
      (s.block.envelope Config.cfg k).e =
        x.egPhase / 2 ^ (Config.cfg.egDpBits - Config.cfg.egBits) ∧
      if Config.cfg.slThresh p.sl ≤ x.egPhase + rate then
        (t.block.slotAt k).egPhase = Config.cfg.slThresh p.sl ∧
          (t.block.slotAt k).egMode = if p.eg then .sustainHold else .sustain
      else
        (t.block.slotAt k).egPhase = x.egPhase + rate ∧ (t.block.slotAt k).egMode = .decay

/-- R175: the SustainHold step, in a CALC: the accumulator holds, and EG = 0 ends the hold. -/
def Obligations.CalcSustainHoldStep : Prop :=
  ∀ (s : State) (k : SlotId), s.block.NoSettle → (s.block.slotAt k).egMode = .sustainHold →
    ∃ t : State, exec .calcSample s = .next t ∧
      (s.block.envelope Config.cfg k).e =
        (s.block.slotAt k).egPhase / 2 ^ (Config.cfg.egDpBits - Config.cfg.egBits) ∧
      (t.block.slotAt k).egPhase = (s.block.slotAt k).egPhase ∧
      (t.block.slotAt k).egMode =
        if (s.block.boundPatch k).eg = false then .sustain else .sustainHold

/-- R176, R177, R172, R180: the Sustain and Release steps, in a CALC. Sustain runs at the patch's RR;
Release at RR, or at rate 5 on a Carrier-role slot with the sustain bit set. The Finish test reads
the level before the add. -/
def Obligations.CalcSustainAndReleaseSteps : Prop :=
  ∀ (s : State) (k : SlotId), s.block.NoSettle →
    ((s.block.slotAt k).egMode = .sustain ∨ (s.block.slotAt k).egMode = .release) →
    ∃ t : State, exec .calcSample s = .next t ∧
      let x := s.block.slotAt k
      let level := x.egPhase / 2 ^ (Config.cfg.egDpBits - Config.cfg.egBits)
      let index :=
        if x.egMode = .release ∧ s.block.carrierRole k ∧
            s.block.byte (0x20 + k.val / 2) / 32 % 2 = 1 then 5#4
        else (s.block.boundPatch k).rr
      (t.block.slotAt k).egPhase =
        x.egPhase + Config.cfg.drRate index (s.block.rateIndex Config.cfg k) ∧
      (t.block.slotAt k).egMode = (if 2 ^ Config.cfg.egBits ≤ level then .finish else x.egMode) ∧
      (s.block.envelope Config.cfg k).e =
        if 2 ^ Config.cfg.egBits ≤ level then 2 ^ Config.cfg.egBits - 1 else level

/-- R178: a Finish slot's envelope does not move in a CALC, and its output is the maximum
attenuation. -/
def Obligations.CalcFinishStep : Prop :=
  ∀ (s : State) (k : SlotId), s.block.NoSettle → (s.block.slotAt k).egMode = .finish →
    ∃ t : State, exec .calcSample s = .next t ∧
      (t.block.slotAt k).egPhase = (s.block.slotAt k).egPhase ∧
      (t.block.slotAt k).egMode = .finish ∧
      (s.block.envelope Config.cfg k).e = 2 ^ Config.cfg.egBits - 1

/-- R185, R186, R50, R53: the attenuation code of a slot in the CALC that starts in `b`, for every
configuration. The level is TL of the bound patch in the Modulator role, the hi-hat or tom latch on
slots 14 and 16 in rhythm mode, the channel volume otherwise; `TLL` of F-number bits 8:5, block, level
and KL is added to the envelope output; the sum goes through `EG2DB`, gains this CALC's tremolo value
if the bound patch has AM = 1, and is cut at the mute code. -/
def Obligations.AttenuationOfSlot : Prop :=
  ∀ (c : Cfg) (b : Block) (k : SlotId),
    let p := b.boundPatch k
    let level : BitVec 6 :=
      if ¬ b.carrierRole k then p.tl
      else if b.rhythmOn ∧ k.val = 14 then c.volTl b.pvolHh
      else if b.rhythmOn ∧ k.val = 16 then c.volTl b.pvolTom
      else c.volTl (BitVec.ofNat 4 (b.byte (0x30 + k.val / 2) % 16))
    let tll := c.tll (BitVec.ofNat 4 (b.pitchNumber k / 32)) (BitVec.ofNat 3 (b.pitchBlock k)) level
      p.kl
    b.level c k = level ∧ b.tll c k = tll ∧
      (b.temps c).egout k =
        min (c.eg2db ((b.envelope c k).e + tll) +
            (if p.am then
              c.amTable ((b.amPhase + c.amDphase) % 2 ^ c.amDpBits / 2 ^ (c.amDpBits - c.amPgBits))
            else 0))
          (c.dbMute - 1)

/-! ### CALC: output stages and mixdown (spec/43, spec/44) -/

/-- R206, R208, R212, R213: the FM pair of a channel that the mixdown runs: channels 0 to 5 always,
6 to 8 with rhythm mode off, and 6 as the bass drum with it on. Modulator first, with its feedback
offset; the carrier is offset by the modulator's new average. -/
def Obligations.CalcRunsFmPair : Prop :=
  ∀ (s : State) (ch : Channel), s.block.NoSettle →
    (s.block.rhythm = false ∨ ch.val ≤ 6) →
    s.block.endMode Config.cfg (carSlot ch) ≠ .finish →
    ∃ t : State, exec .calcSample s = .next t ∧
      let T := s.block.temps Config.cfg
      let m := modSlot ch
      let k := carSlot ch
      let fb := (s.block.boundPatch m).fb
      let off := if fb = 0#3 then 0 else Config.cfg.fbOffset (s.block.slotAt m).feedback fb
      let raw := fun (j : SlotId) (o : Int) =>
        if Config.cfg.dbMute - 1 ≤ T.egout j then 0
        else Config.cfg.db2lin
          (Config.cfg.wave (s.block.boundPatch j).wf (((T.pgout j + o) % 2 ^ Config.cfg.pgBits).toNat) +
            T.egout j)
      (t.block.slotAt m).out1 = (s.block.slotAt m).out0 ∧
      (t.block.slotAt m).out0 = raw m off ∧
      (t.block.slotAt m).feedback = (raw m off + (s.block.slotAt m).out0) / 2 ∧
      (t.block.slotAt k).out1 = (s.block.slotAt k).out0 ∧
      (t.block.slotAt k).out0 = raw k (Config.cfg.modOffset (t.block.slotAt m).feedback) ∧
      (t.block.slotAt k).feedback = (s.block.slotAt k).feedback

/-- R220, R221, R204: a percussion voice that the mixdown runs, in rhythm mode: its history shifts,
and the new raw output is 0 if muted, else `PERC_RAW` of the voice's inputs, with this CALC's noise
bit and oscillators and every slot's index. -/
def Obligations.CalcRunsPercussionVoice : Prop :=
  ∀ (s : State) (v : PercVoice), s.block.NoSettle → s.block.rhythm = true →
    s.block.endMode Config.cfg (percSlot v) ≠ .finish →
    ∃ t : State, exec .calcSample s = .next t ∧
      let T := s.block.temps Config.cfg
      let k := percSlot v
      (t.block.slotAt k).out1 = (s.block.slotAt k).out0 ∧
      (t.block.slotAt k).out0 =
        (if Config.cfg.dbMute - 1 ≤ T.egout k then 0
        else Config.cfg.percRaw v
          { egout := T.egout k
            pgout := T.pgout k
            wf := (s.block.boundPatch k).wf
            nbit := t.block.noise.getLsbD 0
            na := t.block.naPhase
            nb := t.block.nbPhase
            pgAll := T.pgout }) ∧
      (t.block.slotAt k).feedback = (s.block.slotAt k).feedback

/-- R160, R232: the waveform index that every output stage of a CALC reads is the top PG_BITS of the
phase this CALC left in the slot. -/
def Obligations.WaveformIndexIsNewPhase : Prop :=
  ∀ s : State, s.block.NoSettle →
    ∃ t : State, exec .calcSample s = .next t ∧
      ∀ k : SlotId,
        (s.block.temps Config.cfg).pgout k =
          (t.block.slotAt k).phase.toNat / 2 ^ (Config.cfg.dpBits - Config.cfg.pgBits) ∧
        (s.block.temps Config.cfg).pgout k < 2 ^ Config.cfg.pgBits

/-- R211, R234: a voice whose skip-test slot is in Finish after the envelope step runs no stage: the
history of every slot it owns stays. -/
def Obligations.FinishSkipFreezesHistory : Prop :=
  ∀ (s : State) (v : Voice) (k : SlotId), s.block.NoSettle → v ∈ voices s.block.rhythm →
    s.block.endMode Config.cfg v.skipSlot = .finish → v.owns k →
    ∃ t : State, exec .calcSample s = .next t ∧
      (t.block.slotAt k).out0 = (s.block.slotAt k).out0 ∧
      (t.block.slotAt k).out1 = (s.block.slotAt k).out1 ∧
      (t.block.slotAt k).feedback = (s.block.slotAt k).feedback

/-- R236 to R239, R240: the sample is the clipped sum of the melodic voices plus twice the
percussion voices, each voice's value read off its slot after the CALC, a voice in Finish or masked
adding 0. -/
def Obligations.SampleIsClippedSumOfVoices : Prop :=
  ∀ s : State, s.block.NoSettle →
    ∃ (t : State) (v : Sample), exec .calcSample s = .next t ∧ t.samples = v :: s.samples ∧
      v.toInt = max (-32768) (min 32767
        (((melodicVoices s.block.rhythm).map t.block.voiceValue).sum +
          2 * ((percussionVoices s.block.rhythm).map t.block.voiceValue).sum))

/-- R232: the order among channels and among voices does not change the result: any permutation of
a CALC's voices gives the same slots and the same two sums. For every configuration. -/
def Obligations.VoiceOrderDoesNotMatter : Prop :=
  ∀ (c : Cfg) (b : Block) (t : Temps) (m : Mix) (l : List Voice), l.Perm (voices b.rhythm) →
    l.foldl (mixVoice c b t) m = (voices b.rhythm).foldl (mixVoice c b t) m

/-- R242: with mask 0x3FFF every CALC returns 0, in every state in which it completes. -/
def Obligations.FullMuteReturnsZero : Prop :=
  ∀ s : State, s.block.NoSettle → s.block.mask = 0x3FFF#14 →
    ∃ t : State, exec .calcSample s = .next t ∧ t.samples = 0#16 :: s.samples

/-- R235: the mask never changes the state a later command sees. Two machines whose blocks differ
at most in the mask both complete a command, and their blocks still differ at most in the mask, or
both fault with the same slot. -/
def Obligations.MaskDoesNotReachState : Prop :=
  ∀ (i : Instr) (s1 s2 : State), s1.block.SameButMask s2.block →
    match exec i s1, exec i s2 with
    | .next t1, .next t2 => t1.block.SameButMask t2.block
    | .fault f1, .fault f2 => f1 = f2
    | _, _ => False

/-- R243, R234 (spec/95_test_vectors.md V90): a CALC with every slot in Finish returns 0. -/
def Obligations.AllFinishReturnsZero : Prop :=
  ∀ s : State, (∀ k : SlotId, (s.block.slotAt k).egMode = .finish) →
    ∃ t : State, exec .calcSample s = .next t ∧ t.samples = 0#16 :: s.samples ∧
      ∀ k : SlotId, (t.block.slotAt k).egMode = .finish

/-- R241: SET_MASK writes M mod 2^14 into the mask and changes nothing else. -/
def Obligations.SetMaskWritesMask : Prop :=
  ∀ (m : BitVec 16) (s : State),
    exec (.setMask m) s = .next { s with block := { s.block with
      mask := BitVec.ofNat 14 (m.toNat % 2 ^ 14) } }

/-! ### RESET and construction (spec/70_reset_and_hazards.md) -/

/-- R291, R58: RESET completes in every state and writes every stored field but the mask with its
reset value; it runs no key processing. -/
def Obligations.ResetWritesEveryField : Prop :=
  ∀ s : State,
    ∃ t : State, exec .reset s = .next t ∧
      (∀ a : RegAddr, t.block.regAt a = 0x00#8) ∧
      (∀ p : PatchId, t.block.patchAt p = Config.cfg.factory p) ∧
      (∀ k : SlotId, t.block.slotAt k =
        { phase := 0#32, egMode := .finish, egPhase := 2 ^ Config.cfg.egDpBits
          out0 := 0, out1 := 0, feedback := 0 }) ∧
      t.block.pvolHh = 0#4 ∧ t.block.pvolTom = 0#4 ∧
      t.block.pmPhase = 0 ∧ t.block.amPhase = 0 ∧
      t.block.noise = Config.cfg.noiseSeed ∧
      t.block.naPhase = Config.cfg.naInit ∧ t.block.nbPhase = Config.cfg.nbInit ∧
      t.block.ioAddr = 0x00#8 ∧ t.block.mask = s.block.mask ∧
      t.pending = s.pending ∧ t.index = s.index ∧ t.samples = s.samples

/-- R292, R293: a newly constructed instance is in the state RESET produces, with mask 0 and no
mark; RESET gives the same block from every state, except that the mask is that state's. -/
def Obligations.ConstructionIsResetWithMaskZero : Prop :=
  State.reset.block.mask = 0#14 ∧ Marked.constructed.mark = none ∧
  ∀ s : State, ∃ t : State, exec .reset s = .next t ∧
    t.block = { State.reset.block with mask := s.block.mask }

/-- R59: the views of the reset state. Rhythm mode is off, every channel binds instrument 0, every
F-number, block, key status, sustain flag and key line is 0, every carrier level is `VOL_TL(0)`. -/
def Obligations.ViewsAfterReset : Prop :=
  ∀ s t : State, exec .reset s = .next t →
    t.block.rhythm = false ∧
    (∀ c : Channel, (t.block.inst c).val = 0 ∧ t.block.fnum c = 0#9 ∧ t.block.blockNo c = 0#3 ∧
      t.block.key c = false) ∧
    ∀ k : SlotId, t.block.sustain k = false ∧ t.block.line k = false ∧
      (t.block.role k = .carrier → t.block.level Config.cfg k = Config.cfg.volTl 0#4)

/-- R291 (its example): after RESET in any state, a CALC returns 0. -/
def Obligations.ResetThenCalcIsSilent : Prop :=
  ∀ s : State, ∃ t u : State, exec .reset s = .next t ∧ exec .calcSample t = .next u ∧
    u.samples = 0#16 :: s.samples
end

