-- ==== Sys2Proof/Laws/State.lean ====
section
/-! SUPPORT. What each update of the state leaves in each field, once and by `rfl`, so that no later
proof unfolds a record update. -/

namespace Sys2Proof.Machine

/-- Two blocks with the same fields are the same block. -/
theorem Block.ext_fields {b b' : Block} (reg : b.reg = b'.reg) (patch : b.patch = b'.patch)
    (slot : b.slot = b'.slot) (hh : b.pvolHh = b'.pvolHh) (tom : b.pvolTom = b'.pvolTom)
    (pm : b.pmPhase = b'.pmPhase) (am : b.amPhase = b'.amPhase) (noise : b.noise = b'.noise)
    (na : b.naPhase = b'.naPhase) (nb : b.nbPhase = b'.nbPhase) (io : b.ioAddr = b'.ioAddr)
    (mask : b.mask = b'.mask) : b = b' := by
  cases b
  cases b'
  simp_all

/-- Two machine states with the same fields are the same state. -/
theorem State.ext_fields {s t : State} (block : s.block = t.block)
    (pending : s.pending = t.pending) (index : s.index = t.index)
    (samples : s.samples = t.samples) : s = t := by
  cases s
  cases t
  simp_all

/-! ### Register write (R12) -/

@[simp] theorem Block.setReg_reg (b : Block) (a : RegAddr) (v : Byte) :
    (b.setReg a v).reg = b.reg.set a.toNat v := rfl
@[simp] theorem Block.setReg_patch (b : Block) (a : RegAddr) (v : Byte) :
    (b.setReg a v).patch = b.patch := rfl
@[simp] theorem Block.setReg_slot (b : Block) (a : RegAddr) (v : Byte) :
    (b.setReg a v).slot = b.slot := rfl
@[simp] theorem Block.setReg_pvolHh (b : Block) (a : RegAddr) (v : Byte) :
    (b.setReg a v).pvolHh = b.pvolHh := rfl
@[simp] theorem Block.setReg_pvolTom (b : Block) (a : RegAddr) (v : Byte) :
    (b.setReg a v).pvolTom = b.pvolTom := rfl
@[simp] theorem Block.setReg_pmPhase (b : Block) (a : RegAddr) (v : Byte) :
    (b.setReg a v).pmPhase = b.pmPhase := rfl
@[simp] theorem Block.setReg_amPhase (b : Block) (a : RegAddr) (v : Byte) :
    (b.setReg a v).amPhase = b.amPhase := rfl
@[simp] theorem Block.setReg_noise (b : Block) (a : RegAddr) (v : Byte) :
    (b.setReg a v).noise = b.noise := rfl
@[simp] theorem Block.setReg_naPhase (b : Block) (a : RegAddr) (v : Byte) :
    (b.setReg a v).naPhase = b.naPhase := rfl
@[simp] theorem Block.setReg_nbPhase (b : Block) (a : RegAddr) (v : Byte) :
    (b.setReg a v).nbPhase = b.nbPhase := rfl
@[simp] theorem Block.setReg_ioAddr (b : Block) (a : RegAddr) (v : Byte) :
    (b.setReg a v).ioAddr = b.ioAddr := rfl
@[simp] theorem Block.setReg_mask (b : Block) (a : RegAddr) (v : Byte) :
    (b.setReg a v).mask = b.mask := rfl

/-! ### Patch rewrite (R25) -/

@[simp] theorem Block.modifyPatch_reg (b : Block) (p : PatchId) (f : Patch → Patch) :
    (b.modifyPatch p f).reg = b.reg := rfl
@[simp] theorem Block.modifyPatch_patch (b : Block) (p : PatchId) (f : Patch → Patch) :
    (b.modifyPatch p f).patch = b.patch.set p.val (f (b.patchAt p)) := rfl
@[simp] theorem Block.modifyPatch_slot (b : Block) (p : PatchId) (f : Patch → Patch) :
    (b.modifyPatch p f).slot = b.slot := rfl
@[simp] theorem Block.modifyPatch_pvolHh (b : Block) (p : PatchId) (f : Patch → Patch) :
    (b.modifyPatch p f).pvolHh = b.pvolHh := rfl
@[simp] theorem Block.modifyPatch_pvolTom (b : Block) (p : PatchId) (f : Patch → Patch) :
    (b.modifyPatch p f).pvolTom = b.pvolTom := rfl
@[simp] theorem Block.modifyPatch_pmPhase (b : Block) (p : PatchId) (f : Patch → Patch) :
    (b.modifyPatch p f).pmPhase = b.pmPhase := rfl
@[simp] theorem Block.modifyPatch_amPhase (b : Block) (p : PatchId) (f : Patch → Patch) :
    (b.modifyPatch p f).amPhase = b.amPhase := rfl
@[simp] theorem Block.modifyPatch_noise (b : Block) (p : PatchId) (f : Patch → Patch) :
    (b.modifyPatch p f).noise = b.noise := rfl
@[simp] theorem Block.modifyPatch_naPhase (b : Block) (p : PatchId) (f : Patch → Patch) :
    (b.modifyPatch p f).naPhase = b.naPhase := rfl
@[simp] theorem Block.modifyPatch_nbPhase (b : Block) (p : PatchId) (f : Patch → Patch) :
    (b.modifyPatch p f).nbPhase = b.nbPhase := rfl
@[simp] theorem Block.modifyPatch_ioAddr (b : Block) (p : PatchId) (f : Patch → Patch) :
    (b.modifyPatch p f).ioAddr = b.ioAddr := rfl
@[simp] theorem Block.modifyPatch_mask (b : Block) (p : PatchId) (f : Patch → Patch) :
    (b.modifyPatch p f).mask = b.mask := rfl

/-! ### Slot update (R27) -/

@[simp] theorem Block.forSlots_reg (b : Block) (f : SlotId → SlotState) :
    (b.forSlots f).reg = b.reg := rfl
@[simp] theorem Block.forSlots_patch (b : Block) (f : SlotId → SlotState) :
    (b.forSlots f).patch = b.patch := rfl
@[simp] theorem Block.forSlots_slot (b : Block) (f : SlotId → SlotState) :
    (b.forSlots f).slot = Vector.ofFn f := rfl
@[simp] theorem Block.forSlots_pvolHh (b : Block) (f : SlotId → SlotState) :
    (b.forSlots f).pvolHh = b.pvolHh := rfl
@[simp] theorem Block.forSlots_pvolTom (b : Block) (f : SlotId → SlotState) :
    (b.forSlots f).pvolTom = b.pvolTom := rfl
@[simp] theorem Block.forSlots_pmPhase (b : Block) (f : SlotId → SlotState) :
    (b.forSlots f).pmPhase = b.pmPhase := rfl
@[simp] theorem Block.forSlots_amPhase (b : Block) (f : SlotId → SlotState) :
    (b.forSlots f).amPhase = b.amPhase := rfl
@[simp] theorem Block.forSlots_noise (b : Block) (f : SlotId → SlotState) :
    (b.forSlots f).noise = b.noise := rfl
@[simp] theorem Block.forSlots_naPhase (b : Block) (f : SlotId → SlotState) :
    (b.forSlots f).naPhase = b.naPhase := rfl
@[simp] theorem Block.forSlots_nbPhase (b : Block) (f : SlotId → SlotState) :
    (b.forSlots f).nbPhase = b.nbPhase := rfl
@[simp] theorem Block.forSlots_ioAddr (b : Block) (f : SlotId → SlotState) :
    (b.forSlots f).ioAddr = b.ioAddr := rfl
@[simp] theorem Block.forSlots_mask (b : Block) (f : SlotId → SlotState) :
    (b.forSlots f).mask = b.mask := rfl

/-! ### Key processing (R112) -/

@[simp] theorem keyProcess_reg (c : Cfg) (b0 b : Block) :
    (keyProcess c b0 b).reg = b.reg := rfl
@[simp] theorem keyProcess_patch (c : Cfg) (b0 b : Block) :
    (keyProcess c b0 b).patch = b.patch := rfl
@[simp] theorem keyProcess_slot (c : Cfg) (b0 b : Block) :
    (keyProcess c b0 b).slot = Vector.ofFn fun s => keyStep c b0 b s (b.slotAt s) := rfl
@[simp] theorem keyProcess_pvolHh (c : Cfg) (b0 b : Block) :
    (keyProcess c b0 b).pvolHh = b.pvolHh := rfl
@[simp] theorem keyProcess_pvolTom (c : Cfg) (b0 b : Block) :
    (keyProcess c b0 b).pvolTom = b.pvolTom := rfl
@[simp] theorem keyProcess_pmPhase (c : Cfg) (b0 b : Block) :
    (keyProcess c b0 b).pmPhase = b.pmPhase := rfl
@[simp] theorem keyProcess_amPhase (c : Cfg) (b0 b : Block) :
    (keyProcess c b0 b).amPhase = b.amPhase := rfl
@[simp] theorem keyProcess_noise (c : Cfg) (b0 b : Block) :
    (keyProcess c b0 b).noise = b.noise := rfl
@[simp] theorem keyProcess_naPhase (c : Cfg) (b0 b : Block) :
    (keyProcess c b0 b).naPhase = b.naPhase := rfl
@[simp] theorem keyProcess_nbPhase (c : Cfg) (b0 b : Block) :
    (keyProcess c b0 b).nbPhase = b.nbPhase := rfl
@[simp] theorem keyProcess_ioAddr (c : Cfg) (b0 b : Block) :
    (keyProcess c b0 b).ioAddr = b.ioAddr := rfl
@[simp] theorem keyProcess_mask (c : Cfg) (b0 b : Block) :
    (keyProcess c b0 b).mask = b.mask := rfl

/-! ### Vibrato (R151) -/

@[simp] theorem vibratoStep_reg (c : Cfg) (b : Block) :
    (vibratoStep c b).reg = b.reg := rfl
@[simp] theorem vibratoStep_patch (c : Cfg) (b : Block) :
    (vibratoStep c b).patch = b.patch := rfl
@[simp] theorem vibratoStep_slot (c : Cfg) (b : Block) :
    (vibratoStep c b).slot = b.slot := rfl
@[simp] theorem vibratoStep_pvolHh (c : Cfg) (b : Block) :
    (vibratoStep c b).pvolHh = b.pvolHh := rfl
@[simp] theorem vibratoStep_pvolTom (c : Cfg) (b : Block) :
    (vibratoStep c b).pvolTom = b.pvolTom := rfl
@[simp] theorem vibratoStep_pmPhase (c : Cfg) (b : Block) :
    (vibratoStep c b).pmPhase = (b.pmPhase + c.pmDphase) % 2 ^ c.pmDpBits := rfl
@[simp] theorem vibratoStep_amPhase (c : Cfg) (b : Block) :
    (vibratoStep c b).amPhase = b.amPhase := rfl
@[simp] theorem vibratoStep_noise (c : Cfg) (b : Block) :
    (vibratoStep c b).noise = b.noise := rfl
@[simp] theorem vibratoStep_naPhase (c : Cfg) (b : Block) :
    (vibratoStep c b).naPhase = b.naPhase := rfl
@[simp] theorem vibratoStep_nbPhase (c : Cfg) (b : Block) :
    (vibratoStep c b).nbPhase = b.nbPhase := rfl
@[simp] theorem vibratoStep_ioAddr (c : Cfg) (b : Block) :
    (vibratoStep c b).ioAddr = b.ioAddr := rfl
@[simp] theorem vibratoStep_mask (c : Cfg) (b : Block) :
    (vibratoStep c b).mask = b.mask := rfl

/-! ### Tremolo (R152) -/

@[simp] theorem tremoloStep_reg (c : Cfg) (b : Block) :
    (tremoloStep c b).reg = b.reg := rfl
@[simp] theorem tremoloStep_patch (c : Cfg) (b : Block) :
    (tremoloStep c b).patch = b.patch := rfl
@[simp] theorem tremoloStep_slot (c : Cfg) (b : Block) :
    (tremoloStep c b).slot = b.slot := rfl
@[simp] theorem tremoloStep_pvolHh (c : Cfg) (b : Block) :
    (tremoloStep c b).pvolHh = b.pvolHh := rfl
@[simp] theorem tremoloStep_pvolTom (c : Cfg) (b : Block) :
    (tremoloStep c b).pvolTom = b.pvolTom := rfl
@[simp] theorem tremoloStep_pmPhase (c : Cfg) (b : Block) :
    (tremoloStep c b).pmPhase = b.pmPhase := rfl
@[simp] theorem tremoloStep_amPhase (c : Cfg) (b : Block) :
    (tremoloStep c b).amPhase = (b.amPhase + c.amDphase) % 2 ^ c.amDpBits := rfl
@[simp] theorem tremoloStep_noise (c : Cfg) (b : Block) :
    (tremoloStep c b).noise = b.noise := rfl
@[simp] theorem tremoloStep_naPhase (c : Cfg) (b : Block) :
    (tremoloStep c b).naPhase = b.naPhase := rfl
@[simp] theorem tremoloStep_nbPhase (c : Cfg) (b : Block) :
    (tremoloStep c b).nbPhase = b.nbPhase := rfl
@[simp] theorem tremoloStep_ioAddr (c : Cfg) (b : Block) :
    (tremoloStep c b).ioAddr = b.ioAddr := rfl
@[simp] theorem tremoloStep_mask (c : Cfg) (b : Block) :
    (tremoloStep c b).mask = b.mask := rfl

/-! ### Noise register (R153) -/

@[simp] theorem noiseStep_reg (c : Cfg) (b : Block) :
    (noiseStep c b).reg = b.reg := rfl
@[simp] theorem noiseStep_patch (c : Cfg) (b : Block) :
    (noiseStep c b).patch = b.patch := rfl
@[simp] theorem noiseStep_slot (c : Cfg) (b : Block) :
    (noiseStep c b).slot = b.slot := rfl
@[simp] theorem noiseStep_pvolHh (c : Cfg) (b : Block) :
    (noiseStep c b).pvolHh = b.pvolHh := rfl
@[simp] theorem noiseStep_pvolTom (c : Cfg) (b : Block) :
    (noiseStep c b).pvolTom = b.pvolTom := rfl
@[simp] theorem noiseStep_pmPhase (c : Cfg) (b : Block) :
    (noiseStep c b).pmPhase = b.pmPhase := rfl
@[simp] theorem noiseStep_amPhase (c : Cfg) (b : Block) :
    (noiseStep c b).amPhase = b.amPhase := rfl
@[simp] theorem noiseStep_noise (c : Cfg) (b : Block) :
    (noiseStep c b).noise = noiseNext c b.noise := rfl
@[simp] theorem noiseStep_naPhase (c : Cfg) (b : Block) :
    (noiseStep c b).naPhase = b.naPhase := rfl
@[simp] theorem noiseStep_nbPhase (c : Cfg) (b : Block) :
    (noiseStep c b).nbPhase = b.nbPhase := rfl
@[simp] theorem noiseStep_ioAddr (c : Cfg) (b : Block) :
    (noiseStep c b).ioAddr = b.ioAddr := rfl
@[simp] theorem noiseStep_mask (c : Cfg) (b : Block) :
    (noiseStep c b).mask = b.mask := rfl

/-! ### Noise oscillators (R155) -/

@[simp] theorem noiseOscStep_reg (c : Cfg) (b : Block) :
    (noiseOscStep c b).reg = b.reg := rfl
@[simp] theorem noiseOscStep_patch (c : Cfg) (b : Block) :
    (noiseOscStep c b).patch = b.patch := rfl
@[simp] theorem noiseOscStep_slot (c : Cfg) (b : Block) :
    (noiseOscStep c b).slot = b.slot := rfl
@[simp] theorem noiseOscStep_pvolHh (c : Cfg) (b : Block) :
    (noiseOscStep c b).pvolHh = b.pvolHh := rfl
@[simp] theorem noiseOscStep_pvolTom (c : Cfg) (b : Block) :
    (noiseOscStep c b).pvolTom = b.pvolTom := rfl
@[simp] theorem noiseOscStep_pmPhase (c : Cfg) (b : Block) :
    (noiseOscStep c b).pmPhase = b.pmPhase := rfl
@[simp] theorem noiseOscStep_amPhase (c : Cfg) (b : Block) :
    (noiseOscStep c b).amPhase = b.amPhase := rfl
@[simp] theorem noiseOscStep_noise (c : Cfg) (b : Block) :
    (noiseOscStep c b).noise = b.noise := rfl
@[simp] theorem noiseOscStep_naPhase (c : Cfg) (b : Block) :
    (noiseOscStep c b).naPhase = c.naStep b.naPhase := rfl
@[simp] theorem noiseOscStep_nbPhase (c : Cfg) (b : Block) :
    (noiseOscStep c b).nbPhase = c.nbStep b.nbPhase := rfl
@[simp] theorem noiseOscStep_ioAddr (c : Cfg) (b : Block) :
    (noiseOscStep c b).ioAddr = b.ioAddr := rfl
@[simp] theorem noiseOscStep_mask (c : Cfg) (b : Block) :
    (noiseOscStep c b).mask = b.mask := rfl

/-! ### All generators (R231) -/

@[simp] theorem generators_reg (c : Cfg) (b : Block) :
    (generators c b).reg = b.reg := rfl
@[simp] theorem generators_patch (c : Cfg) (b : Block) :
    (generators c b).patch = b.patch := rfl
@[simp] theorem generators_slot (c : Cfg) (b : Block) :
    (generators c b).slot = b.slot := rfl
@[simp] theorem generators_pvolHh (c : Cfg) (b : Block) :
    (generators c b).pvolHh = b.pvolHh := rfl
@[simp] theorem generators_pvolTom (c : Cfg) (b : Block) :
    (generators c b).pvolTom = b.pvolTom := rfl
@[simp] theorem generators_pmPhase (c : Cfg) (b : Block) :
    (generators c b).pmPhase = (b.pmPhase + c.pmDphase) % 2 ^ c.pmDpBits := rfl
@[simp] theorem generators_amPhase (c : Cfg) (b : Block) :
    (generators c b).amPhase = (b.amPhase + c.amDphase) % 2 ^ c.amDpBits := rfl
@[simp] theorem generators_noise (c : Cfg) (b : Block) :
    (generators c b).noise = noiseNext c b.noise := rfl
@[simp] theorem generators_naPhase (c : Cfg) (b : Block) :
    (generators c b).naPhase = c.naStep b.naPhase := rfl
@[simp] theorem generators_nbPhase (c : Cfg) (b : Block) :
    (generators c b).nbPhase = c.nbStep b.nbPhase := rfl
@[simp] theorem generators_ioAddr (c : Cfg) (b : Block) :
    (generators c b).ioAddr = b.ioAddr := rfl
@[simp] theorem generators_mask (c : Cfg) (b : Block) :
    (generators c b).mask = b.mask := rfl

/-! ### Phase stage (R157) -/

@[simp] theorem phaseStage_reg (c : Cfg) (b : Block) :
    (phaseStage c b).reg = b.reg := by
  simp only [phaseStage, Block.forSlots_reg]
@[simp] theorem phaseStage_patch (c : Cfg) (b : Block) :
    (phaseStage c b).patch = b.patch := by
  simp only [phaseStage, Block.forSlots_patch]
@[simp] theorem phaseStage_slot (c : Cfg) (b : Block) :
    (phaseStage c b).slot = Vector.ofFn fun s =>
      { b.slotAt s with phase := phaseAdd c (b.slotAt s).phase (phaseInc c b s) } := by
  simp only [phaseStage, Block.forSlots_slot]
@[simp] theorem phaseStage_pvolHh (c : Cfg) (b : Block) :
    (phaseStage c b).pvolHh = b.pvolHh := by
  simp only [phaseStage, Block.forSlots_pvolHh]
@[simp] theorem phaseStage_pvolTom (c : Cfg) (b : Block) :
    (phaseStage c b).pvolTom = b.pvolTom := by
  simp only [phaseStage, Block.forSlots_pvolTom]
@[simp] theorem phaseStage_pmPhase (c : Cfg) (b : Block) :
    (phaseStage c b).pmPhase = b.pmPhase := by
  simp only [phaseStage, Block.forSlots_pmPhase]
@[simp] theorem phaseStage_amPhase (c : Cfg) (b : Block) :
    (phaseStage c b).amPhase = b.amPhase := by
  simp only [phaseStage, Block.forSlots_amPhase]
@[simp] theorem phaseStage_noise (c : Cfg) (b : Block) :
    (phaseStage c b).noise = b.noise := by
  simp only [phaseStage, Block.forSlots_noise]
@[simp] theorem phaseStage_naPhase (c : Cfg) (b : Block) :
    (phaseStage c b).naPhase = b.naPhase := by
  simp only [phaseStage, Block.forSlots_naPhase]
@[simp] theorem phaseStage_nbPhase (c : Cfg) (b : Block) :
    (phaseStage c b).nbPhase = b.nbPhase := by
  simp only [phaseStage, Block.forSlots_nbPhase]
@[simp] theorem phaseStage_ioAddr (c : Cfg) (b : Block) :
    (phaseStage c b).ioAddr = b.ioAddr := by
  simp only [phaseStage, Block.forSlots_ioAddr]
@[simp] theorem phaseStage_mask (c : Cfg) (b : Block) :
    (phaseStage c b).mask = b.mask := by
  simp only [phaseStage, Block.forSlots_mask]

/-! ### Envelope stage (R173 to R178) -/

@[simp] theorem egStage_reg (c : Cfg) (b : Block) :
    (egStage c b).reg = b.reg := by
  simp only [egStage, Block.forSlots_reg]
@[simp] theorem egStage_patch (c : Cfg) (b : Block) :
    (egStage c b).patch = b.patch := by
  simp only [egStage, Block.forSlots_patch]
@[simp] theorem egStage_slot (c : Cfg) (b : Block) :
    (egStage c b).slot = Vector.ofFn fun s => (b.envelope c s).slot := by
  simp only [egStage, Block.forSlots_slot]
@[simp] theorem egStage_pvolHh (c : Cfg) (b : Block) :
    (egStage c b).pvolHh = b.pvolHh := by
  simp only [egStage, Block.forSlots_pvolHh]
@[simp] theorem egStage_pvolTom (c : Cfg) (b : Block) :
    (egStage c b).pvolTom = b.pvolTom := by
  simp only [egStage, Block.forSlots_pvolTom]
@[simp] theorem egStage_pmPhase (c : Cfg) (b : Block) :
    (egStage c b).pmPhase = b.pmPhase := by
  simp only [egStage, Block.forSlots_pmPhase]
@[simp] theorem egStage_amPhase (c : Cfg) (b : Block) :
    (egStage c b).amPhase = b.amPhase := by
  simp only [egStage, Block.forSlots_amPhase]
@[simp] theorem egStage_noise (c : Cfg) (b : Block) :
    (egStage c b).noise = b.noise := by
  simp only [egStage, Block.forSlots_noise]
@[simp] theorem egStage_naPhase (c : Cfg) (b : Block) :
    (egStage c b).naPhase = b.naPhase := by
  simp only [egStage, Block.forSlots_naPhase]
@[simp] theorem egStage_nbPhase (c : Cfg) (b : Block) :
    (egStage c b).nbPhase = b.nbPhase := by
  simp only [egStage, Block.forSlots_nbPhase]
@[simp] theorem egStage_ioAddr (c : Cfg) (b : Block) :
    (egStage c b).ioAddr = b.ioAddr := by
  simp only [egStage, Block.forSlots_ioAddr]
@[simp] theorem egStage_mask (c : Cfg) (b : Block) :
    (egStage c b).mask = b.mask := by
  simp only [egStage, Block.forSlots_mask]

/-! ### CALC (R231) -/

@[simp] theorem Block.calc_reg (b : Block) (c : Cfg) :
    (b.calc c).reg = b.reg := by
  simp only [Block.calc, calcPhases, egStage_reg, phaseStage_reg, generators_reg]
@[simp] theorem Block.calc_patch (b : Block) (c : Cfg) :
    (b.calc c).patch = b.patch := by
  simp only [Block.calc, calcPhases, egStage_patch, phaseStage_patch, generators_patch]
@[simp] theorem Block.calc_slot (b : Block) (c : Cfg) :
    (b.calc c).slot = (calcMix c b).slots := by
  simp only [Block.calc]
@[simp] theorem Block.calc_pvolHh (b : Block) (c : Cfg) :
    (b.calc c).pvolHh = b.pvolHh := by
  simp only [Block.calc, calcPhases, egStage_pvolHh, phaseStage_pvolHh, generators_pvolHh]
@[simp] theorem Block.calc_pvolTom (b : Block) (c : Cfg) :
    (b.calc c).pvolTom = b.pvolTom := by
  simp only [Block.calc, calcPhases, egStage_pvolTom, phaseStage_pvolTom, generators_pvolTom]
@[simp] theorem Block.calc_pmPhase (b : Block) (c : Cfg) :
    (b.calc c).pmPhase = (b.pmPhase + c.pmDphase) % 2 ^ c.pmDpBits := by
  simp only [Block.calc, calcPhases, egStage_pmPhase, phaseStage_pmPhase, generators_pmPhase]
@[simp] theorem Block.calc_amPhase (b : Block) (c : Cfg) :
    (b.calc c).amPhase = (b.amPhase + c.amDphase) % 2 ^ c.amDpBits := by
  simp only [Block.calc, calcPhases, egStage_amPhase, phaseStage_amPhase, generators_amPhase]
@[simp] theorem Block.calc_noise (b : Block) (c : Cfg) :
    (b.calc c).noise = noiseNext c b.noise := by
  simp only [Block.calc, calcPhases, egStage_noise, phaseStage_noise, generators_noise]
@[simp] theorem Block.calc_naPhase (b : Block) (c : Cfg) :
    (b.calc c).naPhase = c.naStep b.naPhase := by
  simp only [Block.calc, calcPhases, egStage_naPhase, phaseStage_naPhase, generators_naPhase]
@[simp] theorem Block.calc_nbPhase (b : Block) (c : Cfg) :
    (b.calc c).nbPhase = c.nbStep b.nbPhase := by
  simp only [Block.calc, calcPhases, egStage_nbPhase, phaseStage_nbPhase, generators_nbPhase]
@[simp] theorem Block.calc_ioAddr (b : Block) (c : Cfg) :
    (b.calc c).ioAddr = b.ioAddr := by
  simp only [Block.calc, calcPhases, egStage_ioAddr, phaseStage_ioAddr, generators_ioAddr]
@[simp] theorem Block.calc_mask (b : Block) (c : Cfg) :
    (b.calc c).mask = b.mask := by
  simp only [Block.calc, calcPhases, egStage_mask, phaseStage_mask, generators_mask]

/-! ### RESET (R291) -/

@[simp] theorem Block.resetBlock_reg (b : Block) (c : Cfg) :
    (b.resetBlock c).reg = Vector.ofFn fun _ => 0x00#8 := rfl
@[simp] theorem Block.resetBlock_patch (b : Block) (c : Cfg) :
    (b.resetBlock c).patch = Vector.ofFn fun p => c.factory p := rfl
@[simp] theorem Block.resetBlock_slot (b : Block) (c : Cfg) :
    (b.resetBlock c).slot = Vector.ofFn fun s => resetSlot c (b.slotAt s) := rfl
@[simp] theorem Block.resetBlock_pvolHh (b : Block) (c : Cfg) :
    (b.resetBlock c).pvolHh = 0#4 := rfl
@[simp] theorem Block.resetBlock_pvolTom (b : Block) (c : Cfg) :
    (b.resetBlock c).pvolTom = 0#4 := rfl
@[simp] theorem Block.resetBlock_pmPhase (b : Block) (c : Cfg) :
    (b.resetBlock c).pmPhase = 0 := rfl
@[simp] theorem Block.resetBlock_amPhase (b : Block) (c : Cfg) :
    (b.resetBlock c).amPhase = 0 := rfl
@[simp] theorem Block.resetBlock_noise (b : Block) (c : Cfg) :
    (b.resetBlock c).noise = c.noiseSeed := rfl
@[simp] theorem Block.resetBlock_naPhase (b : Block) (c : Cfg) :
    (b.resetBlock c).naPhase = c.naInit := rfl
@[simp] theorem Block.resetBlock_nbPhase (b : Block) (c : Cfg) :
    (b.resetBlock c).nbPhase = c.nbInit := rfl
@[simp] theorem Block.resetBlock_ioAddr (b : Block) (c : Cfg) :
    (b.resetBlock c).ioAddr = 0x00#8 := rfl
@[simp] theorem Block.resetBlock_mask (b : Block) (c : Cfg) :
    (b.resetBlock c).mask = b.mask := rfl

/-! ### Construction (R292) -/

@[simp] theorem Block.construct_reg (c : Cfg) :
    (Block.construct c).reg = Vector.replicate 64 0x00#8 := rfl
@[simp] theorem Block.construct_patch (c : Cfg) :
    (Block.construct c).patch = Vector.ofFn c.factory := rfl
@[simp] theorem Block.construct_slot (c : Cfg) :
    (Block.construct c).slot = Vector.replicate 18 (SlotState.initial c) := rfl
@[simp] theorem Block.construct_pvolHh (c : Cfg) :
    (Block.construct c).pvolHh = 0#4 := rfl
@[simp] theorem Block.construct_pvolTom (c : Cfg) :
    (Block.construct c).pvolTom = 0#4 := rfl
@[simp] theorem Block.construct_pmPhase (c : Cfg) :
    (Block.construct c).pmPhase = 0 := rfl
@[simp] theorem Block.construct_amPhase (c : Cfg) :
    (Block.construct c).amPhase = 0 := rfl
@[simp] theorem Block.construct_noise (c : Cfg) :
    (Block.construct c).noise = c.noiseSeed := rfl
@[simp] theorem Block.construct_naPhase (c : Cfg) :
    (Block.construct c).naPhase = c.naInit := rfl
@[simp] theorem Block.construct_nbPhase (c : Cfg) :
    (Block.construct c).nbPhase = c.nbInit := rfl
@[simp] theorem Block.construct_ioAddr (c : Cfg) :
    (Block.construct c).ioAddr = 0x00#8 := rfl
@[simp] theorem Block.construct_mask (c : Cfg) :
    (Block.construct c).mask = 0#14 := rfl

/-! ### The machine's bookkeeping -/

@[simp] theorem State.onBlock_block (s : State) (f : Block → Block) :
    (s.onBlock f).block = f s.block := rfl
@[simp] theorem State.onBlock_pending (s : State) (f : Block → Block) :
    (s.onBlock f).pending = s.pending := rfl
@[simp] theorem State.onBlock_index (s : State) (f : Block → Block) :
    (s.onBlock f).index = s.index := rfl
@[simp] theorem State.onBlock_samples (s : State) (f : Block → Block) :
    (s.onBlock f).samples = s.samples := rfl
@[simp] theorem State.retire_block (s : State) : s.retire.block = s.block := rfl
@[simp] theorem State.retire_pending (s : State) : s.retire.pending = s.pending.tail := rfl
@[simp] theorem State.retire_index (s : State) : s.retire.index = s.index + 1 := rfl
@[simp] theorem State.retire_samples (s : State) : s.retire.samples = s.samples := rfl
@[simp] theorem State.withCommand_block (s : State) (w : Word) :
    (s.withCommand w).block = s.block := rfl
@[simp] theorem State.withCommand_pending (s : State) (w : Word) :
    (s.withCommand w).pending = w :: s.pending.tail := rfl
@[simp] theorem State.withCommand_index (s : State) (w : Word) :
    (s.withCommand w).index = s.index := rfl
@[simp] theorem State.withCommand_samples (s : State) (w : Word) :
    (s.withCommand w).samples = s.samples := rfl
@[simp] theorem State.reset_block : State.reset.block = Block.construct Config.cfg := rfl
@[simp] theorem State.reset_pending : State.reset.pending = [] := rfl
@[simp] theorem State.reset_index : State.reset.index = 0 := rfl
@[simp] theorem State.reset_samples : State.reset.samples = [] := rfl

/-! ### Slot updates -/

@[simp] theorem keyOn_phase (sl : SlotState) : (keyOn sl).phase = 0#32 := rfl
@[simp] theorem keyOn_egMode (sl : SlotState) : (keyOn sl).egMode = .attack := rfl
@[simp] theorem keyOn_egPhase (sl : SlotState) : (keyOn sl).egPhase = 0 := rfl
@[simp] theorem keyOn_out0 (sl : SlotState) : (keyOn sl).out0 = sl.out0 := rfl
@[simp] theorem keyOn_out1 (sl : SlotState) : (keyOn sl).out1 = sl.out1 := rfl
@[simp] theorem keyOn_feedback (sl : SlotState) : (keyOn sl).feedback = sl.feedback := rfl
@[simp] theorem forceFinish_phase (sl : SlotState) : (forceFinish sl).phase = sl.phase := rfl
@[simp] theorem forceFinish_egMode (sl : SlotState) : (forceFinish sl).egMode = .finish := rfl
@[simp] theorem forceFinish_egPhase (sl : SlotState) : (forceFinish sl).egPhase = sl.egPhase := rfl
@[simp] theorem forceFinish_out0 (sl : SlotState) : (forceFinish sl).out0 = sl.out0 := rfl
@[simp] theorem forceFinish_out1 (sl : SlotState) : (forceFinish sl).out1 = sl.out1 := rfl
@[simp] theorem forceFinish_feedback (sl : SlotState) : (forceFinish sl).feedback = sl.feedback := rfl
@[simp] theorem pushOutput_phase (sl : SlotState) (r : Int) : (pushOutput sl r).phase = sl.phase := rfl
@[simp] theorem pushOutput_egMode (sl : SlotState) (r : Int) : (pushOutput sl r).egMode = sl.egMode := rfl
@[simp] theorem pushOutput_egPhase (sl : SlotState) (r : Int) : (pushOutput sl r).egPhase = sl.egPhase := rfl
@[simp] theorem pushOutput_out0 (sl : SlotState) (r : Int) : (pushOutput sl r).out0 = r := rfl
@[simp] theorem pushOutput_out1 (sl : SlotState) (r : Int) : (pushOutput sl r).out1 = sl.out0 := rfl
@[simp] theorem pushOutput_feedback (sl : SlotState) (r : Int) : (pushOutput sl r).feedback = sl.feedback := rfl
@[simp] theorem resetSlot_phase (c : Cfg) (sl : SlotState) : (resetSlot c sl).phase = 0#32 := rfl
@[simp] theorem resetSlot_egMode (c : Cfg) (sl : SlotState) : (resetSlot c sl).egMode = .finish := rfl
@[simp] theorem resetSlot_egPhase (c : Cfg) (sl : SlotState) : (resetSlot c sl).egPhase = c.egFull := rfl
@[simp] theorem resetSlot_out0 (c : Cfg) (sl : SlotState) : (resetSlot c sl).out0 = 0 := rfl
@[simp] theorem resetSlot_out1 (c : Cfg) (sl : SlotState) : (resetSlot c sl).out1 = 0 := rfl
@[simp] theorem resetSlot_feedback (c : Cfg) (sl : SlotState) : (resetSlot c sl).feedback = 0 := rfl
@[simp] theorem SlotState.initial_phase (c : Cfg) : (SlotState.initial c).phase = 0#32 := rfl
@[simp] theorem SlotState.initial_egMode (c : Cfg) : (SlotState.initial c).egMode = .finish := rfl
@[simp] theorem SlotState.initial_egPhase (c : Cfg) : (SlotState.initial c).egPhase = 2 ^ c.egDpBits := rfl
@[simp] theorem SlotState.initial_out0 (c : Cfg) : (SlotState.initial c).out0 = 0 := rfl
@[simp] theorem SlotState.initial_out1 (c : Cfg) : (SlotState.initial c).out1 = 0 := rfl
@[simp] theorem SlotState.initial_feedback (c : Cfg) : (SlotState.initial c).feedback = 0 := rfl

end Sys2Proof.Machine
end

