-- ==== Sys2Proof/Laws/Ops.lean ====
section
/-! SUPPORT. What the shared operations of Machine/Ops.lean give, said once. -/

namespace Sys2Proof.Machine

/-! ### Registers, patches, slots: read after write -/

theorem Block.regAt_setReg (b : Block) (a a' : RegAddr) (v : Byte) :
    (b.setReg a v).regAt a' = if a = a' then v else b.regAt a' := by
  have h : a.toNat = a'.toNat ↔ a = a' := BitVec.toNat_inj
  simp only [Block.regAt, Block.setReg_reg, Vector.getElem_set, h]

@[simp] theorem Block.regAt_setReg_self (b : Block) (a : RegAddr) (v : Byte) :
    (b.setReg a v).regAt a = v := by simp [Block.regAt_setReg]

theorem Block.regAt_setReg_ne (b : Block) {a a' : RegAddr} (v : Byte) (h : a ≠ a') :
    (b.setReg a v).regAt a' = b.regAt a' := by simp [Block.regAt_setReg, h]

theorem Block.patchAt_modifyPatch (b : Block) (p p' : PatchId) (f : Patch → Patch) :
    (b.modifyPatch p f).patchAt p' = if p = p' then f (b.patchAt p) else b.patchAt p' := by
  simp only [Block.patchAt, Block.modifyPatch_patch, Vector.getElem_set, Fin.ext_iff]

@[simp] theorem Block.slotAt_forSlots (b : Block) (f : SlotId → SlotState) (s : SlotId) :
    (b.forSlots f).slotAt s = f s := by simp [Block.slotAt]

theorem Block.slot_ext {v w : Vector SlotState 18} (h : ∀ s : SlotId, v[s.val] = w[s.val]) :
    v = w := Vector.ext fun i hi => h ⟨i, hi⟩

@[simp] theorem Block.forSlots_slotAt (b : Block) : b.forSlots b.slotAt = b := by
  have h : Vector.ofFn b.slotAt = b.slot := Block.slot_ext fun s => by simp [Block.slotAt]
  simp [Block.forSlots, h]

/-! ### Registers alone decide the register reads -/

theorem Block.regAt_congr {b b' : Block} (h : b.reg = b'.reg) (a : RegAddr) :
    b.regAt a = b'.regAt a := by simp [Block.regAt, h]

/-! ### Arithmetic -/

theorem clip16_bounds (v : Int) : -32768 ≤ clip16 v ∧ clip16 v ≤ 32767 := by
  simp only [clip16]; omega

theorem clip16_of_mem {v : Int} (h : -32768 ≤ v ∧ v ≤ 32767) : clip16 v = v := by
  simp only [clip16]; omega

theorem sampleOf_toInt {v : Int} (h : -32768 ≤ v ∧ v ≤ 32767) : (sampleOf v).toInt = v := by
  simp only [sampleOf, BitVec.toInt_ofInt, Int.bmod]
  omega

theorem average_eq (a b : Int) : average a b = (a + b) / 2 := by
  simp [average, Int.shiftRight_eq_div_pow]

theorem wrapIndex_lt (n p : Nat) (off : Int) : wrapIndex n p off < 2 ^ n := by
  have h : (0 : Int) < 2 ^ n := by positivity
  have h1 := Int.emod_nonneg ((p : Int) + off) h.ne'
  have h2 := Int.emod_lt_of_pos ((p : Int) + off) h
  simp only [wrapIndex]
  zify
  rw [Int.toNat_of_nonneg h1]
  exact_mod_cast h2

/-! ### The Settle search (R267) -/

theorem Block.firstSettle_none {b : Block} :
    b.firstSettle = none ↔ ∀ s : SlotId, (b.slotAt s).egMode ≠ .settle := by
  simp [Block.firstSettle]

theorem List.find?_finRange_lowest {n : Nat} {p : Fin n → Bool} {k : Fin n}
    (h : (List.finRange n).find? p = some k) : p k = true ∧ ∀ j < k, p j = false := by
  obtain ⟨hk, as, bs, hl, has⟩ := List.find?_eq_some_iff_append.mp h
  refine ⟨hk, fun j hj => ?_⟩
  have hs : (as ++ k :: bs).Pairwise (· < ·) := hl ▸ List.pairwise_lt_finRange n
  have hm : j ∈ as ++ k :: bs := hl ▸ List.mem_finRange j
  rcases List.mem_append.mp hm with hm | hm
  · simpa using has j hm
  · rcases List.mem_cons.mp hm with rfl | hm
    · exact absurd hj (lt_irrefl _)
    · have := (List.pairwise_append.mp hs).2.1
      exact absurd hj (not_lt.mpr ((List.pairwise_cons.mp this).1 j hm).le)

/-- The search finds the lowest slot in Settle (R267). -/
theorem Block.firstSettle_some {b : Block} {k : SlotId} (h : b.firstSettle = some k) :
    (b.slotAt k).egMode = .settle ∧ ∀ j < k, (b.slotAt j).egMode ≠ .settle := by
  have := List.find?_finRange_lowest h
  simpa using this

end Sys2Proof.Machine
end

