-- ==== Sys2Proof/Laws/Keys.lean ====
section
/-! SUPPORT. What the views rest on, and everything key processing can do
(spec/40_register_writes.md R112; spec/10_state.md R40 to R49). -/

namespace Sys2Proof.Machine

/-! ### Slot and channel numbering (R30, R41) -/

@[simp] theorem chOf_modSlot (c : Channel) : chOf (modSlot c) = c := by
  simp [chOf, modSlot]

@[simp] theorem chOf_carSlot (c : Channel) : chOf (carSlot c) = c := by
  ext; simp only [chOf, carSlot]; omega

@[simp] theorem opOf_modSlot (c : Channel) : opOf (modSlot c) = false := by
  simp [opOf, modSlot]

@[simp] theorem opOf_carSlot (c : Channel) : opOf (carSlot c) = true := by
  simp [opOf, carSlot]

/-- Every slot is its channel's modulator or carrier slot. -/
theorem slot_cases (s : SlotId) : s = modSlot (chOf s) ∨ s = carSlot (chOf s) := by
  rcases Nat.mod_two_eq_zero_or_one s.val with h | h
  · left; ext; simp only [modSlot, chOf]; omega
  · right; ext; simp only [carSlot, chOf]; omega

/-! ### Addresses of the channel registers (R64) -/

theorem channelAddr_toNat (base : RegAddr) (c : Channel) (h : base.toNat + 8 < 64) :
    (channelAddr base c).toNat = base.toNat + c.val := by
  have := c.isLt
  simp only [channelAddr, BitVec.toNat_add, BitVec.toNat_ofNat]
  omega

/-- Two channels' registers of one group are one register only for one channel. -/
theorem channelAddr_inj {base : RegAddr} {c c' : Channel}
    (h : channelAddr base c = channelAddr base c') : c = c' := by
  revert base c c'; decide

theorem channelAddr_group_ne {c c' : Channel} :
    channelAddr 0x10#6 c ≠ channelAddr 0x20#6 c' ∧ channelAddr 0x10#6 c ≠ channelAddr 0x30#6 c' ∧
      channelAddr 0x20#6 c ≠ channelAddr 0x30#6 c' := by
  revert c c'; decide

theorem rhythmAddr_ne (c : Channel) :
    (0x0E#6 ≠ channelAddr 0x10#6 c) ∧ (0x0E#6 ≠ channelAddr 0x20#6 c) ∧
      (0x0E#6 ≠ channelAddr 0x30#6 c) := by
  revert c; decide

/-! ### The views read registers only -/

/-- The registers that a slot's key line reads are the same in both blocks. -/
theorem Block.rhythm_congr {b b' : Block} (h : b.regAt 0x0E#6 = b'.regAt 0x0E#6) :
    b.rhythm = b'.rhythm := by simp [Block.rhythm, h]

theorem Block.role_congr {b b' : Block} (h : b.rhythm = b'.rhythm) (s : SlotId) :
    b.role s = b'.role s := by simp [Block.role, h]

theorem Block.percBit_congr {b b' : Block} (h : b.regAt 0x0E#6 = b'.regAt 0x0E#6) (s : SlotId) :
    b.percBit s = b'.percBit s := by simp [Block.percBit, h]

theorem Block.line_congr {b b' : Block} (h : b.regAt 0x0E#6 = b'.regAt 0x0E#6) (s : SlotId)
    (hk : b.key (chOf s) = b'.key (chOf s)) : b.line s = b'.line s := by
  simp [Block.line, hk, Block.rhythm_congr h, Block.percBit_congr h]

theorem Block.key_congr {b b' : Block} {ch : Channel}
    (h : b.chanReg 0x20#6 ch = b'.chanReg 0x20#6 ch) : b.key ch = b'.key ch := by
  simp [Block.key, h]

/-- Two blocks with the same register shadow and patches bind the same patches. -/
theorem Block.patchOf_congr {b b' : Block} (hr : b.reg = b'.reg) (hp : b.patch = b'.patch)
    (s : SlotId) : b.patchOf s = b'.patchOf s := by
  simp [Block.patchOf, Block.inst, Block.chanReg, Block.rhythm, Block.patchAt,
    Block.regAt_congr hr, hp]

/-- Below slot 12 the percussion bits reach no line (R47, R48). -/
theorem Block.percBit_lt {b : Block} {s : SlotId} (h : s.val < 12) : b.percBit s = false := by
  have : percBitIndex s = none := by
    revert h; revert s; decide
  simp [Block.percBit, this]

/-! ### Key processing -/

/-- Key processing leaves a slot alone if neither its line nor the rhythm mode changes (R112,
R133). -/
theorem keyStep_same {c : Cfg} {b0 b1 : Block} {s : SlotId} {sl : SlotState}
    (hr : b0.rhythm = b1.rhythm) (hl : b0.line s = b1.line s) : keyStep c b0 b1 s sl = sl := by
  simp only [keyStep, hr, hl]
  cases b1.rhythm <;> cases b1.line s <;> simp

/-- Key processing changes nothing if no line and no rhythm mode changes. -/
theorem keyProcess_same {c : Cfg} {b0 b1 : Block} (hr : b0.rhythm = b1.rhythm)
    (hl : ∀ s, b0.line s = b1.line s) : keyProcess c b0 b1 = b1 := by
  have : (fun s => keyStep c b0 b1 s (b1.slotAt s)) = b1.slotAt :=
    funext fun s => keyStep_same hr (hl s)
  simp [keyProcess, this]

/-- What key processing can do to a slot: key it on, key it off, force Finish, or nothing. -/
theorem keyStep_cases (c : Cfg) (b0 b1 : Block) (s : SlotId) (sl : SlotState) :
    keyStep c b0 b1 s sl = keyOn sl ∨ keyStep c b0 b1 s sl = keyOff c sl ∨
      keyStep c b0 b1 s sl = forceFinish sl ∨ keyStep c b0 b1 s sl = sl := by
  simp only [keyStep]
  split_ifs <;> simp

/-- What key processing can do to a slot, with the cause of each (R112 to R116). -/
theorem keyStep_causes (c : Cfg) (b0 b1 : Block) (s : SlotId) (sl : SlotState) :
    (b0.line s = false ∧ b1.line s = true ∧ keyStep c b0 b1 s sl = keyOn sl) ∨
      (b0.line s = true ∧ b1.line s = false ∧ b1.role s = .carrier ∧
        keyStep c b0 b1 s sl = keyOff c sl) ∨
      (12 ≤ s.val ∧
        ((b0.rhythm = false ∧ b1.rhythm = true ∧ ¬ (b0.line s = false ∧ b1.line s = true)) ∨
          (b0.rhythm = true ∧ b1.rhythm = false ∧ b0.line s = true ∧ b1.line s = false)) ∧
        keyStep c b0 b1 s sl = forceFinish sl) ∨
      keyStep c b0 b1 s sl = sl := by
  simp only [keyStep]
  split_ifs with h1 h2 h3 h4 h5 h6
  · exact .inl ⟨h2.1, h2.2, rfl⟩
  · exact .inr (.inr (.inl ⟨h1.2.2, .inl ⟨h1.1, h1.2.1, h2⟩, rfl⟩))
  · exact .inr (.inr (.inl ⟨h3.2.2, .inr ⟨h3.1, h3.2.1, h4.1, h4.2⟩, rfl⟩))
  · exact .inr (.inr (.inr rfl))
  · exact .inl ⟨h5.1, h5.2, rfl⟩
  · exact .inr (.inl ⟨h6.1, h6.2.1, h6.2.2, rfl⟩)
  · exact .inr (.inr (.inr rfl))

/-- The slots after key processing. -/
@[simp] theorem slotAt_keyProcess (c : Cfg) (b0 b1 : Block) (s : SlotId) :
    (keyProcess c b0 b1).slotAt s = keyStep c b0 b1 s (b1.slotAt s) := by
  simp [keyProcess]

/-- Registers that no key line and no rhythm mode reads. -/
def quietAddr (a : RegAddr) : Prop := a ≠ 0x0E#6 ∧ ∀ c : Channel, a ≠ channelAddr 0x20#6 c

theorem quietAddr_low {a : RegAddr} (h : a.toNat < 8) : quietAddr a := by
  revert a; unfold quietAddr; decide

theorem quietAddr_fnumLo (c : Channel) : quietAddr (channelAddr 0x10#6 c) := by
  revert c; unfold quietAddr; decide

theorem quietAddr_instVol (c : Channel) : quietAddr (channelAddr 0x30#6 c) := by
  revert c; unfold quietAddr; decide

theorem quietAddr_reserved {a : RegAddr} (h : reservedAddr a = true) : quietAddr a := by
  revert a; unfold quietAddr; decide

/-- A write at a quiet address fires no key event: shadow and class step are all of it (R111,
R112). -/
theorem Block.writeWith_quiet {b : Block} {c : Cfg} {a : RegAddr} {d : Byte} {f : Block → Block}
    (hq : quietAddr a) (hf : (f (b.setReg a d)).reg = (b.setReg a d).reg) :
    b.writeWith c a d f = f (b.setReg a d) := by
  have h0 : b.regAt 0x0E#6 = (f (b.setReg a d)).regAt 0x0E#6 := by
    rw [Block.regAt_congr hf, Block.regAt_setReg_ne _ _ hq.1]
  refine keyProcess_same (Block.rhythm_congr h0) fun s => Block.line_congr h0 s ?_
  apply Block.key_congr
  simp only [Block.chanReg]
  rw [Block.regAt_congr hf, Block.regAt_setReg_ne _ _ (hq.2 _)]

/-- Only the slots and what the class step wrote differ after a register write. -/
theorem Block.writeWith_regAt (b : Block) (c : Cfg) (a : RegAddr) (d : Byte) (f : Block → Block) :
    (b.writeWith c a d f).regAt = (f (b.setReg a d)).regAt := rfl

end Sys2Proof.Machine
end

