-- ==== Sys2Proof/Laws/Calc.lean ====
section
/-! SUPPORT. What CALC does, said once per stage: the views it reads are not changed by its own
steps, each voice touches its own slots and only their output history, and the mix is the sum of
what each voice contributes to the slots as they stood before the mixdown
(spec/44_mixdown.md R231 to R240). -/

namespace Sys2Proof.Machine

/-! ### The views read neither slots nor generators -/

/-- Equal registers, patches and volume latches: what every view of R40 to R54 reads. -/
structure SameControl (b b' : Block) : Prop where
  reg : b.reg = b'.reg
  patch : b.patch = b'.patch
  hh : b.pvolHh = b'.pvolHh
  tom : b.pvolTom = b'.pvolTom

theorem SameControl.symm {b b' : Block} (h : SameControl b b') : SameControl b' b :=
  ⟨h.reg.symm, h.patch.symm, h.hh.symm, h.tom.symm⟩

theorem SameControl.trans {b b' b'' : Block} (h : SameControl b b') (h' : SameControl b' b'') :
    SameControl b b'' :=
  ⟨h.reg.trans h'.reg, h.patch.trans h'.patch, h.hh.trans h'.hh, h.tom.trans h'.tom⟩

theorem sameControl_generators (c : Cfg) (b : Block) : SameControl (generators c b) b :=
  ⟨by simp, by simp, by simp, by simp⟩

theorem sameControl_phaseStage (c : Cfg) (b : Block) : SameControl (phaseStage c b) b :=
  ⟨by simp, by simp, by simp, by simp⟩

theorem sameControl_egStage (c : Cfg) (b : Block) : SameControl (egStage c b) b :=
  ⟨by simp, by simp, by simp, by simp⟩

theorem sameControl_calcPhases (c : Cfg) (b : Block) : SameControl (calcPhases c b) b :=
  (sameControl_phaseStage c _).trans (sameControl_generators c b)

theorem sameControl_calc (c : Cfg) (b : Block) : SameControl (b.calc c) b :=
  ⟨by simp, by simp, by simp, by simp⟩

section views
variable {b b' : Block} (h : SameControl b b')
include h

theorem SameControl.regAt (a : RegAddr) : b.regAt a = b'.regAt a := Block.regAt_congr h.reg a
theorem SameControl.rhythm : b.rhythm = b'.rhythm := Block.rhythm_congr (h.regAt _)
theorem SameControl.chanReg (a : RegAddr) (ch : Channel) : b.chanReg a ch = b'.chanReg a ch :=
  h.regAt _
theorem SameControl.patchOf (s : SlotId) : b.patchOf s = b'.patchOf s :=
  Block.patchOf_congr h.reg h.patch s
theorem SameControl.role (s : SlotId) : b.role s = b'.role s := Block.role_congr h.rhythm s
theorem SameControl.line (s : SlotId) : b.line s = b'.line s :=
  Block.line_congr (h.regAt _) s (Block.key_congr (h.chanReg _ _))
theorem SameControl.sustain (s : SlotId) : b.sustain s = b'.sustain s := by
  simp [Block.sustain, h.role, h.chanReg]
theorem SameControl.level (c : Cfg) (s : SlotId) : b.level c s = b'.level c s := by
  simp [Block.level, Block.volume, h.role, h.chanReg, h.patchOf, h.rhythm, h.hh, h.tom]
theorem SameControl.fnum (ch : Channel) : b.fnum ch = b'.fnum ch := by
  simp [Block.fnum, h.chanReg]
theorem SameControl.blockNo (ch : Channel) : b.blockNo ch = b'.blockNo ch := by
  simp [Block.blockNo, h.chanReg]
theorem SameControl.dphase (c : Cfg) (s : SlotId) : b.dphase c s = b'.dphase c s := by
  simp [Block.dphase, h.fnum, h.blockNo, h.patchOf]
theorem SameControl.rks (c : Cfg) (s : SlotId) : b.rks c s = b'.rks c s := by
  simp [Block.rks, h.fnum, h.blockNo, h.patchOf]
theorem SameControl.tll (c : Cfg) (s : SlotId) : b.tll c s = b'.tll c s := by
  simp [Block.tll, h.fnum, h.blockNo, h.patchOf, h.level]
theorem SameControl.wf (s : SlotId) : b.wf s = b'.wf s := by simp [Block.wf, h.patchOf]
theorem SameControl.egRate (c : Cfg) (s : SlotId) (m : EgMode) :
    b.egRate c s m = b'.egRate c s m := by
  cases m <;> simp [Block.egRate, h.patchOf, h.rks, h.sustain]

end views

/-! ### Slots through the first two steps -/

@[simp] theorem slotAt_generators (c : Cfg) (b : Block) (s : SlotId) :
    (generators c b).slotAt s = b.slotAt s := by simp [Block.slotAt]

@[simp] theorem slotAt_phaseStage (c : Cfg) (b : Block) (s : SlotId) :
    (phaseStage c b).slotAt s =
      { b.slotAt s with phase := phaseAdd c (b.slotAt s).phase (phaseInc c b s) } := by
  simp [phaseStage]

@[simp] theorem slotAt_egStage (c : Cfg) (b : Block) (s : SlotId) :
    (egStage c b).slotAt s = (b.envelope c s).slot := by simp [egStage]

@[simp] theorem calcPhases_amPhase (c : Cfg) (b : Block) :
    (calcPhases c b).amPhase = (b.amPhase + c.amDphase) % 2 ^ c.amDpBits := by simp [calcPhases]

@[simp] theorem calcPhases_noise (c : Cfg) (b : Block) :
    (calcPhases c b).noise = noiseNext c b.noise := by simp [calcPhases]

@[simp] theorem calcPhases_naPhase (c : Cfg) (b : Block) :
    (calcPhases c b).naPhase = c.naStep b.naPhase := by simp [calcPhases]

@[simp] theorem calcPhases_nbPhase (c : Cfg) (b : Block) :
    (calcPhases c b).nbPhase = c.nbStep b.nbPhase := by simp [calcPhases]

@[simp] theorem calcPhases_mask (c : Cfg) (b : Block) :
    (calcPhases c b).mask = b.mask := by simp [calcPhases]

/-- The increment of this CALC, from the block before it (R151, R156). -/
theorem phaseInc_generators (c : Cfg) (b : Block) (s : SlotId) :
    phaseInc c (generators c b) s =
      if (b.patchOf s).pm then
        c.pmApply (b.dphase c s)
          (c.pmTable (((b.pmPhase + c.pmDphase) % 2 ^ c.pmDpBits) >>> (c.pmDpBits - c.pmPgBits)))
      else b.dphase c s := by
  have h := sameControl_generators c b
  simp [phaseInc, h.patchOf, h.dphase, lfoPm]

/-- The phase of every slot after CALC's phase step (R157, R159). -/
theorem slotAt_calcPhases (c : Cfg) (b : Block) (s : SlotId) :
    (calcPhases c b).slotAt s =
      { b.slotAt s with
        phase := phaseAdd c (b.slotAt s).phase (phaseInc c (generators c b) s) } := by
  simp [calcPhases]

/-- The envelope step of CALC, read off the block before it. -/
theorem envelope_calcPhases (c : Cfg) (b : Block) (s : SlotId) :
    (calcPhases c b).envelope c s =
      egStep c (b.patchOf s) (b.egRate c s (b.slotAt s).egMode)
        { b.slotAt s with
          phase := phaseAdd c (b.slotAt s).phase (phaseInc c (generators c b) s) } := by
  have h := sameControl_calcPhases c b
  simp [Block.envelope, h.patchOf, h.egRate, slotAt_calcPhases]

/-- The accumulated phase stays below 2^DP_BITS (R28, R157). -/
theorem phaseAdd_lt (c : Cfg) (p : BitVec 32) (inc : Nat) :
    (phaseAdd c p inc).toNat < 2 ^ c.dpBits := by
  have h1 : (p.toNat + inc) % 2 ^ c.dpBits < 2 ^ c.dpBits := Nat.mod_lt _ (Nat.two_pow_pos _)
  have h2 : 2 ^ c.dpBits ≤ 2 ^ 32 := Nat.pow_le_pow_right (by decide) c.dpBits_le
  rw [phaseAdd, BitVec.toNat_ofNat, Nat.mod_eq_of_lt (by omega)]
  exact h1

theorem phaseAdd_toNat (c : Cfg) (p : BitVec 32) (inc : Nat) :
    (phaseAdd c p inc).toNat = (p.toNat + inc) % 2 ^ c.dpBits := by
  have h1 : (p.toNat + inc) % 2 ^ c.dpBits < 2 ^ c.dpBits := Nat.mod_lt _ (Nat.two_pow_pos _)
  have h2 : 2 ^ c.dpBits ≤ 2 ^ 32 := Nat.pow_le_pow_right (by decide) c.dpBits_le
  rw [phaseAdd, BitVec.toNat_ofNat, Nat.mod_eq_of_lt (by omega)]

/-! ### Envelope steps -/

/-- An envelope step touches only the mode and the accumulator. -/
theorem egStep_other (c : Cfg) (p : Patch) (rate : Nat) (sl : SlotState) :
    (egStep c p rate sl).slot.phase = sl.phase ∧ (egStep c p rate sl).slot.out0 = sl.out0 ∧
      (egStep c p rate sl).slot.out1 = sl.out1 ∧
      (egStep c p rate sl).slot.feedback = sl.feedback := by
  unfold egStep
  split
  · unfold attackStep; split <;> simp
  · simp only [decayStep]; split <;> simp
  · simp only [sustainHoldStep]; split <;> simp
  · unfold fadeStep; split <;> simp
  · unfold fadeStep; split <;> simp
  · simp
  · simp

/-- The mode and accumulator after an envelope step do not depend on the phase or the history. -/
theorem egStep_phase (c : Cfg) (p : Patch) (rate : Nat) (sl : SlotState) (ph : BitVec 32) :
    (egStep c p rate { sl with phase := ph }).slot =
        { (egStep c p rate sl).slot with phase := ph } ∧
      (egStep c p rate { sl with phase := ph }).e = (egStep c p rate sl).e := by
  unfold egStep
  cases h : sl.egMode <;> simp only [attackStep, decayStep, sustainHoldStep, fadeStep] <;>
    (try split) <;> simp_all

theorem attackStep_done {c : Cfg} {p : Patch} {rate : Nat} {sl : SlotState}
    (h : 2 ^ c.egDpBits ≤ sl.egPhase + rate ∨ c.attackInstant p.ar = true) :
    attackStep c p rate sl = { slot := { sl with egPhase := 0, egMode := .decay }, e := 0 } :=
  if_pos h

theorem attackStep_continue {c : Cfg} {p : Patch} {rate : Nat} {sl : SlotState}
    (h : ¬ (2 ^ c.egDpBits ≤ sl.egPhase + rate ∨ c.attackInstant p.ar = true)) :
    attackStep c p rate sl =
      { slot := { sl with egPhase := sl.egPhase + rate }, e := c.arAdjust (sl.egPhase >>> c.egSh) } :=
  if_neg h

/-- The shift of the envelope accumulator as a quotient. -/
theorem shiftRight_egSh (c : Cfg) (x : Nat) : x >>> c.egSh = x / 2 ^ (c.egDpBits - c.egBits) := by
  rw [Nat.shiftRight_eq_div_pow, Cfg.egSh]

/-! ### Voices and the slots they own -/

theorem Voice.owns_skipSlot (v : Voice) : v.owns v.skipSlot := by
  cases v <;> simp [Voice.owns, Voice.skipSlot]

/-- A slot's fields outside the output history. -/
def SlotState.SameControl (a b : SlotState) : Prop :=
  a.phase = b.phase ∧ a.egMode = b.egMode ∧ a.egPhase = b.egPhase

theorem modStage_sameControl (c : Cfg) (p : Patch) (pg eg : Nat) (sl : SlotState) :
    (modStage c p pg eg sl).SameControl sl := ⟨rfl, rfl, rfl⟩

theorem carStage_sameControl (c : Cfg) (p : Patch) (pg eg : Nat) (fm : Int) (sl : SlotState) :
    (carStage c p pg eg fm sl).SameControl sl := ⟨rfl, rfl, rfl⟩

theorem percStage_sameControl (c : Cfg) (v : PercVoice) (x : PercIn) (sl : SlotState) :
    (percStage c v x sl).SameControl sl := ⟨rfl, rfl, rfl⟩

theorem channelOut_get (c : Cfg) (b : Block) (t : Temps) (ch : Channel)
    (slots : Vector SlotState 18) (s : SlotId) :
    (channelOut c b t ch slots).slots[s.val] =
      if s = carSlot ch then
        carStage c (b.patchOf (carSlot ch)) (t.pgout (carSlot ch)) (t.egout (carSlot ch))
          (modStage c (b.patchOf (modSlot ch)) (t.pgout (modSlot ch)) (t.egout (modSlot ch))
            slots[(modSlot ch).val]).feedback slots[(carSlot ch).val]
      else if s = modSlot ch then
        modStage c (b.patchOf (modSlot ch)) (t.pgout (modSlot ch)) (t.egout (modSlot ch))
          slots[(modSlot ch).val]
      else slots[s.val] := by
  simp only [channelOut, Vector.getElem_set, Fin.ext_iff, eq_comm]

theorem percOut_get (c : Cfg) (b : Block) (t : Temps) (v : PercVoice)
    (slots : Vector SlotState 18) (s : SlotId) :
    (percOut c b t v slots).slots[s.val] =
      if s = percSlot v then percStage c v (percInput b t v) slots[(percSlot v).val]
      else slots[s.val] := by
  simp only [percOut, Vector.getElem_set, Fin.ext_iff, eq_comm]

/-- The stages of a voice leave every other slot alone. -/
theorem runVoice_other {c : Cfg} {b : Block} {t : Temps} {slots : Vector SlotState 18} {v : Voice}
    {s : SlotId} (h : ¬ v.owns s) : (runVoice c b t slots v).slots[s.val] = slots[s.val] := by
  cases v with
  | channel ch =>
    simp only [Voice.owns, not_or] at h
    simp [runVoice, channelOut_get, h.1, h.2]
  | bd =>
    simp only [Voice.owns, not_or] at h
    have h1 : s ≠ carSlot 6 := h.2
    have h2 : s ≠ modSlot 6 := h.1
    simp [runVoice, channelOut_get, h1, h2]
  | perc v =>
    simp only [Voice.owns] at h
    simp [runVoice, percOut_get, h]

/-- The stages of a voice move only the output history of a slot. -/
theorem runVoice_sameControl (c : Cfg) (b : Block) (t : Temps) (slots : Vector SlotState 18)
    (v : Voice) (s : SlotId) :
    ((runVoice c b t slots v).slots[s.val]).SameControl slots[s.val] := by
  cases v with
  | channel ch =>
    simp only [runVoice, channelOut_get]
    split_ifs with h1 h2
    · subst h1; exact carStage_sameControl ..
    · subst h2; exact modStage_sameControl ..
    · exact ⟨rfl, rfl, rfl⟩
  | bd =>
    simp only [runVoice, channelOut_get]
    split_ifs with h1 h2
    · subst h1; exact carStage_sameControl ..
    · subst h2; exact modStage_sameControl ..
    · exact ⟨rfl, rfl, rfl⟩
  | perc v =>
    simp only [runVoice, percOut_get]
    split_ifs with h1
    · subst h1; exact percStage_sameControl ..
    · exact ⟨rfl, rfl, rfl⟩

/-- What a voice gives depends on its own slots only (R232). -/
theorem runVoice_congr {c : Cfg} {b : Block} {t : Temps} {x y : Vector SlotState 18} {v : Voice}
    (h : ∀ s : SlotId, v.owns s → x[s.val] = y[s.val]) :
    (runVoice c b t x v).value = (runVoice c b t y v).value ∧
      ∀ s : SlotId, v.owns s →
        (runVoice c b t x v).slots[s.val] = (runVoice c b t y v).slots[s.val] := by
  cases v with
  | channel ch =>
    have hm := h (modSlot ch) (Or.inl rfl)
    have hc := h (carSlot ch) (Or.inr rfl)
    refine ⟨by simp [runVoice, channelOut, hm, hc], fun s hs => ?_⟩
    simp only [runVoice, channelOut_get, hm, hc]
    split_ifs with h1 h2
    · rfl
    · rfl
    · exact h s hs
  | bd =>
    have hm := h (modSlot 6) (Or.inl rfl)
    have hc := h (carSlot 6) (Or.inr rfl)
    refine ⟨by simp [runVoice, channelOut, hm, hc], fun s hs => ?_⟩
    simp only [runVoice, channelOut_get, hm, hc]
    split_ifs with h1 h2
    · rfl
    · rfl
    · exact h s hs
  | perc v =>
    have hm := h (percSlot v) rfl
    refine ⟨by simp [runVoice, percOut, hm], fun s hs => ?_⟩
    simp only [runVoice, percOut_get, hm]
    split_ifs with h1
    · rfl
    · exact h s hs

theorem channelOut_value (c : Cfg) (b : Block) (t : Temps) (ch : Channel)
    (slots : Vector SlotState 18) :
    (channelOut c b t ch slots).value = (channelOut c b t ch slots).slots[(carSlot ch).val].mean := by
  simp [channelOut]

/-- A voice's value is the mean of its skip-test slot's last two raw outputs (R210, R233). -/
theorem runVoice_value (c : Cfg) (b : Block) (t : Temps) (slots : Vector SlotState 18)
    (v : Voice) :
    (runVoice c b t slots v).value = (runVoice c b t slots v).slots[v.skipSlot.val].mean := by
  cases v with
  | channel ch => exact channelOut_value c b t ch slots
  | bd => exact channelOut_value c b t 6 slots
  | perc v => simp [runVoice, percOut, Voice.skipSlot]

/-! ### One voice of the mixdown -/

/-- The slots after a voice: skipped whole in Finish, run otherwise, masked or not (R234, R235). -/
theorem mixVoice_slots (c : Cfg) (b : Block) (t : Temps) (m : Mix) (v : Voice) :
    (mixVoice c b t m v).slots =
      if m.slots[v.skipSlot.val].egMode = .finish then m.slots
      else (runVoice c b t m.slots v).slots := by
  unfold mixVoice
  by_cases h : m.slots[v.skipSlot.val].egMode = .finish
  · simp [h]
  · simp only [h, ↓reduceIte]
    split
    · rfl
    · cases v <;> rfl

/-- What a voice adds to its sum: nothing if skipped or masked (R234, R235). -/
def contribution (c : Cfg) (b : Block) (t : Temps) (slots : Vector SlotState 18) (v : Voice) :
    Int :=
  if slots[v.skipSlot.val].egMode = .finish ∨ b.mask.getLsbD v.maskBit = true then 0
  else (runVoice c b t slots v).value

/-- A percussion voice, summed into `perc`. -/
def Voice.percussive : Voice → Bool
  | .channel _ => false
  | .bd => true
  | .perc _ => true

theorem mixVoice_inst (c : Cfg) (b : Block) (t : Temps) (m : Mix) (v : Voice) :
    (mixVoice c b t m v).inst =
      m.inst + if v.percussive then 0 else contribution c b t m.slots v := by
  unfold mixVoice contribution
  by_cases h : m.slots[v.skipSlot.val].egMode = .finish
  · simp [h]
  · by_cases hm : b.mask.getLsbD v.maskBit = true
    · simp [h, hm]
    · cases v <;> simp [h, hm, Mix.add, Voice.percussive]

theorem mixVoice_perc (c : Cfg) (b : Block) (t : Temps) (m : Mix) (v : Voice) :
    (mixVoice c b t m v).perc =
      m.perc + if v.percussive then contribution c b t m.slots v else 0 := by
  unfold mixVoice contribution
  by_cases h : m.slots[v.skipSlot.val].egMode = .finish
  · simp [h]
  · by_cases hm : b.mask.getLsbD v.maskBit = true
    · simp [h, hm]
    · cases v <;> simp [h, hm, Mix.add, Voice.percussive]

theorem mixVoice_sameControl (c : Cfg) (b : Block) (t : Temps) (m : Mix) (v : Voice) (s : SlotId) :
    ((mixVoice c b t m v).slots[s.val]).SameControl m.slots[s.val] := by
  rw [mixVoice_slots]
  split
  · exact ⟨rfl, rfl, rfl⟩
  · exact runVoice_sameControl ..

theorem mixVoice_other {c : Cfg} {b : Block} {t : Temps} {m : Mix} {v : Voice} {s : SlotId}
    (h : ¬ v.owns s) : (mixVoice c b t m v).slots[s.val] = m.slots[s.val] := by
  rw [mixVoice_slots]
  split
  · rfl
  · exact runVoice_other h

theorem contribution_congr {c : Cfg} {b : Block} {t : Temps} {x y : Vector SlotState 18}
    {v : Voice} (h : ∀ s : SlotId, v.owns s → x[s.val] = y[s.val]) :
    contribution c b t x v = contribution c b t y v := by
  simp only [contribution, h _ v.owns_skipSlot, (runVoice_congr h).1]

/-! ### The whole mixdown -/

/-- Two voices with a slot in common. -/
def Voice.Disjoint (v w : Voice) : Prop := ∀ s : SlotId, ¬ (v.owns s ∧ w.owns s)

/-- The voices of one CALC own disjoint slots (R233). -/
theorem voices_disjoint (r : Bool) : (voices r).Pairwise Voice.Disjoint := by
  have key : ∀ v w : Voice, v ∈ voices r → w ∈ voices r → v ≠ w → v.Disjoint w := by
    intro v w hv hw hne s hs
    cases r <;>
      simp only [voices, Bool.false_eq_true, ↓reduceIte, List.cons_append, List.nil_append,
        List.mem_cons, List.not_mem_nil, or_false] at hv hw <;>
      rcases hv with rfl | rfl | rfl | rfl | rfl | rfl | rfl | rfl | rfl | rfl | rfl <;>
      rcases hw with rfl | rfl | rfl | rfl | rfl | rfl | rfl | rfl | rfl | rfl | rfl <;>
      first
        | exact hne rfl
        | (revert hs; revert s; simp only [Voice.owns, percSlot]; decide)
  have hnd : (voices r).Nodup := by cases r <;> decide
  exact List.Pairwise.imp_of_mem (fun hv hw hne => key _ _ hv hw hne) hnd

section fold
variable {c : Cfg} {b : Block} {t : Temps}

theorem foldl_sameControl (l : List Voice) (m : Mix) (s : SlotId) :
    ((l.foldl (mixVoice c b t) m).slots[s.val]).SameControl m.slots[s.val] := by
  induction l generalizing m with
  | nil => exact ⟨rfl, rfl, rfl⟩
  | cons v l ih =>
    obtain ⟨h1, h2, h3⟩ := ih (mixVoice c b t m v)
    obtain ⟨g1, g2, g3⟩ := mixVoice_sameControl c b t m v s
    exact ⟨h1.trans g1, h2.trans g2, h3.trans g3⟩

theorem foldl_other {l : List Voice} {s : SlotId} (h : ∀ v ∈ l, ¬ v.owns s) (m : Mix) :
    (l.foldl (mixVoice c b t) m).slots[s.val] = m.slots[s.val] := by
  induction l generalizing m with
  | nil => rfl
  | cons v l ih =>
    rw [List.foldl_cons, ih (fun w hw => h w (List.mem_cons_of_mem _ hw)),
      mixVoice_other (h v List.mem_cons_self)]

/-- The slots of a voice after the whole mixdown are those its own stages leave (R232). -/
theorem foldl_own {l : List Voice} (hd : l.Pairwise Voice.Disjoint) {v : Voice} (hv : v ∈ l)
    {s : SlotId} (hs : v.owns s) (m : Mix) :
    (l.foldl (mixVoice c b t) m).slots[s.val] = (mixVoice c b t m v).slots[s.val] := by
  induction l generalizing m with
  | nil => cases hv
  | cons w l ih =>
    obtain ⟨hw, hl⟩ := List.pairwise_cons.mp hd
    rw [List.foldl_cons]
    rcases List.mem_cons.mp hv with rfl | hv
    · exact foldl_other (fun u hu ho => hw u hu s ⟨hs, ho⟩) _
    · rw [ih hl hv]
      have hagree : ∀ u : SlotId, v.owns u →
          (mixVoice c b t m w).slots[u.val] = m.slots[u.val] := fun u hu =>
        mixVoice_other fun ho => hw v hv u ⟨ho, hu⟩
      rw [mixVoice_slots (m := mixVoice c b t m w), mixVoice_slots (m := m) (v := v),
        hagree _ v.owns_skipSlot]
      split
      · exact hagree s hs
      · exact (runVoice_congr hagree).2 s hs

/-- Both sums of the mixdown are the sums of what the voices contribute to the slots as they stood
before it (R232, R236 to R238). -/
theorem foldl_sums {l : List Voice} (hd : l.Pairwise Voice.Disjoint) (m : Mix) :
    (l.foldl (mixVoice c b t) m).inst =
        m.inst + ((l.filter fun v => !v.percussive).map (contribution c b t m.slots)).sum ∧
      (l.foldl (mixVoice c b t) m).perc =
        m.perc + ((l.filter fun v => v.percussive).map (contribution c b t m.slots)).sum := by
  induction l generalizing m with
  | nil => simp
  | cons w l ih =>
    obtain ⟨hw, hl⟩ := List.pairwise_cons.mp hd
    have hc : ∀ v ∈ l, contribution c b t (mixVoice c b t m w).slots v =
        contribution c b t m.slots v := fun v hv =>
      contribution_congr fun u hu => mixVoice_other fun ho => hw v hv u ⟨ho, hu⟩
    obtain ⟨h1, h2⟩ := ih hl (mixVoice c b t m w)
    rw [List.foldl_cons, h1, h2, mixVoice_inst, mixVoice_perc]
    have e1 : (l.filter fun v => !v.percussive).map (contribution c b t (mixVoice c b t m w).slots)
        = (l.filter fun v => !v.percussive).map (contribution c b t m.slots) :=
      List.map_congr_left fun v hv => hc v (List.mem_filter.mp hv).1
    have e2 : (l.filter fun v => v.percussive).map (contribution c b t (mixVoice c b t m w).slots)
        = (l.filter fun v => v.percussive).map (contribution c b t m.slots) :=
      List.map_congr_left fun v hv => hc v (List.mem_filter.mp hv).1
    rw [e1, e2]
    cases hp : w.percussive <;> simp [hp] <;> omega

end fold

/-! ### CALC as a whole -/

/-- CALC keeps what the envelope stage left in every slot but the output history. -/
theorem calc_sameControl (c : Cfg) (b : Block) (s : SlotId) :
    ((b.calc c).slotAt s).SameControl ((egStage c (calcPhases c b)).slotAt s) := by
  simp only [Block.slotAt, Block.calc_slot, calcMix, mixdown]
  exact foldl_sameControl (voices (egStage c (calcPhases c b)).rhythm)
    { slots := (egStage c (calcPhases c b)).slot, inst := 0, perc := 0 } s

/-- The phase of a slot after CALC (R157). -/
theorem calc_phase (c : Cfg) (b : Block) (s : SlotId) :
    ((b.calc c).slotAt s).phase =
      phaseAdd c (b.slotAt s).phase (phaseInc c (generators c b) s) := by
  rw [(calc_sameControl c b s).1, slotAt_egStage, envelope_calcPhases, (egStep_phase ..).1]

/-- The envelope mode of a slot after CALC (R171 to R178). -/
theorem calc_egMode (c : Cfg) (b : Block) (s : SlotId) :
    ((b.calc c).slotAt s).egMode = (b.envelope c s).slot.egMode := by
  rw [(calc_sameControl c b s).2.1, slotAt_egStage, envelope_calcPhases, (egStep_phase ..).1]
  simp only [Block.envelope]

/-- The envelope accumulator of a slot after CALC (R173 to R178). -/
theorem calc_egPhase (c : Cfg) (b : Block) (s : SlotId) :
    ((b.calc c).slotAt s).egPhase = (b.envelope c s).slot.egPhase := by
  rw [(calc_sameControl c b s).2.2, slotAt_egStage, envelope_calcPhases, (egStep_phase ..).1]
  simp only [Block.envelope]

/-- The slots that the mixdown of a CALC starts from: only phase and envelope have moved. -/
theorem egStage_calcPhases_slotAt (c : Cfg) (b : Block) (s : SlotId) :
    (egStage c (calcPhases c b)).slotAt s =
      { (b.envelope c s).slot with
        phase := phaseAdd c (b.slotAt s).phase (phaseInc c (generators c b) s) } := by
  rw [slotAt_egStage, envelope_calcPhases, (egStep_phase ..).1]
  rfl

/-- The slots of a voice after a CALC, from the block before it: what its own stages leave if it is
not skipped (R232, R234). -/
theorem calc_slot_own (c : Cfg) (b : Block) {v : Voice} (hv : v ∈ voices b.rhythm) {s : SlotId}
    (hs : v.owns s) :
    (b.calc c).slotAt s =
      if b.endMode c v.skipSlot = .finish then (egStage c (calcPhases c b)).slotAt s
      else (runVoice c (egStage c (calcPhases c b)) (b.temps c)
        (egStage c (calcPhases c b)).slot v).slots[s.val] := by
  have hr : (egStage c (calcPhases c b)).rhythm = b.rhythm :=
    ((sameControl_egStage c _).trans (sameControl_calcPhases c b)).rhythm
  have hm : (egStage c (calcPhases c b)).slot[v.skipSlot.val].egMode = b.endMode c v.skipSlot := by
    have h := congrArg SlotState.egMode (egStage_calcPhases_slotAt c b v.skipSlot)
    exact h
  simp only [Block.slotAt, Block.calc_slot, calcMix, mixdown, hr]
  rw [foldl_own (voices_disjoint _) hv hs, mixVoice_slots, hm]
  split <;> rfl

/-- The output history that the mixdown of a CALC starts from is the one before the CALC (R211). -/
theorem egStage_history (c : Cfg) (b : Block) (s : SlotId) :
    (egStage c (calcPhases c b)).slot[s.val].out0 = (b.slotAt s).out0 ∧
      (egStage c (calcPhases c b)).slot[s.val].out1 = (b.slotAt s).out1 ∧
      (egStage c (calcPhases c b)).slot[s.val].feedback = (b.slotAt s).feedback := by
  have e : (egStage c (calcPhases c b)).slot[s.val] = _ := egStage_calcPhases_slotAt c b s
  have h := egStep_other c (b.patchOf s) (b.egRate c s (b.slotAt s).egMode) (b.slotAt s)
  rw [e]
  exact ⟨h.2.1, h.2.2.1, h.2.2.2⟩

theorem sameControl_mixdown (c : Cfg) (b : Block) :
    SameControl (egStage c (calcPhases c b)) b :=
  (sameControl_egStage _ _).trans (sameControl_calcPhases _ _)

/-- When CALC completes and what it gives. -/
theorem execCalc_next {s : State} (h : ∀ k : SlotId, (s.block.slotAt k).egMode ≠ .settle) :
    execCalc s = .next { s with
      block := s.block.calc Config.cfg
      samples := sampleOf (calcMix Config.cfg s.block).sample :: s.samples } := by
  simp only [execCalc, Block.firstSettle_none.mpr h]

/-- When CALC faults and with which slot (R179, R267). -/
theorem execCalc_fault {s : State} {k : SlotId} (h : s.block.firstSettle = some k) :
    execCalc s = .fault (.settleUnmodelled k) := by
  simp only [execCalc, h]

end Sys2Proof.Machine
end

