-- ==== Sys2Proof/Laws/Decode.lean ====
section
/-! SUPPORT. The fields of an encoded word, the class of a register address, and what the decoder
reads from an encoded word (spec/30_encoding.md R82 to R86). -/

namespace Sys2Proof

open Sys2Proof.Machine

/-! ### The fields of a word (R82) -/

@[simp] theorem wordKind_commandWord (k : BitVec 4) (hi lo : Byte) :
    wordKind (commandWord k hi lo) = k := by
  apply BitVec.eq_of_getLsbD_eq
  intro i h
  interval_cases i <;> simp [commandWord, wordKind]

@[simp] theorem wordZero_commandWord (k : BitVec 4) (hi lo : Byte) :
    wordZero (commandWord k hi lo) = 0#12 := by
  apply BitVec.eq_of_getLsbD_eq
  intro i h
  interval_cases i <;> simp [commandWord, wordZero]

@[simp] theorem wordHi_commandWord (k : BitVec 4) (hi lo : Byte) :
    wordHi (commandWord k hi lo) = hi := by
  apply BitVec.eq_of_getLsbD_eq
  intro i h
  interval_cases i <;> simp [commandWord, wordHi]

@[simp] theorem wordData_commandWord (k : BitVec 4) (hi lo : Byte) :
    wordData (commandWord k hi lo) = lo := by
  apply BitVec.eq_of_getLsbD_eq
  intro i h
  interval_cases i <;> simp [commandWord, wordData]

@[simp] theorem wordKind_setMask (m : BitVec 16) : wordKind (encode (.setMask m)) = 0x4#4 := by
  apply BitVec.eq_of_getLsbD_eq
  intro i h
  interval_cases i <;> simp [encode, wordKind]

@[simp] theorem wordZero_setMask (m : BitVec 16) : wordZero (encode (.setMask m)) = 0#12 := by
  apply BitVec.eq_of_getLsbD_eq
  intro i h
  interval_cases i <;> simp [encode, wordZero]

@[simp] theorem wordMask_setMask (m : BitVec 16) : wordMask (encode (.setMask m)) = m := by
  apply BitVec.eq_of_getLsbD_eq
  intro i h
  interval_cases i <;> simp [encode, wordMask]

/-- A word is its four fields (R82). -/
theorem word_ext {x y : Word} (hk : wordKind x = wordKind y) (hz : wordZero x = wordZero y)
    (hh : wordHi x = wordHi y) (hd : wordData x = wordData y) : x = y := by
  apply BitVec.eq_of_getLsbD_eq
  intro i hi
  have k := congrArg (fun v => BitVec.getLsbD v (i - 28)) hk
  have z := congrArg (fun v => BitVec.getLsbD v (i - 16)) hz
  have h := congrArg (fun v => BitVec.getLsbD v (i - 8)) hh
  have d := congrArg (fun v => BitVec.getLsbD v i) hd
  simp only [wordKind, wordZero, wordHi, wordData, BitVec.getLsbD_extractLsb'] at k z h d
  by_cases a1 : i < 8
  · simpa [a1] using d
  by_cases a2 : i < 16
  · simpa [show i - 8 < 8 by omega, show 8 + (i - 8) = i by omega] using h
  by_cases a3 : i < 28
  · simpa [show i - 16 < 12 by omega, show 16 + (i - 16) = i by omega] using z
  · simpa [show i - 28 < 4 by omega, show 28 + (i - 28) = i by omega] using k

/-! ### Register addresses (R62, R85) -/

theorem effAddr_toNat (x : Byte) : (effAddr x).toNat = x.toNat % 64 := by
  revert x; decide

@[simp] theorem effAddr_setWidth (a : RegAddr) : effAddr (a.setWidth 8) = a := by
  revert a; decide

theorem regClass_fnumLo (c : Channel) : regClass (channelAddr 0x10#6 c) = .fnumLo c := by
  revert c; decide

theorem regClass_blkKey (c : Channel) : regClass (channelAddr 0x20#6 c) = .blkKey c := by
  revert c; decide

theorem regClass_instVol (c : Channel) : regClass (channelAddr 0x30#6 c) = .instVol c := by
  revert c; decide

theorem regClass_reserved {a : RegAddr} (h : reservedAddr a = true) :
    regClass a = .reserved a := by
  revert a; decide

/-- The class of every address, in plain numbers (R85). -/
theorem regClass_eq (a : RegAddr) :
    regClass a =
      if a.toNat = 0x00 then .ampmMod
      else if a.toNat = 0x01 then .ampmCar
      else if a.toNat = 0x02 then .klTl
      else if a.toNat = 0x03 then .klWfFb
      else if a.toNat = 0x04 then .arDrMod
      else if a.toNat = 0x05 then .arDrCar
      else if a.toNat = 0x06 then .slRrMod
      else if a.toNat = 0x07 then .slRrCar
      else if a.toNat = 0x0E then .rhythm
      else if 0x10 ≤ a.toNat ∧ a.toNat ≤ 0x18 then .fnumLo (Fin.ofNat 9 (a.toNat - 0x10))
      else if 0x20 ≤ a.toNat ∧ a.toNat ≤ 0x28 then .blkKey (Fin.ofNat 9 (a.toNat - 0x20))
      else if 0x30 ≤ a.toNat ∧ a.toNat ≤ 0x38 then .instVol (Fin.ofNat 9 (a.toNat - 0x30))
      else .reserved (BitVec.ofNat 6 a.toNat) := by
  revert a; decide

theorem decodeReg_eq (a : RegAddr) (d : Byte) : decodeReg a d = writeRow a.toNat d := by
  simp only [decodeReg, regClass_eq, apply_ite (fun k => RegClass.instr k d), writeRow]
  rfl

/-- The address that a class stands for. -/
def RegClass.addr : RegClass → RegAddr
  | .ampmMod => 0x00#6
  | .ampmCar => 0x01#6
  | .klTl => 0x02#6
  | .klWfFb => 0x03#6
  | .arDrMod => 0x04#6
  | .arDrCar => 0x05#6
  | .slRrMod => 0x06#6
  | .slRrCar => 0x07#6
  | .rhythm => 0x0E#6
  | .fnumLo c => channelAddr 0x10#6 c
  | .blkKey c => channelAddr 0x20#6 c
  | .instVol c => channelAddr 0x30#6 c
  | .reserved a => a

theorem regClass_addr (a : RegAddr) : (regClass a).addr = a := by revert a; decide

theorem encode_classInstr (k : RegClass) (d : Byte) : encode (k.instr d) = regWord k.addr d := by
  cases k <;> rfl

theorem encode_decodeReg (a : RegAddr) (d : Byte) : encode (decodeReg a d) = regWord a d := by
  rw [decodeReg, encode_classInstr, regClass_addr]

/-- A reserved class carries a reserved address (R85 row 13, R99). -/
theorem reservedAddr_of_regClass {a a' : RegAddr} (h : regClass a = .reserved a') :
    reservedAddr a' = true := by
  revert a a'; decide

theorem wf_decodeReg (a : RegAddr) (d : Byte) : (decodeReg a d).wf = true := by
  rw [decodeReg]
  cases h : regClass a with
  | reserved a' => exact reservedAddr_of_regClass h
  | _ => rfl

/-! ### The decoder by kind (R82 to R86) -/

theorem decode_kind0 {w : Word} (hz : wordZero w = 0#12) (hk : wordKind w = 0x0#4) :
    decode w = .ok (decodeReg (effAddr (wordHi w)) (wordData w)) := by
  simp [decode, hz, hk]

theorem decode_kind1 {w : Word} (hz : wordZero w = 0#12) (hk : wordKind w = 0x1#4) :
    decode w = if (wordHi w).getLsbD 0 then .ok (.ioData (wordData w))
      else .ok (.ioAddr (wordData w)) := by
  simp [decode, hz, hk]

theorem decode_regWord (a : RegAddr) (d : Byte) : decode (regWord a d) = .ok (decodeReg a d) := by
  simp [decode, regWord]

/-- Bits 27:16 of a word that decodes are 0 (R84). -/
theorem decode_zero {w : Word} {i : Instr} (h : decode w = .ok i) : wordZero w = 0#12 := by
  by_contra hz
  simp [decode, hz] at h

end Sys2Proof
end

