-- ==== Sys2Proof/Laws/Exec.lean ====
section
/-! SUPPORT. Everything a command can do, said once: `exec_cases` inverts `exec`, and `PatchStep`
says what a class step of a register write may touch (spec/40_register_writes.md R111, R117 to
R131). -/

namespace Sys2Proof.Machine

/-! ### Class steps -/

/-- What a class step leaves alone: everything but patches 0 and 1 and the volume latches. -/
structure PatchStep (f : Block → Block) : Prop where
  reg : ∀ b, (f b).reg = b.reg
  slot : ∀ b, (f b).slot = b.slot
  pmPhase : ∀ b, (f b).pmPhase = b.pmPhase
  amPhase : ∀ b, (f b).amPhase = b.amPhase
  noise : ∀ b, (f b).noise = b.noise
  naPhase : ∀ b, (f b).naPhase = b.naPhase
  nbPhase : ∀ b, (f b).nbPhase = b.nbPhase
  ioAddr : ∀ b, (f b).ioAddr = b.ioAddr
  mask : ∀ b, (f b).mask = b.mask
  patch : ∀ b (p : PatchId), 2 ≤ p.val → (f b).patchAt p = b.patchAt p

theorem patchStep_id : PatchStep id :=
  ⟨fun _ => rfl, fun _ => rfl, fun _ => rfl, fun _ => rfl, fun _ => rfl, fun _ => rfl,
    fun _ => rfl, fun _ => rfl, fun _ => rfl, fun _ _ _ => rfl⟩

theorem patchStep_modifyPatch {p : PatchId} (hp : p.val < 2) (g : Patch → Patch) :
    PatchStep fun b => b.modifyPatch p g := by
  refine ⟨fun _ => rfl, fun _ => rfl, fun _ => rfl, fun _ => rfl, fun _ => rfl, fun _ => rfl,
    fun _ => rfl, fun _ => rfl, fun _ => rfl, fun b q hq => ?_⟩
  rw [Block.patchAt_modifyPatch, if_neg]
  rintro rfl
  omega

theorem PatchStep.comp {f g : Block → Block} (hf : PatchStep f) (hg : PatchStep g) :
    PatchStep fun b => f (g b) :=
  ⟨fun b => by rw [hf.reg, hg.reg], fun b => by rw [hf.slot, hg.slot],
    fun b => by rw [hf.pmPhase, hg.pmPhase], fun b => by rw [hf.amPhase, hg.amPhase],
    fun b => by rw [hf.noise, hg.noise], fun b => by rw [hf.naPhase, hg.naPhase],
    fun b => by rw [hf.nbPhase, hg.nbPhase], fun b => by rw [hf.ioAddr, hg.ioAddr],
    fun b => by rw [hf.mask, hg.mask], fun b p hp => by rw [hf.patch _ p hp, hg.patch _ p hp]⟩

/-- The class step of WR_INST_VOL, one latch at a time (R128). -/
theorem instVolStep_eq (c : Channel) (d : Byte) (b : Block) :
    instVolStep c d b = { b with
      pvolHh := if b.rhythm = true ∧ c.val = 7 then d.extractLsb' 4 4 else b.pvolHh
      pvolTom := if b.rhythm = true ∧ c.val = 8 then d.extractLsb' 4 4 else b.pvolTom } := by
  have h7 : c = 7 ↔ c.val = 7 := Fin.ext_iff
  have h8 : c = 8 ↔ c.val = 8 := Fin.ext_iff
  simp only [instVolStep, h7, h8]
  by_cases h : b.rhythm = true ∧ c.val = 7
  · rw [if_pos h, if_pos h, if_neg (by omega)]
  · rw [if_neg h, if_neg h]
    split_ifs <;> rfl

theorem patchStep_instVol (c : Channel) (d : Byte) : PatchStep (instVolStep c d) := by
  refine ⟨?_, ?_, ?_, ?_, ?_, ?_, ?_, ?_, ?_, ?_⟩ <;> intro b <;>
    simp [instVolStep_eq, Block.patchAt]

theorem patchStep_classStep (a : RegAddr) (d : Byte) : PatchStep (classStep a d) := by
  unfold classStep
  cases regClass a
  case klWfFb =>
    exact PatchStep.comp (patchStep_modifyPatch (by decide) _) (patchStep_modifyPatch (by decide) _)
  case instVol c => exact patchStep_instVol c d
  all_goals first | exact patchStep_id | exact patchStep_modifyPatch (by decide) _

/-! ### Register writes -/

/-- A register write of any class is the common sequence with that class's step (R85, R111). -/
theorem exec_classInstr (a : RegAddr) (d : Byte) (s : State) :
    exec (decodeReg a d) s =
      .next (s.onBlock fun b => b.writeWith Config.cfg a d (classStep a d)) := by
  have ha := regClass_addr a
  have hc : classStep a d = fun b => classStep a d b := rfl
  rw [decodeReg, hc]
  unfold classStep
  cases hk : regClass a <;> rw [hk] at ha <;> subst ha <;> rfl

theorem execIoData_eq (d : Byte) (s : State) :
    exec (.ioData d) s = exec (decodeReg (effAddr s.block.ioAddr) d) s := by
  rw [exec_classInstr]; rfl

/-- What a register write keeps, whatever its class. -/
structure WriteFrame (a : RegAddr) (d : Byte) (b b' : Block) : Prop where
  reg : b'.reg = b.reg.set a.toNat d
  pmPhase : b'.pmPhase = b.pmPhase
  amPhase : b'.amPhase = b.amPhase
  noise : b'.noise = b.noise
  naPhase : b'.naPhase = b.naPhase
  nbPhase : b'.nbPhase = b.nbPhase
  ioAddr : b'.ioAddr = b.ioAddr
  mask : b'.mask = b.mask
  patch : ∀ p : PatchId, 2 ≤ p.val → b'.patchAt p = b.patchAt p
  slot : ∀ k : SlotId, ∃ b1 : Block, b1.reg = b'.reg ∧
    b'.slotAt k = keyStep Config.cfg b b1 k (b.slotAt k)

theorem writeWith_frame {f : Block → Block} (hf : PatchStep f) (b : Block) (a : RegAddr)
    (d : Byte) : WriteFrame a d b (b.writeWith Config.cfg a d f) := by
  have e : ∀ k, (b.writeWith Config.cfg a d f).slotAt k =
      keyStep Config.cfg b (f (b.setReg a d)) k (b.slotAt k) := by
    intro k
    rw [Block.writeWith, slotAt_keyProcess]
    simp [Block.slotAt, hf.slot]
  exact
    { reg := by simp [Block.writeWith, hf.reg]
      pmPhase := by simp [Block.writeWith, hf.pmPhase]
      amPhase := by simp [Block.writeWith, hf.amPhase]
      noise := by simp [Block.writeWith, hf.noise]
      naPhase := by simp [Block.writeWith, hf.naPhase]
      nbPhase := by simp [Block.writeWith, hf.nbPhase]
      ioAddr := by simp [Block.writeWith, hf.ioAddr]
      mask := by simp [Block.writeWith, hf.mask]
      patch := fun p hp => by
        have h := hf.patch (b.setReg a d) p hp
        simp only [Block.patchAt, Block.writeWith, keyProcess_patch] at h ⊢
        simpa using h
      slot := fun k => ⟨f (b.setReg a d), by simp [Block.writeWith], e k⟩ }

/-- The slots after a register write: keyed on, keyed off, forced to Finish, or as they were. -/
theorem WriteFrame.slot_cases {a : RegAddr} {d : Byte} {b b' : Block} (h : WriteFrame a d b b')
    (k : SlotId) :
    b'.slotAt k = keyOn (b.slotAt k) ∨ b'.slotAt k = keyOff Config.cfg (b.slotAt k) ∨
      b'.slotAt k = forceFinish (b.slotAt k) ∨ b'.slotAt k = b.slotAt k := by
  obtain ⟨b1, -, h1⟩ := h.slot k
  rw [h1]
  exact keyStep_cases ..

/-! ### Every command -/

/-- What a command that completes has done: a register write, a latch, a sample, a reset or a
mask. -/
inductive Effect (i : Instr) (s t : State) : Prop where
  /-- a register write, direct or through the data port -/
  | write (a : RegAddr) (d : Byte) (ht : t = { s with block := t.block })
      (hf : WriteFrame a d s.block t.block)
  | latch (d : Byte) (hi : i = .ioAddr d) (ht : t = { s with block := { s.block with ioAddr := d } })
  | sample (hi : i = .calcSample) (hs : s.block.NoSettle) (ht : t = { s with
      block := s.block.calc Config.cfg
      samples := sampleOf (calcMix Config.cfg s.block).sample :: s.samples })
  | reset (hi : i = .reset) (ht : t = { s with block := s.block.resetBlock Config.cfg })
  | mask (m : BitVec 16) (hi : i = .setMask m)
      (ht : t = { s with block := { s.block with mask := m.extractLsb' 0 14 } })

theorem effect_write {i : Instr} {s t : State} {a : RegAddr} {d : Byte} {f : Block → Block}
    (hf : PatchStep f)
    (h : (Host.Outcome.next (s.onBlock fun b => b.writeWith Config.cfg a d f) :
      Host.Outcome State Fault Refusal) = .next t) : Effect i s t := by
  cases h
  exact .write a d rfl (writeWith_frame hf s.block a d)

/-- Everything a command can do when it completes. -/
theorem exec_cases {i : Instr} {s t : State} (h : exec i s = .next t) : Effect i s t := by
  cases i with
  | wrKlwffb d =>
    exact effect_write (PatchStep.comp (patchStep_modifyPatch (by decide) _)
      (patchStep_modifyPatch (by decide) _)) h
  | wrRhythm d => exact effect_write patchStep_id h
  | wrFnumLo c d => exact effect_write patchStep_id h
  | wrBlkKey c d => exact effect_write patchStep_id h
  | wrInstVol c d => exact effect_write (patchStep_instVol c d) h
  | wrReserved a d => exact effect_write patchStep_id h
  | ioAddr d => cases h; exact .latch d rfl rfl
  | ioData d => exact effect_write (patchStep_classStep _ d) h
  | calcSample =>
    simp only [exec, execCalc] at h
    split at h
    · cases h
    · rename_i hn
      cases h
      exact .sample rfl (Block.firstSettle_none.mp hn) rfl
  | reset => cases h; exact .reset rfl rfl
  | setMask m => cases h; exact .mask m rfl rfl
  | _ d => exact effect_write (patchStep_modifyPatch (by decide) _) h

/-- No command touches the host's bookkeeping (R23). -/
theorem exec_bookkeeping {i : Instr} {s t : State} (h : exec i s = .next t) :
    t.pending = s.pending ∧ t.index = s.index := by
  rcases exec_cases h with ⟨_, _, ht, _⟩ | ⟨_, _, ht⟩ | ⟨_, _, ht⟩ | ⟨_, ht⟩ | ⟨_, _, ht⟩ <;>
    rw [ht] <;> exact ⟨rfl, rfl⟩

/-- What a step that completes has done: nothing, or the next command. -/
theorem step_cases {s t : State} (h : step s = .next t) :
    (s.pending = [] ∧ t = s) ∨
      ∃ (w : Word) (rest : List Word) (i : Instr) (u : State), s.pending = w :: rest ∧
        decode w = .ok i ∧ exec i s = .next u ∧ t = u.retire := by
  rcases hp : s.pending with _ | ⟨w, rest⟩
  · simp only [step, fetch, hp, List.head?_nil, Host.Outcome.next.injEq] at h
    exact .inl ⟨rfl, h.symm⟩
  · simp only [step, fetch, hp, List.head?_cons] at h
    rcases hd : decode w with e | i
    · simp [hd] at h
    · simp only [hd] at h
      rcases he : exec i s with u | f | r
      · simp only [he, Host.Outcome.next.injEq] at h
        exact .inr ⟨w, rest, i, u, rfl, hd, he, h.symm⟩
      · simp [he] at h
      · simp [he] at h

/-! ### Bounds (R183) -/

theorem keyOn_inBounds (c : Cfg) (sl : SlotState) : (keyOn sl).InBounds c :=
  ⟨by simp [keyOn], by simp [keyOn, egBound, Cfg.egFull]⟩

theorem two_pow_egSh (c : Cfg) : 2 ^ c.egBits * 2 ^ c.egSh = c.egFull := by
  rw [← pow_add, Cfg.egSh, Nat.add_sub_cancel' c.egBits_le, Cfg.egFull]

/-- The attack-curve conversion of KeyOff stays below EG_FULL (R114). -/
theorem attackConvert_lt (c : Cfg) {x : Nat} (h : x < c.egFull) :
    attackConvert c x < c.egFull := by
  have h1 : x >>> c.egSh < 2 ^ c.egBits := by
    rw [Nat.shiftRight_eq_div_pow, Nat.div_lt_iff_lt_mul (Nat.two_pow_pos _), two_pow_egSh]
    exact h
  rw [attackConvert, Nat.shiftLeft_eq, ← two_pow_egSh]
  exact Nat.mul_lt_mul_of_pos_right (c.arAdjust_lt _ h1) (Nat.two_pow_pos _)

theorem keyOff_inBounds {c : Cfg} {sl : SlotState} (h : sl.InBounds c) :
    (keyOff c sl).InBounds c := by
  obtain ⟨h1, h2⟩ := h
  unfold keyOff
  cases hm : sl.egMode <;> simp only [hm, egBound] at h2 <;> refine ⟨h1, ?_⟩ <;>
    simp only [egBound, hm]
  · have := attackConvert_lt c h2; omega
  all_goals
    have : 0 < c.egFull := Nat.two_pow_pos _
    omega

theorem forceFinish_inBounds {c : Cfg} {sl : SlotState} (h : sl.InBounds c) :
    (forceFinish sl).InBounds c := by
  obtain ⟨h1, h2⟩ := h
  refine ⟨h1, ?_⟩
  have : 0 < c.egFull := Nat.two_pow_pos _
  cases hm : sl.egMode <;> simp only [hm, egBound] at h2 <;> simp only [forceFinish, egBound] <;>
    omega

theorem egRate_lt (c : Cfg) (b : Block) (k : SlotId) (m : EgMode) : b.egRate c k m < c.egFull := by
  have h0 : 0 < c.egFull := Nat.two_pow_pos _
  cases m <;> simp only [Block.egRate]
  · exact h0
  · exact c.arRate_lt ..
  · exact c.drRate_lt ..
  · exact h0
  · exact c.drRate_lt ..
  · split <;> exact c.drRate_lt ..
  · exact h0

/-- An envelope step keeps R183's bounds. -/
theorem egStep_bound {c : Cfg} {p : Patch} {rate : Nat} {sl : SlotState} (hr : rate < c.egFull)
    (h : egBound c sl.egMode sl.egPhase) :
    egBound c (egStep c p rate sl).slot.egMode (egStep c p rate sl).slot.egPhase := by
  have h0 : 0 < c.egFull := Nat.two_pow_pos _
  have hs : c.slThresh p.sl ≤ c.egFull := c.slThresh_le _
  cases hm : sl.egMode <;> simp only [hm, egBound] at h <;>
    simp only [egStep, hm, attackStep, decayStep, sustainHoldStep, fadeStep]
  · split_ifs
    · simp [egBound]
    · simp only [egBound]; omega
  · split_ifs <;> simp only [egBound] <;> omega
  · split_ifs <;> simp only [egBound, hm] <;> omega
  · have key : sl.egPhase >>> c.egSh < 2 ^ c.egBits → sl.egPhase < c.egFull := by
      intro hk
      rw [Nat.shiftRight_eq_div_pow, Nat.div_lt_iff_lt_mul (Nat.two_pow_pos _),
        two_pow_egSh] at hk
      exact hk
    split_ifs with hc
    · simp only [egBound]; omega
    · have := key (by omega)
      simp only [egBound]; omega
  · have key : sl.egPhase >>> c.egSh < 2 ^ c.egBits → sl.egPhase < c.egFull := by
      intro hk
      rw [Nat.shiftRight_eq_div_pow, Nat.div_lt_iff_lt_mul (Nat.two_pow_pos _),
        two_pow_egSh] at hk
      exact hk
    split_ifs with hc
    · simp only [egBound]; omega
    · have := key (by omega)
      simp only [egBound]; omega
  · exact h

end Sys2Proof.Machine
end

