-- ==== Sys2Proof/Laws/Mask.lean ====
section
/-! SUPPORT. The mask and the stages: every operation but the sum of the mixdown gives the same
result whatever the mask is (spec/44_mixdown.md R235). -/

namespace Sys2Proof.Machine

/-- The block with another mask. -/
def Block.withMask (b : Block) (m : BitVec 14) : Block := { b with mask := m }

theorem sameControl_withMask (b : Block) (m : BitVec 14) : SameControl (b.withMask m) b :=
  ⟨rfl, rfl, rfl, rfl⟩

theorem keyStep_withMask (c : Cfg) (b0 b1 : Block) (m : BitVec 14) (k : SlotId) (sl : SlotState) :
    keyStep c (b0.withMask m) (b1.withMask m) k sl = keyStep c b0 b1 k sl := by
  have h0 := sameControl_withMask b0 m
  have h1 := sameControl_withMask b1 m
  simp only [keyStep, h0.rhythm, h1.rhythm, h0.line, h1.line, h1.role]

/-- A register write whose class step does not look at the mask does not look at it either. -/
theorem writeWith_withMask {c : Cfg} {b : Block} {m : BitVec 14} {a : RegAddr} {d : Byte}
    {f : Block → Block}
    (hf : f ((b.withMask m).setReg a d) = (f (b.setReg a d)).withMask m) :
    (b.withMask m).writeWith c a d f = (b.writeWith c a d f).withMask m := by
  rw [Block.writeWith, hf]
  refine Block.ext_fields ?_ ?_ ?_ ?_ ?_ ?_ ?_ ?_ ?_ ?_ ?_ ?_ <;>
    simp [Block.writeWith, Block.withMask]
  apply Vector.ext
  intro i hi
  simp only [Vector.getElem_ofFn]
  exact keyStep_withMask c b (f (b.setReg a d)) m ⟨i, hi⟩ _

theorem classStep_withMask (a : RegAddr) (d : Byte) (b : Block) (m : BitVec 14) :
    classStep a d (b.withMask m) = (classStep a d b).withMask m := by
  unfold classStep
  cases regClass a <;> try rfl
  simp only [instVolStep_eq]
  rfl

theorem runVoice_sameViews {c : Cfg} {b b' : Block} {t : Temps} {slots : Vector SlotState 18}
    (h : SameControl b b') (hna : b.naPhase = b'.naPhase) (hnb : b.nbPhase = b'.nbPhase)
    (v : Voice) : runVoice c b t slots v = runVoice c b' t slots v := by
  cases v <;> simp [runVoice, channelOut, percOut, percInput, h.patchOf, h.wf, hna, hnb]

/-- The slots after the mixdown depend on the views, not on the mask or the sums so far. -/
theorem foldl_slots_congr {c : Cfg} {b b' : Block} {t : Temps} (h : SameControl b b')
    (hna : b.naPhase = b'.naPhase) (hnb : b.nbPhase = b'.nbPhase) (l : List Voice) (m m' : Mix)
    (hm : m.slots = m'.slots) :
    (l.foldl (mixVoice c b t) m).slots = (l.foldl (mixVoice c b' t) m').slots := by
  induction l generalizing m m' with
  | nil => exact hm
  | cons v l ih =>
    rw [List.foldl_cons, List.foldl_cons]
    refine ih _ _ ?_
    rw [mixVoice_slots, mixVoice_slots, hm, runVoice_sameViews h hna hnb]

theorem egStage_withMask (c : Cfg) (b : Block) (m : BitVec 14) :
    egStage c (calcPhases c (b.withMask m)) = (egStage c (calcPhases c b)).withMask m := by
  have h := sameControl_withMask b m
  have hs : ∀ s, (egStage c (calcPhases c (b.withMask m))).slotAt s =
      (egStage c (calcPhases c b)).slotAt s := by
    intro s
    have hp : phaseInc c (generators c (b.withMask m)) s = phaseInc c (generators c b) s := by
      simp only [phaseInc_generators, h.patchOf, h.dphase]
      rfl
    have e1 := envelope_calcPhases c (b.withMask m) s
    have e2 := envelope_calcPhases c b s
    rw [hp] at e1
    simp only [h.patchOf, h.egRate] at e1
    rw [slotAt_egStage, slotAt_egStage]
    exact congrArg EgResult.slot (e1.trans e2.symm)
  have hv : (egStage c (calcPhases c (b.withMask m))).slot = (egStage c (calcPhases c b)).slot :=
    Block.slot_ext hs
  refine Block.ext_fields ?_ ?_ hv ?_ ?_ ?_ ?_ ?_ ?_ ?_ ?_ ?_ <;>
    simp [calcPhases, Block.withMask]

theorem temps_withMask (c : Cfg) (b : Block) (m : BitVec 14) :
    (b.withMask m).temps c = b.temps c := by
  have h := sameControl_withMask b m
  have hp : ∀ s, phaseInc c (generators c (b.withMask m)) s = phaseInc c (generators c b) s := by
    intro s
    simp only [phaseInc_generators, h.patchOf, h.dphase]
    rfl
  have hs : ∀ s, (calcPhases c (b.withMask m)).slotAt s = (calcPhases c b).slotAt s := by
    intro s
    rw [slotAt_calcPhases, slotAt_calcPhases, hp]
    rfl
  have hc := ((sameControl_calcPhases c (b.withMask m)).trans h).trans
    (sameControl_calcPhases c b).symm
  have ham : (calcPhases c (b.withMask m)).amPhase = (calcPhases c b).amPhase := by
    simp [Block.withMask]
  have hn : (calcPhases c (b.withMask m)).noise = (calcPhases c b).noise := by
    simp [Block.withMask]
  have he : ∀ s, (calcPhases c (b.withMask m)).envelope c s = (calcPhases c b).envelope c s := by
    intro s
    simp only [Block.envelope, hc.patchOf, hc.egRate, hs]
  simp only [Block.temps, tempsOf, Temps.mk.injEq]
  refine ⟨funext fun s => ?_, funext fun s => ?_, ?_⟩
  · simp only [pgout, hs]
  · simp only [egout, he, Block.attenuation, hc.tll, hc.patchOf, lfoAm, ham]
  · simp only [noiseBit, hn]

/-- CALC's block does not depend on the mask, but for the mask itself (R235). -/
theorem calc_withMask (c : Cfg) (b : Block) (m : BitVec 14) :
    (b.withMask m).calc c = (b.calc c).withMask m := by
  have hs : ((b.withMask m).calc c).slot = ((b.calc c).withMask m).slot := by
    have hr : (egStage c (calcPhases c (b.withMask m))).rhythm =
        (egStage c (calcPhases c b)).rhythm := by
      rw [egStage_withMask]
      exact (sameControl_withMask _ m).rhythm
    show _ = (b.calc c).slot
    rw [Block.calc_slot, Block.calc_slot]
    have ht : tempsOf c (calcPhases c (b.withMask m)) = tempsOf c (calcPhases c b) :=
      temps_withMask c b m
    simp only [calcMix, mixdown, hr, ht]
    rw [egStage_withMask]
    generalize egStage c (calcPhases c b) = e
    exact foldl_slots_congr (sameControl_withMask e m) rfl rfl _ _ _ rfl
  refine Block.ext_fields ?_ ?_ hs ?_ ?_ ?_ ?_ ?_ ?_ ?_ ?_ ?_ <;> simp [Block.withMask]

end Sys2Proof.Machine
end

