-- ==== Sys2Proof/Laws/PerInstr.lean ====
section
/-! SUPPORT. A property of every command as syntax, one lemma per constructor: the word of a command
has one of the five kinds, and its must-be-0 field is 0 (spec/30_encoding.md R82). -/

namespace Sys2Proof.Laws.EncodedShape

/-- The word of `i` has a kind 0x0..0x4, and bits 27:16 of it are 0. -/
def Statement (i : Instr) : Prop :=
  (wordKind (encode i)).toNat < 5 ∧ wordZero (encode i) = 0#12

theorem regWord_shape (a : RegAddr) (d : Byte) :
    (wordKind (regWord a d)).toNat < 5 ∧ wordZero (regWord a d) = 0#12 := by
  simp [regWord]

theorem wrAmpmMod (d : Byte) : Statement (.wrAmpmMod d) := regWord_shape ..
theorem wrAmpmCar (d : Byte) : Statement (.wrAmpmCar d) := regWord_shape ..
theorem wrKltl (d : Byte) : Statement (.wrKltl d) := regWord_shape ..
theorem wrKlwffb (d : Byte) : Statement (.wrKlwffb d) := regWord_shape ..
theorem wrArdrMod (d : Byte) : Statement (.wrArdrMod d) := regWord_shape ..
theorem wrArdrCar (d : Byte) : Statement (.wrArdrCar d) := regWord_shape ..
theorem wrSlrrMod (d : Byte) : Statement (.wrSlrrMod d) := regWord_shape ..
theorem wrSlrrCar (d : Byte) : Statement (.wrSlrrCar d) := regWord_shape ..
theorem wrRhythm (d : Byte) : Statement (.wrRhythm d) := regWord_shape ..
theorem wrFnumLo (c : Channel) (d : Byte) : Statement (.wrFnumLo c d) := regWord_shape ..
theorem wrBlkKey (c : Channel) (d : Byte) : Statement (.wrBlkKey c d) := regWord_shape ..
theorem wrInstVol (c : Channel) (d : Byte) : Statement (.wrInstVol c d) := regWord_shape ..
theorem wrReserved (a : RegAddr) (d : Byte) : Statement (.wrReserved a d) := regWord_shape ..
theorem ioAddr (d : Byte) : Statement (.ioAddr d) := by simp [Statement, encode]
theorem ioData (d : Byte) : Statement (.ioData d) := by simp [Statement, encode]
theorem calcSample : Statement .calcSample := by simp [Statement, encode]
theorem reset : Statement .reset := by simp [Statement, encode]
theorem setMask (m : BitVec 16) : Statement (.setMask m) := by simp [Statement]

end Sys2Proof.Laws.EncodedShape
end

