-- ==== Sys2Proof/Laws/Rhythm.lean ====
section
/-! SUPPORT. The views after a write of register 0x0E (spec/40_register_writes.md R115, R116, R125),
and the views of a channel after a write of one of its registers (R126 to R128). -/

namespace Sys2Proof.Machine

/-! ### The views read registers only -/

theorem Block.inst_congr {b b' : Block} (h : b.reg = b'.reg) (c : Channel) :
    b.inst c = b'.inst c := by
  simp [Block.inst, Block.chanReg, Block.rhythm, Block.regAt_congr h]

theorem Block.fnum_congr {b b' : Block} (h : b.reg = b'.reg) (c : Channel) :
    b.fnum c = b'.fnum c := by
  simp [Block.fnum, Block.chanReg, Block.regAt_congr h]

theorem Block.blockNo_congr {b b' : Block} (h : b.reg = b'.reg) (c : Channel) :
    b.blockNo c = b'.blockNo c := by
  simp [Block.blockNo, Block.chanReg, Block.regAt_congr h]

theorem Block.rhythm_of_reg {b b' : Block} (h : b.reg = b'.reg) : b.rhythm = b'.rhythm :=
  Block.rhythm_congr (Block.regAt_congr h _)

theorem Block.key_of_reg {b b' : Block} (h : b.reg = b'.reg) (c : Channel) :
    b.key c = b'.key c :=
  Block.key_congr (Block.regAt_congr h _)

/-! ### Register 0x0E -/

/-- The percussion key bit of a slot after a write of 0x0E (R47). -/
theorem percBit_setReg (b : Block) (d : Byte) (k : SlotId) :
    (b.setReg 0x0E#6 d).percBit k = percKeyBit d k := by
  have h : (percBitIndex k = none ∧ ∀ d, percKeyBit d k = false) ∨
      ∃ i, percBitIndex k = some i ∧ ∀ d, percKeyBit d k = d.getLsbD i := by
    fin_cases k <;> first
      | exact .inl ⟨rfl, fun _ => rfl⟩
      | exact .inr ⟨_, rfl, fun _ => rfl⟩
  rcases h with ⟨h, h2⟩ | ⟨i, h, h2⟩
  · rw [Block.percBit, h, h2]
  · rw [Block.percBit, h, h2]; simp

theorem percKeyBit_lt {d : Byte} {k : SlotId} (h : k.val < 12) : percKeyBit d k = false := by
  unfold percKeyBit
  rw [if_neg (by omega), if_neg (by omega), if_neg (by omega), if_neg (by omega),
    if_neg (by omega)]

theorem rhythm_setReg (b : Block) (d : Byte) : (b.setReg 0x0E#6 d).rhythm = d.getLsbD 5 := by
  simp [Block.rhythm]

theorem key_setReg (b : Block) (d : Byte) (c : Channel) :
    (b.setReg 0x0E#6 d).key c = b.key c := by
  apply Block.key_congr
  simp only [Block.chanReg]
  rw [Block.regAt_setReg_ne _ _ (rhythmAddr_ne c).2.1]

/-- The instrument of a channel after a write of 0x0E (R42). -/
theorem inst_setReg (b : Block) (d : Byte) (c : Channel) :
    (b.setReg 0x0E#6 d).inst c =
      if d.getLsbD 5 = true ∧ 6 ≤ c.val then ⟨c.val + 10, by omega⟩
      else ⟨((b.chanReg 0x30#6 c).extractLsb' 4 4).toNat, by omega⟩ := by
  have h : (b.setReg 0x0E#6 d).chanReg 0x30#6 c = b.chanReg 0x30#6 c := by
    simp only [Block.chanReg]
    rw [Block.regAt_setReg_ne _ _ (rhythmAddr_ne c).2.2]
  simp only [Block.inst, rhythm_setReg, h]

/-- The roles of the hi-hat and tom slots with rhythm mode off (R44). -/
theorem role_modulator {b : Block} (h : b.rhythm = false) :
    b.role 14 = .modulator ∧ b.role 16 = .modulator := by
  simp [Block.role, h]; decide

/-- In rhythm mode every percussion slot but the bass drum's modulator is a carrier (R44). -/
theorem role_percussion {b : Block} {k : SlotId} (hk : 12 ≤ k.val) (hr : b.rhythm = true) :
    b.role k = .carrier ↔ k.val ≠ 12 := by
  simp only [Block.role, hr]
  revert k; decide

/-! ### A channel's registers -/

theorem chanReg_setReg_self (b : Block) (base : RegAddr) (c : Channel) (d : Byte) :
    (b.setReg (channelAddr base c) d).chanReg base c = d := by
  simp [Block.chanReg]

theorem chanReg_setReg_ne {b : Block} {base : RegAddr} {c c' : Channel} {d : Byte} (h : c' ≠ c) :
    (b.setReg (channelAddr base c) d).chanReg base c' = b.chanReg base c' := by
  simp only [Block.chanReg]
  exact Block.regAt_setReg_ne _ _ fun e => h (channelAddr_inj e).symm

/-- A channel register's write leaves rhythm mode alone. -/
theorem rhythm_setReg_channel {b : Block} {base : RegAddr} {c : Channel} {d : Byte}
    (h : channelAddr base c ≠ 0x0E#6) :
    (b.setReg (channelAddr base c) d).rhythm = b.rhythm :=
  Block.rhythm_congr (Block.regAt_setReg_ne _ _ h)

/-- The low byte of an F-number (R45). -/
theorem fnum_toNat (b : Block) (c : Channel) :
    (b.fnum c).toNat =
      ((b.chanReg 0x20#6 c).toNat % 2) * 256 + (b.chanReg 0x10#6 c).toNat := by
  have h := (b.chanReg 0x10#6 c).isLt
  simp only [Block.fnum, BitVec.toNat_append, BitVec.extractLsb'_toNat, Nat.shiftRight_zero,
    Nat.pow_one, Nat.shiftLeft_eq, Nat.reducePow]
  rw [← Nat.shiftLeft_eq _ 8, ← Nat.shiftLeft_add_eq_or_of_lt (by omega), Nat.shiftLeft_eq]

theorem blockNo_toNat (b : Block) (c : Channel) :
    (b.blockNo c).toNat = (b.chanReg 0x20#6 c).toNat / 2 % 8 := by
  simp [Block.blockNo, BitVec.extractLsb'_toNat, Nat.shiftRight_eq_div_pow]

theorem highNibble_toNat (x : Byte) : (x.extractLsb' 4 4).toNat = x.toNat / 16 := by
  revert x; decide

end Sys2Proof.Machine
end

