-- ==== Sys2Proof/Laws/Views.lean ====
section
/-! SUPPORT. The views that the machine computes with (Machine/Operands.lean, Machine/Flags.lean) are
those of Safety.lean, read off the stored fields in plain numbers (spec/10_state.md R40 to R54), and
what a class step does to the fields of the user patch (spec/40_register_writes.md R134). -/

namespace Sys2Proof.Machine

theorem regAt_toNat (b : Block) (a : RegAddr) : (b.regAt a).toNat = b.byte a.toNat := by
  have : a.toNat % 64 = a.toNat := Nat.mod_eq_of_lt a.isLt
  simp [Block.byte, Block.regAt, this]

theorem chanReg_toNat (b : Block) (base : RegAddr) (k : SlotId) (h : base.toNat + 8 < 64) :
    (b.chanReg base (chOf k)).toNat = b.byte (base.toNat + k.val / 2) := by
  rw [Block.chanReg, regAt_toNat, channelAddr_toNat base _ h]
  rfl

theorem getLsbD_five (x : Byte) : x.getLsbD 5 = decide (x.toNat / 32 % 2 = 1) := by
  revert x; decide

/-- R40. -/
theorem rhythm_eq (b : Block) : b.rhythm = decide b.rhythmOn := by
  rw [Block.rhythm, getLsbD_five, regAt_toNat]
  rfl

/-- R42. -/
theorem inst_eq (b : Block) (k : SlotId) : (b.inst (chOf k)).val = b.boundInst k := by
  have h := chanReg_toNat b 0x30#6 k (by decide)
  have e : b.rhythm = true ↔ b.rhythmOn := by simp [rhythm_eq]
  simp only [Block.inst, Block.boundInst, e]
  split
  · rename_i h1; exact (if_pos h1).symm
  · rename_i h1
    exact ((highNibble_toNat _).trans (congrArg (· / 16) h)).trans (if_neg h1).symm

/-- R43. -/
theorem patchOf_eq (b : Block) (k : SlotId) : b.patchOf k = b.boundPatch k := by
  have ho : (opOf k).toNat = k.val % 2 := by revert k; decide
  have h := (b.inst (chOf k)).isLt
  have e : (patchId (b.inst (chOf k)) (opOf k)).val = (2 * b.boundInst k + k.val % 2) % 38 := by
    rw [inst_eq] at h
    show 2 * (b.inst (chOf k)).val + (opOf k).toNat = _
    rw [inst_eq, ho]
    omega
  simp only [Block.patchOf, Block.patchAt, Block.boundPatch, e]

/-- R44. -/
theorem role_eq (b : Block) (k : SlotId) :
    b.role k = if b.carrierRole k then .carrier else .modulator := by
  have h1 : opOf k = true ↔ k.val % 2 = 1 := by simp [opOf]
  have h2 : (k = 14 ∨ k = 16) ↔ (k.val = 14 ∨ k.val = 16) := by revert k; decide
  simp [Block.role, Block.carrierRole, h1, h2, rhythm_eq]

/-- R45. -/
theorem fnum_eq (b : Block) (k : SlotId) : b.fnum (chOf k) = BitVec.ofNat 9 (b.pitchNumber k) := by
  have h := (b.fnum (chOf k)).isLt
  have e := fnum_toNat b (chOf k)
  rw [chanReg_toNat b 0x20#6 k (by decide), chanReg_toNat b 0x10#6 k (by decide)] at e
  apply BitVec.eq_of_toNat_eq
  rw [BitVec.toNat_ofNat, Nat.mod_eq_of_lt (by rw [e] at h; exact h), e]
  rfl

theorem fnum_toNat_eq (b : Block) (k : SlotId) : (b.fnum (chOf k)).toNat = b.pitchNumber k := by
  have e := fnum_toNat b (chOf k)
  rwa [chanReg_toNat b 0x20#6 k (by decide), chanReg_toNat b 0x10#6 k (by decide)] at e

theorem blockNo_eq (b : Block) (k : SlotId) :
    b.blockNo (chOf k) = BitVec.ofNat 3 (b.pitchBlock k) := by
  have e := blockNo_toNat b (chOf k)
  rw [chanReg_toNat b 0x20#6 k (by decide)] at e
  apply BitVec.eq_of_toNat_eq
  rw [e, BitVec.toNat_ofNat]
  exact (Nat.mod_mod _ _).symm

/-- R51. -/
theorem dphase_eq (b : Block) (c : Cfg) (k : SlotId) : b.dphase c k = b.tableIncrement c k := by
  simp only [Block.dphase, Block.tableIncrement, fnum_eq, blockNo_eq, patchOf_eq]

theorem fnum_bit_eight (b : Block) (k : SlotId) :
    (b.fnum (chOf k)).getLsbD 8 = decide (256 ≤ b.pitchNumber k) := by
  rw [← fnum_toNat_eq]
  generalize b.fnum (chOf k) = x
  revert x; decide

/-- R52. -/
theorem rks_eq (b : Block) (c : Cfg) (k : SlotId) : b.rks c k = b.rateIndex c k := by
  simp only [Block.rks, Block.rateIndex, fnum_bit_eight, blockNo_eq, patchOf_eq]

/-- R49. -/
theorem sustain_eq (b : Block) (k : SlotId) :
    b.sustain k = decide (b.carrierRole k ∧ b.byte (0x20 + k.val / 2) / 32 % 2 = 1) := by
  rw [Block.sustain, getLsbD_five, chanReg_toNat b 0x20#6 k (by decide), role_eq]
  by_cases h : b.carrierRole k <;> simp [h]

/-- R50. -/
theorem level_eq (b : Block) (c : Cfg) (k : SlotId) :
    b.level c k =
      if ¬ b.carrierRole k then (b.boundPatch k).tl
      else if b.rhythmOn ∧ k.val = 14 then c.volTl b.pvolHh
      else if b.rhythmOn ∧ k.val = 16 then c.volTl b.pvolTom
      else c.volTl (BitVec.ofNat 4 (b.byte (0x30 + k.val / 2) % 16)) := by
  have hv : b.volume (chOf k) = BitVec.ofNat 4 (b.byte (0x30 + k.val / 2) % 16) := by
    have h := chanReg_toNat b 0x30#6 k (by decide)
    apply BitVec.eq_of_toNat_eq
    rw [Block.volume, BitVec.extractLsb'_toNat, h, BitVec.toNat_ofNat]
    simp
  have h14 : k = 14 ↔ k.val = 14 := Fin.ext_iff
  have h16 : k = 16 ↔ k.val = 16 := Fin.ext_iff
  have er : b.rhythm = true ↔ b.rhythmOn := by simp [rhythm_eq]
  simp only [Block.level, role_eq, patchOf_eq, hv, h14, h16, er]
  by_cases h : b.carrierRole k <;> simp [h]

/-- R53: the F-number bits 8:5. -/
theorem fnum_high (b : Block) (k : SlotId) :
    (b.fnum (chOf k)).extractLsb' 5 4 = BitVec.ofNat 4 (b.pitchNumber k / 32) := by
  rw [← fnum_toNat_eq]
  generalize b.fnum (chOf k) = x
  revert x; decide

/-! ### The user patch and its registers (R89 to R93, R134) -/

theorem userPatchHolds_congr {b b' : Block} (h : b.patch = b'.patch) (a : Nat) (d : Byte) :
    b.userPatchHolds a d ↔ b'.userPatchHolds a d := by simp only [Block.userPatchHolds, h]

/-- The class step at an address makes the user patch hold that register's fields and keeps those of
the other registers. -/
theorem userPatchHolds_classStep (w : RegAddr) (d e : Byte) (b : Block) (a : Fin 8) :
    (w.toNat = a.val → (classStep w d b).userPatchHolds a.val d) ∧
      (w.toNat ≠ a.val → b.userPatchHolds a.val e → (classStep w d b).userPatchHolds a.val e) := by
  have hw := regClass_addr w
  unfold classStep
  cases h : regClass w <;> rw [h] at hw <;> subst hw
  case fnumLo c => exact ⟨fun h => absurd h (by revert a c; decide), fun _ h => h⟩
  case blkKey c => exact ⟨fun h => absurd h (by revert a c; decide), fun _ h => h⟩
  case instVol c =>
    refine ⟨fun h => absurd h (by revert a c; decide), fun _ h => ?_⟩
    simp only [instVolStep_eq]; exact h
  case reserved r =>
    exact ⟨fun h' => absurd h' (by revert h; revert r a; decide), fun _ h => h⟩
  case rhythm => exact ⟨fun h => absurd h (by revert a; decide), fun _ h => h⟩
  all_goals
    fin_cases a <;>
      simp [Block.userPatchHolds, RegClass.addr, ampmStep, klTlStep, klWfFbStep, arDrStep, slRrStep,
        Block.modifyPatch, Block.patchAt, ampmFields, klTlFields, klWfFields, wfFbFields,
        arDrFields, slRrFields]

/-- A property that every command of a list keeps holds where the list leads. -/
theorem leads_keeps {P : State → Prop} : ∀ {l : List Instr} {s t : State},
    (∀ i ∈ l, ∀ s t : State, P s → exec i s = .next t → P t) → P s → Leads l s t → P t
  | [], _, _, _, hs, h => h ▸ hs
  | i :: _, s, _, hP, hs, ⟨u, hu, h⟩ =>
    leads_keeps (fun j hj => hP j (List.mem_cons_of_mem i hj)) (hP i List.mem_cons_self s u hs hu) h

end Sys2Proof.Machine
end

