-- ==== Sys2Proof/Machine/Asm.lean ====
section
/-! DEFINITION. The assembly language of the command words (spec/30_encoding.md R105, R106): its
lines as data, the words each line stands for, the reader of a line of text, and the disassembler.
The block knows nothing of it: it is how a host writes its command sequence. -/

namespace Sys2Proof

/-- One line of assembly: the five commands of R105, then the pseudo-instructions of R106. -/
inductive AsmLine where
  /-- `wr A, D` -/
  | wr (a d : Byte)
  /-- `io P, D` -/
  | io (p d : Byte)
  /-- `calc N`; `calc` alone is N = 1 -/
  | calcs (n : Nat)
  /-- `reset` -/
  | reset
  /-- `mask M` -/
  | mask (m : BitVec 16)
  /-- `iowr A, D` -/
  | iowr (a d : Byte)
  /-- `keyon c, F, B, S` -/
  | keyon (c : Channel) (f : BitVec 9) (b : BitVec 3) (s : Bool)
  /-- `keyoff c, F, B, S` -/
  | keyoff (c : Channel) (f : BitVec 9) (b : BitVec 3) (s : Bool)
  /-- `inst c, I, V` -/
  | inst (c : Channel) (i v : BitVec 4)
  /-- `rhythm R` -/
  | rhythm (r : Byte)
  /-- `user b0, .., b7` -/
  | user (b0 b1 b2 b3 b4 b5 b6 b7 : Byte)
  deriving DecidableEq, Repr

/-- The word of `wr A, D` (R105). -/
def wrWord (a d : Byte) : Word := commandWord 0x0#4 a d

/-- The word of `io P, D` (R105). -/
def ioWord (p d : Byte) : Word := commandWord 0x1#4 p d

/-- The byte of register 0x20 + c: sustain, key, block and F-number bit 8 (R96, R106). -/
def blkKeyByte (s key : Bool) (b : BitVec 3) (f : BitVec 9) : Byte :=
  0#2 ++ BitVec.ofBool s ++ BitVec.ofBool key ++ b ++ f.extractLsb' 8 1

/-- An address byte `base + c` of a channel's register. -/
def channelByte (base : RegAddr) (c : Channel) : Byte := (channelAddr base c).setWidth 8

/-- The words a line stands for, in order (R105, R106). -/
def AsmLine.words : AsmLine → List Word
  | .wr a d => [wrWord a d]
  | .io p d => [ioWord p d]
  | .calcs n => List.replicate n (encode .calcSample)
  | .reset => [encode .reset]
  | .mask m => [encode (.setMask m)]
  | .iowr a d => [ioWord 0#8 a, ioWord 1#8 d]
  | .keyon c f b s =>
    [wrWord (channelByte 0x10#6 c) (f.extractLsb' 0 8),
      wrWord (channelByte 0x20#6 c) (blkKeyByte s true b f)]
  | .keyoff c f b s => [wrWord (channelByte 0x20#6 c) (blkKeyByte s false b f)]
  | .inst c i v => [wrWord (channelByte 0x30#6 c) (i ++ v)]
  | .rhythm r => [wrWord 0x0E#8 r]
  | .user b0 b1 b2 b3 b4 b5 b6 b7 =>
    [wrWord 0x00#8 b0, wrWord 0x01#8 b1, wrWord 0x02#8 b2, wrWord 0x03#8 b3, wrWord 0x04#8 b4,
      wrWord 0x05#8 b5, wrWord 0x06#8 b6, wrWord 0x07#8 b7]

/-- The words of a program: its lines' words, one after another (R105). -/
def assemble (p : List AsmLine) : List Word := p.flatMap AsmLine.words

/-! ### Reading a line of text (R105) -/

/-- The value of a digit in the given base, if it is one. -/
def digitValue (base : Nat) (ch : Char) : Option Nat :=
  let n := ch.toNat
  let v :=
    if 48 ≤ n ∧ n ≤ 57 then n - 48
    else if 97 ≤ n ∧ n ≤ 102 then n - 87
    else if 65 ≤ n ∧ n ≤ 70 then n - 55
    else base
  if v < base then some v else none

/-- The value of a digit string after what was read before it. -/
def digitsValue (base acc : Nat) : List Char → Option Nat
  | [] => some acc
  | ch :: l =>
    match digitValue base ch with
    | some v => digitsValue base (acc * base + v) l
    | none => none

/-- A number: decimal, or hexadecimal after `0x` (R105). -/
def readNumber : List Char → Option Nat
  | '0' :: 'x' :: ch :: l => digitsValue 16 0 (ch :: l)
  | ch :: l => digitsValue 10 0 (ch :: l)
  | [] => none

/-- Whether a character separates the name of a command from its operands. -/
def isBlank (ch : Char) : Bool := ch == ' ' || ch == '\t' || ch == '\r'

/-- A text without the blanks at its ends. -/
def trimBlanks (l : List Char) : List Char :=
  ((l.dropWhile isBlank).reverse.dropWhile isBlank).reverse

/-- The parts of a text between its commas. -/
def splitCommas : List Char → List (List Char)
  | [] => [[]]
  | ch :: l =>
    if ch = ',' then [] :: splitCommas l
    else
      match splitCommas l with
      | part :: rest => (ch :: part) :: rest
      | [] => [[ch]]

/-- The numbers of a list of operands, if every one is a number. -/
def readNumbers : List (List Char) → Option (List Nat)
  | [] => some []
  | part :: rest =>
    match readNumber (trimBlanks part), readNumbers rest with
    | some n, some l => some (n :: l)
    | _, _ => none

/-- The operands of a line, the text after its command's name. -/
def readOperands (l : List Char) : Option (List Nat) :=
  match trimBlanks l with
  | [] => some []
  | l => readNumbers (splitCommas l)

/-- A number as a bit vector, if it fits its width. -/
def fitBits (w n : Nat) : Option (BitVec w) :=
  if n < 2 ^ w then some (BitVec.ofNat w n) else none

/-- A number as a channel, if it is one (R101). -/
def fitChannel (n : Nat) : Option Channel := if h : n < 9 then some ⟨n, h⟩ else none

/-- A number as one bit. -/
def fitBool (n : Nat) : Option Bool := if n = 0 then some false else if n = 1 then some true else none

/-- The line with the given command name and operands. An operand that does not fit its field makes
no line. -/
def readCommand (name : List Char) (ops : List Nat) : Option AsmLine :=
  match name, ops with
  | ['w', 'r'], [a, d] => do some (.wr (← fitBits 8 a) (← fitBits 8 d))
  | ['i', 'o'], [p, d] => do some (.io (← fitBits 8 p) (← fitBits 8 d))
  | ['c', 'a', 'l', 'c'], [] => some (.calcs 1)
  | ['c', 'a', 'l', 'c'], [n] => some (.calcs n)
  | ['r', 'e', 's', 'e', 't'], [] => some .reset
  | ['m', 'a', 's', 'k'], [m] => do some (.mask (← fitBits 16 m))
  | ['i', 'o', 'w', 'r'], [a, d] => do some (.iowr (← fitBits 8 a) (← fitBits 8 d))
  | ['k', 'e', 'y', 'o', 'n'], [c, f, b, s] => do
    some (.keyon (← fitChannel c) (← fitBits 9 f) (← fitBits 3 b) (← fitBool s))
  | ['k', 'e', 'y', 'o', 'f', 'f'], [c, f, b, s] => do
    some (.keyoff (← fitChannel c) (← fitBits 9 f) (← fitBits 3 b) (← fitBool s))
  | ['i', 'n', 's', 't'], [c, i, v] => do
    some (.inst (← fitChannel c) (← fitBits 4 i) (← fitBits 4 v))
  | ['r', 'h', 'y', 't', 'h', 'm'], [r] => do some (.rhythm (← fitBits 8 r))
  | ['u', 's', 'e', 'r'], [b0, b1, b2, b3, b4, b5, b6, b7] => do
    some (.user (← fitBits 8 b0) (← fitBits 8 b1) (← fitBits 8 b2) (← fitBits 8 b3)
      (← fitBits 8 b4) (← fitBits 8 b5) (← fitBits 8 b6) (← fitBits 8 b7))
  | _, _ => none

/-- Read one line: `;` starts a comment, and a line with no command stands for no words (R105). The
outer `none` means the text is no line of the language. -/
def readLine (text : List Char) : Option (Option AsmLine) :=
  let l := trimBlanks (text.takeWhile (· ≠ ';'))
  match l with
  | [] => some none
  | _ =>
    let name := l.takeWhile fun ch => !isBlank ch
    match readOperands (l.drop name.length) with
    | none => none
    | some ops =>
      match readCommand name ops with
      | none => none
      | some a => some (some a)

/-- The words of a program of text lines, if every line is one of the language (R105). -/
def assembleLines : List String → Option (List Word)
  | [] => some []
  | text :: rest =>
    match readLine text.toList, assembleLines rest with
    | some line, some ws => some ((line.map AsmLine.words).getD [] ++ ws)
    | _, _ => none

/-! ### The disassembler (R105) -/

/-- A hexadecimal digit, as the spec's examples write it. -/
def hexDigit (n : Nat) : Char := if n < 10 then Char.ofNat (48 + n) else Char.ofNat (55 + n)

/-- A byte in the form `0x19`. -/
def hexByte (b : Byte) : List Char :=
  ['0', 'x', hexDigit (b.toNat / 16), hexDigit (b.toNat % 16)]

/-- A mask in the form `0x0202`. -/
def hexMask (m : BitVec 16) : List Char :=
  let n := m.toNat
  ['0', 'x', hexDigit (n / 4096), hexDigit (n / 256 % 16), hexDigit (n / 16 % 16), hexDigit (n % 16)]

/-- The comment of a `wr` line: the class mnemonic of R85, with its channel or address. -/
def RegClass.comment : RegClass → List Char
  | .ampmMod => "WR_AMPM_MOD".toList
  | .ampmCar => "WR_AMPM_CAR".toList
  | .klTl => "WR_KLTL".toList
  | .klWfFb => "WR_KLWFFB".toList
  | .arDrMod => "WR_ARDR_MOD".toList
  | .arDrCar => "WR_ARDR_CAR".toList
  | .slRrMod => "WR_SLRR_MOD".toList
  | .slRrCar => "WR_SLRR_CAR".toList
  | .rhythm => "WR_RHYTHM".toList
  | .fnumLo c => "WR_FNUM_LO c=".toList ++ [hexDigit c.val]
  | .blkKey c => "WR_BLK_KEY c=".toList ++ [hexDigit c.val]
  | .instVol c => "WR_INST_VOL c=".toList ++ [hexDigit c.val]
  | .reserved _ => "WR_RESERVED".toList

/-- The line of text of a command word: `wr` with its class mnemonic as a comment, the other
commands as R105 writes them. A word that spells no command has no line. -/
def disassemble (w : Word) : Option (List Char) :=
  match decode w with
  | .error _ => none
  | .ok _ =>
    if wordKind w = 0x0#4 then
      some ("wr ".toList ++ hexByte (wordHi w) ++ ", ".toList ++ hexByte (wordData w)
        ++ " ; ".toList ++ (regClass (effAddr (wordHi w))).comment)
    else if wordKind w = 0x1#4 then
      some ("io ".toList ++ hexByte (wordHi w) ++ ", ".toList ++ hexByte (wordData w))
    else if wordKind w = 0x2#4 then some "calc".toList
    else if wordKind w = 0x3#4 then some "reset".toList
    else some ("mask ".toList ++ hexMask (wordMask w))

end Sys2Proof
end

