-- ==== Sys2Proof/Tests/Slice0.lean ====
section
/-! SUPPORT. The model's own tests: expected values are the vectors of spec/95_test_vectors.md (named
V1, P1, ... as there) or computed by hand from the rule a test cites, and one witness for every
hypothesis of a statement. -/

namespace Sys2Proof.Tests

open Sys2Proof.Machine

/-! ### Helpers: small states -/

/-- The register shadow with the listed bytes, 0 elsewhere. -/
def regs (l : List (Fin 64 × Byte)) : Vector Byte 64 :=
  l.foldl (fun v x => v.set x.1.val x.2) (Vector.replicate 64 0x00#8)

/-- A slot at rest in the given mode. -/
def slotIn (m : EgMode) : SlotState :=
  { phase := 0#32, egMode := m, egPhase := 0, out0 := 0, out1 := 0, feedback := 0 }

/-- Every slot in one mode, every patch 0, the listed registers. -/
def stateIn (l : List (Fin 64 × Byte)) (m : EgMode) : State :=
  { block :=
      { reg := regs l, patch := Vector.replicate 38 Patch.zero, slot := Vector.replicate 18 (slotIn m)
        pvolHh := 0#4, pvolTom := 0#4, pmPhase := 0, amPhase := 0, noise := 0x00001#17, naPhase := 0
        nbPhase := 0, ioAddr := 0x00#8, mask := 0#14 }
    pending := [], index := 0, samples := [] }

/-- A state with one slot replaced. -/
def withSlot (s : State) (k : SlotId) (x : SlotState) : State :=
  { s with block := { s.block with slot := s.block.slot.set k.val x } }

/-- The state a command leads to. -/
def after (i : Instr) (s : State) : State :=
  match exec i s with
  | .next t => t
  | _ => s

/-- The state a step leads to. -/
def stepped (s : State) : State :=
  match step s with
  | .next t => t
  | _ => s

/-- The modes of slots 12 to 17. -/
def percModes (s : State) : List EgMode :=
  [12, 13, 14, 15, 16, 17].map fun k => (s.block.slotAt k).egMode

/-! ### Well-formedness (R99) -/

theorem test_wf_refuses_channel_register_as_reserved : (Instr.wrReserved 0x10#6 0#8).wf = false := by
  decide
theorem test_wf_refuses_rhythm_as_reserved : (Instr.wrReserved 0x0E#6 0#8).wf = false := by decide
theorem test_wf_refuses_user_patch_as_reserved : (Instr.wrReserved 0x07#6 0#8).wf = false := by decide
theorem test_wf_reserved_edges :
    [0x08#6, 0x0D#6, 0x0F#6, 0x19#6, 0x1F#6, 0x29#6, 0x2F#6, 0x39#6, 0x3F#6].all
      (fun a => (Instr.wrReserved a 0#8).wf) = true := by decide

/-! ### Decoding (V1 to V19h; words of rows the vectors leave out are written from R82 and R85) -/

theorem test_decode_user_patch_words :
    decode 0x00000021#32 = .ok (.wrAmpmMod 0x21#8) ∧
    decode 0x000001C1#32 = .ok (.wrAmpmCar 0xC1#8) ∧
    decode 0x00000285#32 = .ok (.wrKltl 0x85#8) ∧
    decode 0x0000031F#32 = .ok (.wrKlwffb 0x1F#8) ∧
    decode 0x000004F0#32 = .ok (.wrArdrMod 0xF0#8) ∧
    decode 0x000005F4#32 = .ok (.wrArdrCar 0xF4#8) ∧
    decode 0x00000627#32 = .ok (.wrSlrrMod 0x27#8) ∧
    decode 0x0000070F#32 = .ok (.wrSlrrCar 0x0F#8) := by decide

theorem test_decode_channel_words :
    decode 0x0000102C#32 = .ok (.wrFnumLo 0 0x2C#8) ∧
    decode 0x00001800#32 = .ok (.wrFnumLo 8 0x00#8) ∧
    decode 0x00002019#32 = .ok (.wrBlkKey 0 0x19#8) ∧
    decode 0x00002819#32 = .ok (.wrBlkKey 8 0x19#8) ∧
    decode 0x00003A12#32 = .ok (.wrReserved 0x3A#6 0x12#8) ∧
    decode 0x00003891#32 = .ok (.wrInstVol 8 0x91#8) := by decide

theorem test_decode_reserved_and_ignored_bits :
    decode 0x00001900#32 = .ok (.wrReserved 0x19#6 0x00#8) ∧
    decode 0x00003FFF#32 = .ok (.wrReserved 0x3F#6 0xFF#8) ∧
    decode 0x00000F00#32 = .ok (.wrReserved 0x0F#6 0x00#8) ∧
    decode 0x00000E20#32 = .ok (.wrRhythm 0x20#8) ∧
    decode 0x00004E30#32 = .ok (.wrRhythm 0x30#8) ∧
    decode 0x0000C00E#32 = .ok (.wrAmpmMod 0x0E#8) := by decide

theorem test_decode_other_kinds :
    decode 0x10000011#32 = .ok (.ioAddr 0x11#8) ∧
    decode 0x10000120#32 = .ok (.ioData 0x20#8) ∧
    decode 0x1000FE20#32 = .ok (.ioAddr 0x20#8) ∧
    decode 0x1000FF01#32 = .ok (.ioData 0x01#8) ∧
    decode 0x20000000#32 = .ok .calcSample ∧
    decode 0x30000000#32 = .ok .reset ∧
    decode 0x4000FFFF#32 = .ok (.setMask 0xFFFF#16) := by decide

theorem test_decode_refuses :
    [0x20000001#32, 0x30000100#32, 0x00010000#32, 0x1FFF0001#32, 0x40010000#32, 0x50000000#32,
      0xF0000000#32, 0x80000021#32].all
      (fun w => decide (decode w = .error .undefinedCommandWord)) = true := by decide

theorem test_encode_words :
    encode (.wrBlkKey 8 0x19#8) = 0x00002819#32 ∧ encode (.wrReserved 0x3F#6 0x12#8) = 0x00003F12#32 ∧
    encode (.ioData 0x20#8) = 0x10000120#32 ∧ encode (.setMask 0xC001#16) = 0x4000C001#32 := by decide

theorem test_decode_table_word :
    decodeTableWord 32 0x2819 = some (.wrBlkKey 8 0x19#8) ∧ decodeTableWord 32 0x50000000 = none := by
  decide

/-! ### One step (R23, R73, R274; P4, V120 to V123) -/

theorem test_step_runs_fetch_word :
    let t := stepped (State.reset.withFetchWord 32 0x2819)
    (t.block.slotAt 16).egMode = .attack ∧ t.block.regAt 0x28#6 = 0x19#8 ∧ t.index = 1 ∧
      t.pending = [] := by decide

theorem test_step_refuses_with_word_and_index :
    step { State.reset with pending := [0x50000000#32, 0x20000000#32], index := 3 } =
      .refused (.undefinedCommandWord 0x50000000#32 3) := rfl

theorem test_step_idle : step State.reset = .next State.reset := rfl

/-- V123: slots 5 and 9 in Settle. -/
def settled : State :=
  withSlot (withSlot (stateIn [] .finish) 5 (slotIn .settle)) 9 (slotIn .settle)

theorem test_calc_faults_on_lowest_settle : exec .calcSample settled = .fault (.settleUnmodelled 5) :=
  rfl

theorem test_mark_is_sticky :
    (Marked.run 3 { state := { State.reset with pending := [0x50000000#32, 0x30000000#32] },
                    mark := none }).mark =
      some (.refused (.undefinedCommandWord 0x50000000#32 0)) := by decide

/-! ### Register writes (V20 to V35) -/

theorem test_wrAmpmMod :
    let p := (after (.wrAmpmMod 0xDF#8) .reset).block.patchAt 0
    p.am = true ∧ p.pm = true ∧ p.eg = false ∧ p.kr = true ∧ p.ml = 15#4 := by decide
theorem test_wrAmpmCar :
    let p := (after (.wrAmpmCar 0xC1#8) .reset).block.patchAt 1
    p.am = true ∧ p.pm = true ∧ p.eg = false ∧ p.kr = false ∧ p.ml = 1#4 := by decide
theorem test_wrKltl :
    let p := (after (.wrKltl 0x85#8) .reset).block.patchAt 0
    p.kl = 2#2 ∧ p.tl = 5#6 := by decide
theorem test_wrKlwffb :
    let b := (after (.wrKlwffb 0x1F#8) .reset).block
    (b.patchAt 1).kl = 0#2 ∧ (b.patchAt 1).wf = true ∧ (b.patchAt 0).wf = true ∧
      (b.patchAt 0).fb = 7#3 := by decide
theorem test_wrKlwffb_bit5_unused :
    let b := (after (.wrKlwffb 0xE0#8) (stateIn [] .finish)).block
    (b.patchAt 1).kl = 3#2 ∧ (b.patchAt 1).wf = false ∧ (b.patchAt 0).wf = false ∧
      (b.patchAt 0).fb = 0#3 ∧ b.regAt 0x03#6 = 0xE0#8 := by decide
theorem test_wrArdrMod :
    let p := (after (.wrArdrMod 0xF0#8) .reset).block.patchAt 0
    p.ar = 15#4 ∧ p.dr = 0#4 := by decide
theorem test_wrArdrCar :
    let p := (after (.wrArdrCar 0xF4#8) .reset).block.patchAt 1
    p.ar = 15#4 ∧ p.dr = 4#4 := by decide
theorem test_wrSlrrMod :
    let p := (after (.wrSlrrMod 0x27#8) .reset).block.patchAt 0
    p.sl = 2#4 ∧ p.rr = 7#4 := by decide
theorem test_wrSlrrCar :
    let p := (after (.wrSlrrCar 0x0F#8) .reset).block.patchAt 1
    p.sl = 0#4 ∧ p.rr = 15#4 := by decide

/-- V32 from V31: F-number 300, block 4, both slots of channel 0 keyed on. -/
def keyed : State := after (.wrBlkKey 0 0x19#8) (after (.wrFnumLo 0 0x2C#8) .reset)

theorem test_wrFnumLo : (after (.wrFnumLo 0 0x2C#8) .reset).block.fnum 0 = 44#9 := by decide
theorem test_wrBlkKey_on :
    keyed.block.fnum 0 = 300#9 ∧ keyed.block.blockNo 0 = 4#3 ∧ keyed.block.key 0 = true ∧
      (keyed.block.slotAt 0).egMode = .attack ∧ (keyed.block.slotAt 1).egMode = .attack ∧
      (keyed.block.slotAt 2).egMode = .finish := by decide
/-- V42. -/
theorem test_wrBlkKey_off :
    let t := after (.wrBlkKey 0 0x09#8) keyed
    (t.block.slotAt 0).egMode = .attack ∧ (t.block.slotAt 1).egMode = .release := by decide
/-- V40: KeyOn keeps the output history. -/
theorem test_keyOn_keeps_history :
    let x : SlotState :=
      { phase := 0x1234#32, egMode := .sustain, egPhase := 0x50000, out0 := 7, out1 := 5, feedback := 6 }
    (after (.wrBlkKey 0 0x10#8) (withSlot (stateIn [] .finish) 0 x)).block.slotAt 0 =
      { phase := 0#32, egMode := .attack, egPhase := 0, out0 := 7, out1 := 5, feedback := 6 } := by
  decide
theorem test_wrInstVol :
    let b := (after (.wrInstVol 0 0x1A#8) .reset).block
    (b.inst 0).val = 1 ∧ b.volume 0 = 10#4 ∧ (b.slotAt 1).egMode = .finish := by decide
/-- V53, V54. -/
theorem test_wrInstVol_latches :
    (after (.wrInstVol 7 0x5A#8) (stateIn [(0x0E, 0x20#8)] .finish)).block.pvolHh = 5#4 ∧
    (after (.wrInstVol 8 0xC3#8) (stateIn [(0x0E, 0x20#8)] .finish)).block.pvolTom = 12#4 ∧
    (after (.wrInstVol 7 0x5A#8) (stateIn [] .finish)).block.pvolHh = 0#4 := by decide
theorem test_wrReserved :
    (after (.wrReserved 0x3F#6 0x12#8) .reset).block.regAt 0x3F#6 = 0x12#8 := by decide

/-! ### Rhythm mode (V44 to V52) -/

theorem test_rhythm_entry :
    percModes (after (.wrRhythm 0x30#8) (stateIn [] .sustain)) =
      [.attack, .attack, .finish, .finish, .finish, .finish] := by decide
/-- V46. -/
theorem test_rhythm_entry_needs_a_rise :
    percModes (after (.wrRhythm 0x21#8) (stateIn [(0x27, 0x10#8)] .attack)) =
      [.finish, .finish, .finish, .finish, .finish, .finish] := by decide
/-- V47. -/
theorem test_rhythm_rewrite :
    percModes (after (.wrRhythm 0x21#8) (stateIn [(0x0E, 0x31#8)] .decay)) =
      [.decay, .release, .decay, .decay, .decay, .decay] := by decide
/-- V48. -/
theorem test_rhythm_exit :
    percModes (after (.wrRhythm 0x00#8) (stateIn [(0x0E, 0x3F#8), (0x26, 0x10#8)] .decay)) =
      [.decay, .decay, .finish, .finish, .finish, .finish] := by decide
/-- V44. -/
theorem test_rhythm_round_trip :
    let s := stateIn [(0x36, 0x50#8), (0x37, 0x73#8), (0x38, 0x91#8)] .finish
    let t := after (.wrRhythm 0x20#8) s
    let u := after (.wrRhythm 0x00#8) t
    [6, 7, 8].map (fun c => (t.block.inst c).val) = [16, 17, 18] ∧
      [6, 7, 8].map (fun c => (u.block.inst c).val) = [5, 7, 9] := by decide

/-! ### I/O ports, mask, reset (V37 to V39, V114, V115, V119) -/

theorem test_ioAddr : (after (.ioAddr 0xE0#8) .reset).block.ioAddr = 0xE0#8 := by decide
theorem test_ioData_wraps_the_latch :
    let t := after (.ioData 0x19#8) (after (.ioAddr 0xE0#8) .reset)
    t.block.regAt 0x20#6 = 0x19#8 ∧ t.block.ioAddr = 0xE0#8 ∧ (t.block.slotAt 1).egMode = .attack := by
  decide
theorem test_ioData_class_step :
    ((after (.ioData 0x01#8) .reset).block.patchAt 0).ml = 1#4 := by decide
theorem test_setMask : (after (.setMask 0xC001#16) .reset).block.mask = 0x0001#14 := by decide
theorem test_reset_keeps_mask :
    (after .reset (after (.setMask 0x0001#16) .reset)).block.mask = 0x0001#14 := by decide
theorem test_reset_runs_no_keys :
    percModes (after .reset (stateIn [(0x0E, 0x3F#8)] .attack)) =
      [.finish, .finish, .finish, .finish, .finish, .finish] := by decide

/-! ### CALC (sections 2.5 to 2.8, program P1), under the reference tables of
spec/95_test_vectors.md section 0.1: the entries the tests read, 0 elsewhere -/

/-- A table with the listed entries, 0 elsewhere. -/
def sparse : List (Nat × Nat) → Nat → Nat
  | [], _ => 0
  | (k, v) :: l, i => if i = k then v else sparse l i

def refSine : Nat → Nat :=
  sparse [(0, 255), (4, 139), (9, 102), (14, 81), (52, 23), (169, 6), (507, 651)]

def refAmplitude : Nat → Nat :=
  sparse [(6, 224), (23, 155), (28, 139), (102, 28), (139, 12), (145, 11)]

def rateIndex (r k : Nat) : Nat := min (r + k / 4) 15

/-- REF, as far as the tests read it. -/
def ref : Cfg :=
  { clk := 3579545, clk_pos := by decide, rate := 49716, rate_pos := by decide
    pgBits := 9, dpBits := 18, pgBits_pos := by decide, pgBits_le := by decide
    dpBits_le := by decide, egBits := 7, egDpBits := 22, egBits_pos := by decide
    egBits_le := by decide, egDpBits_le := by decide, dbMute := 256, dbMute_ge := by decide
    wave := fun wf i => if wf && decide (256 ≤ i) then 255 else refSine i
    db2lin := fun i =>
      if 512 ≤ i then -(sparse [(651 - 512, 12)] (i - 512) : Int) else refAmplitude i
    arAdjust := sparse [(0, 127), (45, 27)]
    arAdjust_lt := by decide
    dphase := fun f b m =>
      (f.toNat * [1, 2, 4, 6, 8, 10, 12, 14, 16, 18, 20, 20, 24, 24, 30, 30].getD m.toNat 0)
        * 2 ^ b.toNat / 4
    pmApply := fun d l => ((d * l) / 256).toNat
    rks := fun f8 b kr =>
      if kr then BitVec.ofNat 4 (2 * b.toNat + f8.toNat) else BitVec.ofNat 4 (b.toNat / 2)
    arRate := fun r k =>
      if r = 0#4 ∨ r = 15#4 then 0
      else 3 * (k.toNat % 4 + 4) * 2 ^ (rateIndex r.toNat k.toNat + 1)
    arRate_lt := by decide
    drRate := fun r k =>
      if r = 0#4 then 0 else (k.toNat % 4 + 4) * 2 ^ (rateIndex r.toNat k.toNat - 1)
    drRate_lt := by decide
    attackInstant := fun r => r = 15#4
    slThresh := fun l => if l = 15#4 then 2 ^ 22 else 8 * l.toNat * 2 ^ 15
    slThresh_le := by decide
    tll := fun _ _ lv _ => 2 * lv.toNat
    volTl := fun v => BitVec.ofNat 6 (4 * v.toNat)
    eg2db := fun x => 2 * x, eg2db_mono := fun _ _ h => Nat.mul_le_mul_left 2 h
    fbOffset := fun x fb => (x * 4) >>> (7 - fb.toNat)
    modOffset := fun x => x * 8
    pmDpBits := 16, pmPgBits := 8, pmPgBits_le := by decide, pmDphase := 8, pmTable := fun _ => 256
    amDpBits := 16, amPgBits := 8, amPgBits_le := by decide, amDphase := 4, amTable := fun _ => 13
    noiseTaps := 0x12000#17, noiseSeed := 0xFFFF#17, noiseSeed_ne := by decide
    naStep := fun x => x, nbStep := fun x => x, naInit := 0, nbInit := 0
    percRaw := fun _ _ => 50
    factory := fun _ => Patch.zero }

/-- P1 before its first CALC, under a configuration. -/
def p1In (c : Cfg) : Block :=
  [(0x00#8, 0x01#8), (0x01#8, 0x01#8), (0x02#8, 0x00#8), (0x03#8, 0x00#8), (0x04#8, 0xF0#8),
    (0x05#8, 0xF0#8), (0x06#8, 0x00#8), (0x07#8, 0x00#8), (0x30#8, 0x00#8), (0x10#8, 0x2C#8),
    (0x20#8, 0x19#8)].foldl (fun b x => b.writeReg c x.1 x.2) (Block.construct c)

/-- P1 before its first CALC, under REF. -/
def p1 : Block := p1In ref

/-- P1, CALC 1. -/
theorem test_p1_first_sample : (calcMix ref p1).sample = 77 := by decide +kernel
/-- Section 0.1 ("FACTORY ... whatever the model chooses, and a REF vector does not depend on them"):
P1's first sample with every bit of every FACTORY patch set. -/
theorem test_p1_does_not_depend_on_factory :
    let full : Patch := ⟨true, true, true, true, 15#4, 3#2, 63#6, true, 7#3, 15#4, 15#4, 15#4, 15#4⟩
    let c : Cfg := { ref with factory := fun _ => full }
    (calcMix c (p1In c)).sample = 77 := by decide +kernel
/-- P1's end state: after its writes of 0x00 to 0x07, patch 0 is as it says whatever FACTORY is (R134),
and patch 1 keeps TL and FB of FACTORY[1]. -/
theorem test_p1_writes_user_patch (c : Cfg) :
    (p1In c).patchAt 0 =
      ⟨false, false, false, false, 1#4, 0#2, 0#6, false, 0#3, 15#4, 0#4, 0#4, 0#4⟩ ∧
    (p1In c).patchAt 1 =
      ⟨false, false, false, false, 1#4, 0#2, (c.factory 1).tl, false, (c.factory 1).fb,
        15#4, 0#4, 0#4, 0#4⟩ := by
  have patch_writeReg (b : Block) (a d : Byte) :
      (b.writeReg c a d).patch = (classStep (effAddr a) d (b.setReg (effAddr a) d)).patch := by
    simp only [Block.writeReg, Block.writeWith, keyProcess_patch]
  have class0 : regClass (effAddr 0x00#8) = .ampmMod := by decide
  have class1 : regClass (effAddr 0x01#8) = .ampmCar := by decide
  have class2 : regClass (effAddr 0x02#8) = .klTl := by decide
  have class3 : regClass (effAddr 0x03#8) = .klWfFb := by decide
  have class4 : regClass (effAddr 0x04#8) = .arDrMod := by decide
  have class5 : regClass (effAddr 0x05#8) = .arDrCar := by decide
  have class6 : regClass (effAddr 0x06#8) = .slRrMod := by decide
  have class7 : regClass (effAddr 0x07#8) = .slRrCar := by decide
  have inst : regClass (effAddr 0x30#8) = .instVol 0 := by decide
  have fnum : regClass (effAddr 0x10#8) = .fnumLo 0 := by decide
  have key : regClass (effAddr 0x20#8) = .blkKey 0 := by decide
  simp [p1In, Block.patchAt, patch_writeReg, classStep, class0, class1, class2, class3, class4, class5,
    class6, class7, inst, fnum, key, ampmStep, klTlStep, klWfFbStep, arDrStep, slRrStep, instVolStep_eq,
    ampmFields, klTlFields, klWfFields, wfFbFields, arDrFields, slRrFields]
/-- P1, CALC 2. -/
theorem test_p1_second_sample : (calcMix ref (p1.calc ref)).sample = 189 := by decide +kernel
/-- V61: phase 2400 after the first CALC, waveform index 4. -/
theorem test_p1_first_phase :
    ((p1.calc ref).slotAt 1).phase = 2400#32 ∧ (p1.temps ref).pgout 1 = 4 := by decide +kernel

/-- The REF values of the views after V32, with ML = 1 and KR = 0. -/
theorem test_p1_views :
    p1.dphase ref 0 = 2400 ∧ p1.rks ref 0 = 2#4 ∧ p1.tableIncrement ref 0 = 2400 ∧
      p1.rateIndex ref 0 = 2#4 := by decide
/-- V53: the volume latches are the levels of slots 14 and 16, the channel volumes those of 15 and
17, through VOL_TL(v) = 4 v. -/
theorem test_percussion_levels :
    let s := after (.wrInstVol 8 0xC3#8)
      (after (.wrInstVol 7 0x5A#8) (stateIn [(0x0E, 0x20#8)] .finish))
    [14, 15, 16, 17].map (fun k => (s.block.level ref k).toNat) = [20, 40, 48, 12] := by decide
/-- R43 with R26: slot 3 binds operator 1 of its channel's instrument. -/
theorem test_bound_patch :
    let s := stateIn [(0x31, 0xF0#8)] .finish
    let b := { s.block with patch := s.block.patch.set 31 { Patch.zero with wf := true } }
    b.wf 3 = true ∧ b.wf 2 = false ∧ (b.boundPatch 3).wf = true := by decide

theorem test_phase_wraps : phaseAdd ref 0x3FFF0#32 0x20 = 0x10#32 := by decide
/-- V66, V67, V68. -/
theorem test_noise :
    noiseNext ref 0xFFFF#17 = 0x15FFF#17 ∧ noiseNext ref 0x15FFF#17 = 0x18FFF#17 ∧
      noiseNext ref 0x00001#17 = 0x12000#17 ∧ noiseNext ref 0#17 = 0#17 := by decide

/-- A slot with the given mode and envelope accumulator. -/
def slotEg (m : EgMode) (x : Nat) : SlotState := { slotIn m with egPhase := x }

/-- V78. -/
theorem test_attack_done :
    attackStep ref Patch.zero 0x20000 (slotEg .attack 0x3F0000) = ⟨slotEg .decay 0, 0⟩ := by decide
/-- V80. -/
theorem test_attack_at_rate_zero :
    attackStep ref Patch.zero 0 (slotEg .attack 0) = ⟨slotEg .attack 0, 127⟩ := by decide
/-- V82. -/
theorem test_decay_done :
    let p : Patch := { Patch.zero with eg := true, sl := 4#4 }
    decayStep ref p 0x10000 (slotEg .decay 0x0F8000) = ⟨slotEg .sustainHold 0x100000, 0x1F⟩ := by decide
/-- V86. -/
theorem test_sustainHold_ends :
    sustainHoldStep ref Patch.zero (slotEg .sustainHold 0x100000) =
      ⟨slotEg .sustain 0x100000, 0x20⟩ := by decide
/-- V87. -/
theorem test_sustain_finishes :
    egStep ref Patch.zero 0x100 (slotEg .sustain 0x400000) = ⟨slotEg .finish 0x400100, 0x7F⟩ := by decide
/-- V88. -/
theorem test_sustain_tests_before_add :
    egStep ref Patch.zero 0x100 (slotEg .sustain 0x3FFF00) = ⟨slotEg .sustain 0x400000, 0x7F⟩ := by
  decide
/-- V89. -/
theorem test_release :
    egStep ref Patch.zero 0x8000 (slotEg .release 0x200000) = ⟨slotEg .release 0x208000, 0x40⟩ := by
  decide
/-- V89a: the sustain bit of channel 0 makes a carrier release at rate 5. -/
theorem test_sustain_bit_sets_release_rate :
    let b := (stateIn [(0x20, 0x27#8)] .release).block
    b.egRate ref 1 .release = 80 ∧ b.egRate ref 0 .release = 0 := by decide
/-- V55: the conversion of KeyOff in Attack. -/
theorem test_keyOff_in_attack :
    keyOff ref (slotEg .attack 0x168000) = slotEg .release 0xD8000 := by decide

/-- V101: the feedback average. -/
theorem test_modStage :
    let t := modStage ref Patch.zero 9 0 { slotIn .sustain with out0 := 12, feedback := 6 }
    t.out0 = 28 ∧ t.out1 = 12 ∧ t.feedback = 20 := by decide
/-- V102: the feedback offset. -/
theorem test_modStage_feedback :
    (modStage ref { Patch.zero with fb := 7#3 } 6 64 { slotIn .sustain with feedback := 2 }).out0 = 11 :=
  by decide
/-- V104: a negative offset wraps. -/
theorem test_index_wraps :
    wrapIndex 9 3 (-8) = 507 ∧ rawOutput ref false 3 0 (-8) = -12 := by decide
/-- V105. -/
theorem test_modStage_muted :
    let t := modStage ref Patch.zero 9 255 { slotIn .sustain with out0 := 40 }
    t.out0 = 0 ∧ t.out1 = 40 ∧ t.feedback = 20 := by decide
/-- V107. -/
theorem test_carStage :
    let t := carStage ref Patch.zero 9 0 20 { slotIn .sustain with out0 := 155 }
    t.out0 = 224 ∧ t.mean = 189 := by decide
/-- V109. -/
theorem test_average_floors : average (-4) (-3) = -4 := by decide
/-- V112, V113. -/
theorem test_percStage :
    let x : PercIn :=
      { egout := 0, pgout := 0, wf := false, nbit := false, na := 0, nb := 0, pgAll := fun _ => 0 }
    (percStage ref .tom x (slotIn .decay)).mean = 25 ∧
      (percStage ref .tom { x with egout := 255 } { slotIn .decay with out0 := 30 }).mean = 15 := by
  decide
/-- V97, V98, V99: the percussion sum counts twice, and the sum is clipped. -/
theorem test_clip :
    let v := (stateIn [] .finish).block.slot
    (Mix.sample ⟨v, 30000, 2000⟩) = 32767 ∧ (Mix.sample ⟨v, -32000, -1000⟩) = -32768 ∧
      (Mix.sample ⟨v, 100, -50⟩) = 0 := by decide
/-- V90. -/
theorem test_calc_at_reset_is_silent : (calcMix ref (Block.construct ref)).sample = 0 := by
  decide +kernel

/-! ### Assembly (R105, R106; P1) -/

theorem test_keyon_words :
    AsmLine.words (.keyon 0 300#9 4#3 false) = [0x0000102C#32, 0x00002019#32] := by decide
theorem test_read_line :
    readLine "wr 0x20, 0x19 ; WR_BLK_KEY c=0".toList = some (some (.wr 0x20#8 0x19#8)) := by decide
theorem test_read_refuses_wide_operand : readLine "wr 256, 0".toList = none := by decide
theorem test_disassemble :
    disassemble 0x00002019#32 = some "wr 0x20, 0x19 ; WR_BLK_KEY c=0".toList := by decide

/-! ### Witnesses: for every statement with hypotheses, inputs that meet all of them -/

theorem test_meets_DecodeOfEncodeIsInstr : (Instr.wrReserved 0x0F#6 0xFF#8).wf = true := by decide

/-- The words of test_decode_other_kinds and these meet the hypotheses on a word, kind by kind. -/
theorem test_meets_word_hypotheses :
    decode 0x0000C00E#32 = .ok (.wrAmpmMod 0x0E#8) ∧
    (0x0000FFFF#32 : Word).extractLsb' 28 4 = 0x0#4 ∧
    (0x0000FFFF#32 : Word).extractLsb' 16 12 = 0#12 ∧
    (0x1000FE20#32 : Word).extractLsb' 28 4 = 0x1#4 ∧
    (0x1000FE20#32 : Word).extractLsb' 16 12 = 0#12 ∧
    (0x30000000#32 : Word).extractLsb' 28 4 = 0x3#4 ∧
    (0x30000000#32 : Word).extractLsb' 0 16 = 0#16 ∧
    (0x4000FFFF#32 : Word).extractLsb' 28 4 = 0x4#4 := by decide

theorem test_meets_UndefinedWordsAreRefused :
    decode 0x50000000#32 = .error .undefinedCommandWord ∧
      decode 0x20000001#32 = .error .undefinedCommandWord ∧
      ({ State.reset with pending := [0x50000000#32] } : State).pending = [0x50000000#32] := by decide

theorem test_meets_StepRunsIssuedCommand :
    ({ State.reset with pending := [0x2819#32] } : State).pending = 0x2819#32 :: [] ∧
      decode 0x2819#32 = .ok (.wrBlkKey 8 0x19#8) := by decide

theorem test_meets_FaultMarkIsSticky :
    (settled.block.slotAt 5).egMode = .settle ∧
      (∀ j : SlotId, j < 5 → (settled.block.slotAt j).egMode ≠ .settle) ∧
      ({ settled with pending := [0x20000000#32] } : State).pending = 0x20000000#32 :: [] := by decide

/-- A state no register of which is at reset, one slot in Attack, and its step. -/
theorem test_meets_StepKeepsBounds :
    ∃ s t : State, s ≠ State.reset ∧ s.block.Inv Config.cfg ∧ step s = .next t ∧ t.index = 1 := by
  refine ⟨{ stateIn [(0x20, 0x19#8)] .attack with pending := [0x20000000#32] }, _, ?_,
    ⟨fun k => ?_, Nat.two_pow_pos _, Nat.two_pow_pos _⟩, rfl, rfl⟩
  · intro h
    exact absurd (congrArg State.pending h) (by decide)
  · have e : (stateIn [(0x20, 0x19#8)] .attack).block.slotAt k = slotIn .attack := by
      revert k; decide
    refine ⟨?_, ?_⟩
    · show ((stateIn [(0x20, 0x19#8)] .attack).block.slotAt k).phase.toNat < _
      rw [e]; exact Nat.two_pow_pos _
    · show egBound _ ((stateIn [(0x20, 0x19#8)] .attack).block.slotAt k).egMode
        ((stateIn [(0x20, 0x19#8)] .attack).block.slotAt k).egPhase
      rw [e]; exact Nat.two_pow_pos _

theorem test_meets_StepKeepsPresetPatches :
    ∃ s t : State, s.block.mask ≠ 0#14 ∧ s.block.PresetsIntact Config.cfg ∧ step s = .next t := by
  refine ⟨after (.setMask 0x0001#16) State.reset, _, by decide, fun p _ => ?_, rfl⟩
  show (Vector.ofFn Config.cfg.factory)[p.val] = _
  exact Vector.getElem_ofFn _

theorem test_meets_NoiseRegisterStaysNonzero :
    ref.noiseTaps.getLsbD 16 = true ∧ (Block.construct ref).noise ≠ 0#17 ∧
      ({ Block.construct ref with noise := 0#17 } : Block).noise = 0#17 := by decide

theorem test_meets_rhythm_statements :
    State.reset.block.rhythm = false ∧ (0x3F#8 : Byte).getLsbD 5 = true ∧
      (stateIn [(0x0E, 0x20#8)] .decay).block.rhythm = true ∧ (0x1F#8 : Byte).getLsbD 5 = false ∧
      (0x1F#8 : Byte).getLsbD 5 = State.reset.block.rhythm ∧
      (0x20#8 : Byte).getLsbD 5 = (stateIn [(0x0E, 0x20#8)] .decay).block.rhythm := by decide

theorem test_meets_KeyOffReleasesCarrier :
    let s := stateIn [(0x20, 0x10#8)] .attack
    s.block.rhythm = false ∧ s.block.key 0 = true ∧ (0x00#8 : Byte).getLsbD 4 = false ∧
      (s.block.slotAt (carSlot 0)).egMode ≠ .settle := by decide

/-- One witness per clause of WrInstVolBindsAndSetsVolume, at the channels where they meet. -/
theorem test_meets_WrInstVolBindsAndSetsVolume :
    State.reset.block.rhythm = false ∧ (5 : Channel).val ≤ 5 ∧ 6 ≤ (6 : Channel).val ∧
      (stateIn [(0x0E, 0x20#8)] .decay).block.rhythm = true := by decide

theorem test_meets_WrReservedWritesShadowOnly : (Instr.wrReserved 0x39#6 0x12#8).wf = true := by decide

/-- A held byte at 0x37 in rhythm mode and at the edges of the two address ranges, and a user patch that
holds the shadow's fields; the command of the last clause completes. -/
theorem test_meets_EqualWriteTwiceIsOnce :
    let s := stateIn [(0x0E, 0x20#8), (0x37, 0x5A#8)] .decay
    s.block.reg[0x37] = 0x5A#8 ∧ s.block.reg[0x08] = 0x00#8 ∧ s.block.reg[0x07] = 0x00#8 ∧
      s.block.rhythm = true ∧ s.block.userPatchHolds 0x07 0x00#8 ∧
      s.block.userPatchHolds 0x03 0x00#8 ∧ (Instr.wrKlwffb 0x1F#8).wf = true ∧
      ∃ t, exec (.wrKlwffb 0x1F#8) s = .next t :=
  ⟨by decide, by decide, by decide, by decide, by unfold Block.userPatchHolds; decide,
    by unfold Block.userPatchHolds; decide, rfl, _, rfl⟩

/-- The history of the last clause: a user register written after RESET, then two other commands. -/
theorem test_meets_write_then_history :
    ∃ t u : State, exec (writeRow 0x00 0x21#8) State.reset = .next t ∧
      Leads [.wrKltl 0x1E#8, .wrRhythm 0x20#8] t u ∧
      ∀ i ∈ [Instr.wrKltl 0x1E#8, .wrRhythm 0x20#8], i.wf = true ∧ i ≠ .reset :=
  ⟨_, _, rfl, ⟨_, rfl, _, rfl, rfl⟩, by decide⟩

theorem test_meets_OnlyCalcAndResetMoveGenerators :
    Instr.setMask 0#16 ≠ .calcSample ∧ Instr.setMask 0#16 ≠ .reset ∧
      Instr.reset ≠ .calcSample ∧ ∃ t, exec (.setMask 0#16) State.reset = .next t :=
  ⟨by decide, by decide, by decide, _, rfl⟩

/-- A next state under each clause of MaskAndLatchWriters: rhythm mode on, a write to another channel
and a data write to another latch. -/
theorem test_meets_MaskAndLatchWriters :
    (∃ t, exec (.wrInstVol 6 0x5A#8) (stateIn [(0x0E, 0x20#8)] .decay) = .next t) ∧
    (∃ t, exec (.ioData 0x5A#8) (stateIn [(0x0E, 0x20#8)] .decay) = .next t) ∧
    (stateIn [(0x0E, 0x20#8)] .decay).block.ioAddr.toNat % 64 ≠ 0x37 ∧
    (stateIn [(0x0E, 0x20#8)] .decay).block.ioAddr.toNat % 64 ≠ 0x38 ∧
    (∀ d, Instr.wrInstVol 6 0x5A#8 ≠ .wrInstVol 7 d) ∧
    (∀ m, Instr.ioData 0x5A#8 ≠ .setMask m) ∧ ∀ d, Instr.ioData 0x5A#8 ≠ .ioAddr d :=
  ⟨⟨_, rfl⟩, ⟨_, rfl⟩, by decide, by decide, fun d h => absurd h (by simp), fun m h => absurd h (by simp),
    fun d h => absurd h (by simp)⟩

theorem test_meets_EveryCommandCompletes :
    (∀ i : Instr, i = .calcSample → State.reset.block.NoSettle) ∧
      (Instr.reset = .calcSample → settled.block.NoSettle) :=
  ⟨fun _ _ k => by revert k; decide, fun h => absurd h (by decide)⟩

theorem test_meets_RhythmModeChangesReachPercussionOnly :
    (Instr.wrRhythm 0x20#8).wf = true ∧ (after (.wrRhythm 0x20#8) .reset).block.rhythm = true ∧
      State.reset.block.rhythm = false ∧
      (after (.ioData 0x20#8) (after (.ioAddr 0x4E#8) .reset)).block.rhythm = true := by decide

/-- A mode change by each cause that does not rest on a free table. -/
theorem test_meets_EnvelopeModeTransitions :
    ((after (.wrBlkKey 0 0x10#8) (stateIn [] .sustain)).block.slotAt 0).egMode = .attack ∧
    ((after (.wrBlkKey 0 0x00#8) (stateIn [(0x20, 0x10#8)] .sustain)).block.slotAt 1).egMode =
      .release ∧
    ((after .calcSample (stateIn [] .sustainHold)).block.slotAt 0).egMode = .sustain ∧
    ((after (.wrRhythm 0x20#8) (stateIn [] .sustain)).block.slotAt 14).egMode = .finish ∧
    ((after (.wrRhythm 0x00#8) (stateIn [(0x0E, 0x3F#8)] .decay)).block.slotAt 17).egMode = .finish ∧
    ((after .reset (stateIn [] .sustain)).block.slotAt 0).egMode = .finish := by decide

/-- Every slot in one mode with its accumulator at 2^31, beyond every threshold. -/
def saturated (m : EgMode) : State :=
  { stateIn [] m with block :=
    { (stateIn [] m).block with slot := Vector.replicate 18 (slotEg m (2 ^ 31)) } }

/-- The three causes that rest on a table: with the accumulator beyond 2^EG_DP_BITS, CALC moves Attack
to Decay, Decay to Sustain (EG = 0), and Sustain to Finish. -/
theorem test_meets_calc_transitions :
    ((after .calcSample (saturated .attack)).block.slotAt 0).egMode = .decay ∧
    ((after .calcSample (saturated .decay)).block.slotAt 0).egMode = .sustain ∧
    ((after .calcSample (saturated .sustain)).block.slotAt 0).egMode = .finish := by
  have h30 : (2 : Nat) ^ Config.cfg.egDpBits ≤ 2 ^ 30 :=
    Nat.pow_le_pow_right (by decide) Config.cfg.egDpBits_le
  have hsl := Config.cfg.slThresh_le 0#4
  have hb : (2 : Nat) ^ Config.cfg.egBits ≤ 2 ^ 31 >>> Config.cfg.egSh := by
    rw [Nat.shiftRight_eq_div_pow, Nat.le_div_iff_mul_le (Nat.two_pow_pos _), ← pow_add, Cfg.egSh,
      Nat.add_sub_cancel' Config.cfg.egBits_le]
    omega
  refine ⟨(calc_egMode Config.cfg (saturated .attack).block 0).trans ?_,
    (calc_egMode Config.cfg (saturated .decay).block 0).trans ?_,
    (calc_egMode Config.cfg (saturated .sustain).block 0).trans ?_⟩
  · show (attackStep _ Patch.zero _ (slotEg .attack (2 ^ 31))).slot.egMode = _
    rw [attackStep_done (.inl (h30.trans (by simp only [slotEg]; omega)))]
  · exact congrArg SlotState.egMode
      (if_pos ((hsl.trans h30).trans (Nat.le_trans (m := 2 ^ 31) (by decide) (Nat.le_add_right _ _))))
  · exact congrArg (fun r : EgResult => r.slot.egMode) (if_pos hb)

/-- Every slot in one mode other than Settle: CALC completes (the hypothesis of the CALC
statements), and the slot is in the mode the statement on that mode asks for. -/
theorem test_meets_calc_statements (m : EgMode) (hm : m ≠ .settle) (k : SlotId) :
    (stateIn [] m).block.NoSettle ∧ ((stateIn [] m).block.slotAt k).egMode = m := by
  refine ⟨fun j => ?_, ?_⟩
  · revert j; revert hm; cases m <;> decide
  · revert k; cases m <;> decide

theorem test_meets_CalcFaultsOnLowestSettle :
    (settled.block.slotAt 5).egMode = .settle ∧
      ∀ j : SlotId, j < 5 → (settled.block.slotAt j).egMode ≠ .settle := by decide

/-- Channel 8 with rhythm mode off, and channel 6 (the bass drum) and the cymbal with it on: no
voice in Finish after the envelope step. -/
theorem test_meets_voice_statements :
    (stateIn [] .sustainHold).block.rhythm = false ∧
    (stateIn [] .sustainHold).block.endMode Config.cfg (carSlot 8) ≠ .finish ∧
    (stateIn [(0x0E, 0x20#8)] .sustainHold).block.rhythm = true ∧ (6 : Channel).val ≤ 6 ∧
    (stateIn [(0x0E, 0x20#8)] .sustainHold).block.endMode Config.cfg (carSlot 6) ≠ .finish ∧
    (stateIn [(0x0E, 0x20#8)] .sustainHold).block.endMode Config.cfg (percSlot .cym) ≠ .finish ∧
    (∀ k : SlotId, ((stateIn [(0x0E, 0x20#8)] .sustainHold).block.slotAt k).egMode ≠ .settle) := by
  decide

theorem test_meets_FinishSkipFreezesHistory :
    Voice.channel 0 ∈ voices (stateIn [] .finish).block.rhythm ∧
    (stateIn [] .finish).block.endMode Config.cfg (Voice.channel 0).skipSlot = .finish ∧
    (Voice.channel 0).owns (modSlot 0) ∧
    Voice.bd ∈ voices (stateIn [(0x0E, 0x20#8)] .finish).block.rhythm ∧
    (stateIn [(0x0E, 0x20#8)] .finish).block.endMode Config.cfg Voice.bd.skipSlot = .finish ∧
    Voice.bd.owns 12 :=
  ⟨by decide, by decide, .inl rfl, by decide, by decide, .inl rfl⟩

theorem test_meets_VoiceOrderDoesNotMatter (r : Bool) : (voices r).reverse.Perm (voices r) :=
  List.reverse_perm _

theorem test_meets_FullMuteReturnsZero :
    (after (.setMask 0xFFFF#16) (stateIn [] .decay)).block.mask = 0x3FFF#14 ∧
      ∀ k : SlotId, ((after (.setMask 0xFFFF#16) (stateIn [] .decay)).block.slotAt k).egMode ≠
        .settle := by decide

theorem test_meets_MaskDoesNotReachState :
    ({ (stateIn [] .decay).block with mask := 0x0002#14 } : Block).SameButMask
        (stateIn [] .decay).block ∧
      ({ settled.block with mask := 0x0002#14 } : Block).SameButMask settled.block :=
  ⟨rfl, rfl⟩

theorem test_meets_AllFinishReturnsZero :
    ∀ k : SlotId, (State.reset.block.slotAt k).egMode = .finish := by decide

theorem test_meets_ViewsAfterReset :
    ∃ t, exec .reset (stateIn [(0x0E, 0x3F#8)] .attack) = .next t ∧ t.block.role 1 = .carrier :=
  ⟨_, rfl, by decide⟩

end Sys2Proof.Tests
end

/-! SUPPORT. Proofs of the statements about the state (spec/10_state.md): one step of the host's queue,
the constructed block, the frames over all commands, and what a CALC leaves in a slot. -/

namespace Sys2Proof.Machine

/-! ### Steps (R23, R73) -/

/-- What retiring does after a command, which leaves the host's bookkeeping alone. -/
theorem retire_of_exec {s t : State} {w : Word} {rest : List Word} {i : Instr}
    (hp : s.pending = w :: rest) (h : exec i s = .next t) :
    t.retire = { t with pending := rest, index := s.index + 1 } := by
  obtain ⟨hpending, hindex⟩ := exec_bookkeeping h
  simp only [State.retire, hpending, hindex, hp, List.tail_cons]

/-- Settles O7: a step is `exec` on the decoded word, and `exec` leaves the queue and the index to
`retire`. -/
theorem stepRunsIssuedCommand : Obligations.StepRunsIssuedCommand := by
  intro s w rest i hp hd
  have hw : fetch s = some w := by simp [fetch, hp]
  simp only [step, hw, hd]
  cases h : exec i s with
  | next t => exact congrArg Host.Outcome.next (retire_of_exec hp h)
  | fault f => rfl
  | refused r => rfl

/-! ### The constructed block (R58, R292) -/

theorem initial_inBounds (c : Cfg) : (SlotState.initial c).InBounds c where
  phase_lt := Nat.two_pow_pos _
  eg := by
    have : 0 < 2 ^ c.egDpBits := Nat.two_pow_pos _
    simp only [SlotState.initial_egMode, SlotState.initial_egPhase, egBound, Cfg.egFull]
    omega

theorem slotAt_construct (c : Cfg) (k : SlotId) :
    (Block.construct c).slotAt k = SlotState.initial c := by
  simp [Block.slotAt]

theorem construct_inv (c : Cfg) : (Block.construct c).Inv c where
  slots k := slotAt_construct c k ▸ initial_inBounds c
  pm_lt := Nat.two_pow_pos _
  am_lt := Nat.two_pow_pos _

/-- Settles O12: every slot of the block is the initial one, in Finish at EG_FULL. -/
theorem constructedBlockIsInBounds : Obligations.ConstructedBlockIsInBounds :=
  construct_inv Config.cfg

/-! ### The preset patches (R26) -/

theorem presetsIntact_of_factory {c : Cfg} {b : Block} (h : b.patch = Vector.ofFn c.factory) :
    b.PresetsIntact c := fun p _ => by simp [Block.patchAt, h]

/-- Presets that a transition keeps patch by patch stay intact. -/
theorem Block.PresetsIntact.of_patchAt {c : Cfg} {b b' : Block} (hb : b.PresetsIntact c)
    (h : ∀ p : PatchId, 2 ≤ p.val → b'.patchAt p = b.patchAt p) : b'.PresetsIntact c :=
  fun p hp => (h p hp).trans (hb p hp)

theorem exec_keeps_presets {i : Instr} {s t : State} (hs : s.block.PresetsIntact Config.cfg)
    (h : exec i s = .next t) : t.block.PresetsIntact Config.cfg := by
  rcases exec_cases h with ⟨a, d, -, hf⟩ | ⟨d, -, rfl⟩ | ⟨-, -, rfl⟩ | ⟨-, rfl⟩ | ⟨m, -, rfl⟩
  · exact .of_patchAt hs hf.patch
  · exact hs
  · exact .of_patchAt hs fun p _ => by simp [Block.patchAt]
  · exact presetsIntact_of_factory rfl
  · exact hs

/-- Settles O13: of the five effects of a command only a register write and RESET write patches, the
first at most patches 0 and 1, the second all of them with `FACTORY`. -/
theorem stepKeepsPresetPatches : Obligations.StepKeepsPresetPatches := by
  refine ⟨presetsIntact_of_factory rfl, fun s t hs h => ?_⟩
  rcases step_cases h with ⟨-, rfl⟩ | ⟨w, rest, i, u, -, -, he, rfl⟩
  · exact hs
  · exact exec_keeps_presets (t := u) hs he

/-! ### Rhythm mode on and off (R115, R116) -/

theorem exec_wrRhythm (d : Byte) (s : State) :
    ∃ t : State, exec (.wrRhythm d) s = .next t ∧
      t.block.reg = (s.block.setReg 0x0E#6 d).reg := ⟨_, rfl, rfl⟩

theorem chanReg_congr {b b' : Block} (h : b.reg = b'.reg) (base : RegAddr) (c : Channel) :
    b.chanReg base c = b'.chanReg base c := Block.regAt_congr h _

/-- A write of 0x0E leaves the instrument registers alone. -/
theorem instReg_setReg_rhythm (b : Block) (d : Byte) (c : Channel) :
    (b.setReg 0x0E#6 d).chanReg 0x30#6 c = b.chanReg 0x30#6 c :=
  Block.regAt_setReg_ne _ _ (rhythmAddr_ne c).2.2

/-- Out of rhythm mode, and below channel 6 in any mode, a channel binds the instrument of its
register's high nibble (R42). -/
theorem inst_melodic {b : Block} {c : Channel} (h : b.rhythm = false ∨ c.val < 6) :
    b.inst c = ⟨((b.chanReg 0x30#6 c).extractLsb' 4 4).toNat, by omega⟩ := by
  rw [Block.inst, if_neg]
  rintro ⟨hr, hc⟩
  rcases h with h | h
  · simp [h] at hr
  · omega

/-- Settles O23: the instrument of a channel out of rhythm mode is read from its own register, which
neither write touches. -/
theorem rhythmRoundTripRestoresInstruments : Obligations.RhythmRoundTripRestoresInstruments := by
  intro d1 d2 s hs h1 h2
  obtain ⟨t, ht, htreg⟩ := exec_wrRhythm d1 s
  obtain ⟨u, hu, hureg⟩ := exec_wrRhythm d2 t
  refine ⟨t, u, ht, hu, fun c => ?_, fun c hc => ?_⟩
  · have hur : u.block.rhythm = false := by rw [Block.rhythm_of_reg hureg, rhythm_setReg, h2]
    have hreg : u.block.chanReg 0x30#6 c = s.block.chanReg 0x30#6 c := by
      rw [chanReg_congr hureg, instReg_setReg_rhythm, chanReg_congr htreg, instReg_setReg_rhythm]
    rw [inst_melodic (.inl hur), inst_melodic (.inl hs)]
    simp only [hreg]
  · rw [Block.inst_congr htreg, inst_setReg, if_pos ⟨h1, hc⟩]

/-! ### Who writes the mask and the latches (R32, R36, R37) -/

/-- The class step at an address writes the volume latches only as WR_INST_VOL does, at 0x30 + c. -/
theorem classStep_latches (a : RegAddr) (d : Byte) :
    (∃ c : Channel, a.toNat = 0x30 + c.val ∧ classStep a d = instVolStep c d) ∨
      ∀ b : Block, (classStep a d b).pvolHh = b.pvolHh ∧ (classStep a d b).pvolTom = b.pvolTom := by
  have ha := regClass_addr a
  cases hk : regClass a with
  | instVol c =>
    rw [hk] at ha
    refine .inl ⟨c, ?_, funext fun b => by simp only [classStep, hk]⟩
    rw [← ha]
    exact channelAddr_toNat 0x30#6 c (by decide)
  | _ =>
    exact .inr fun b => by
      simp [classStep, hk, ampmStep, klTlStep, klWfFbStep, arDrStep, slRrStep]

/-- The volume latches after the class step of WR_INST_VOL in a write of 0x30 + c (R128). -/
theorem writeWith_instVol_latches (b : Block) (a : RegAddr) (c : Channel) (d : Byte)
    (ha : a.toNat = 0x30 + c.val) :
    let b' := b.writeWith Config.cfg a d (instVolStep c d)
    (b.rhythm = false ∨ c.val ≠ 7 → b'.pvolHh = b.pvolHh) ∧
      (b.rhythm = false ∨ c.val ≠ 8 → b'.pvolTom = b.pvolTom) := by
  have hr : (b.setReg a d).rhythm = b.rhythm := by
    refine Block.rhythm_congr (Block.regAt_setReg_ne _ _ ?_)
    rintro rfl
    simp at ha
    omega
  simp only [Block.writeWith, keyProcess_pvolHh, keyProcess_pvolTom, instVolStep_eq, hr]
  refine ⟨fun h => if_neg ?_, fun h => if_neg ?_⟩ <;> rintro ⟨h1, h2⟩ <;> simp_all

/-- The block after a CALC that completes (R231). -/
theorem block_of_calcSample {s t : State} (h : exec .calcSample s = .next t) :
    t.block = s.block.calc Config.cfg := by
  change execCalc s = .next t at h
  cases hf : s.block.firstSettle with
  | none =>
    rw [execCalc_next (Block.firstSettle_none.mp hf)] at h
    cases h
    rfl
  | some k =>
    rw [execCalc_fault hf] at h
    cases h

theorem writeWith_latches (b : Block) (c : Cfg) (a : RegAddr) (d : Byte) (f : Block → Block) :
    (b.writeWith c a d f).pvolHh = (f (b.setReg a d)).pvolHh ∧
      (b.writeWith c a d f).pvolTom = (f (b.setReg a d)).pvolTom :=
  ⟨keyProcess_pvolHh .., keyProcess_pvolTom ..⟩

/-- Out of RESET a command moves the volume latches only by the class step of WR_INST_VOL, direct or
through the data port (R32). -/
theorem exec_latches {i : Instr} {s t : State} (h : exec i s = .next t) (hr : i ≠ .reset) :
    (t.block.pvolHh = s.block.pvolHh ∧ t.block.pvolTom = s.block.pvolTom) ∨
      ∃ (a : RegAddr) (c : Channel) (d : Byte), a.toNat = 0x30 + c.val ∧
        (i = .wrInstVol c d ∨ i = .ioData d ∧ s.block.ioAddr.toNat % 64 = 0x30 + c.val) ∧
        t.block = s.block.writeWith Config.cfg a d (instVolStep c d) := by
  cases i with
  | wrInstVol c d =>
    cases h
    exact .inr ⟨_, c, d, channelAddr_toNat 0x30#6 c (by decide), .inl rfl, rfl⟩
  | ioData d =>
    rw [execIoData_eq, exec_classInstr] at h
    cases h
    rcases classStep_latches (effAddr s.block.ioAddr) d with ⟨c, ha, hc⟩ | hsame
    · refine .inr ⟨_, c, d, ha, .inr ⟨rfl, effAddr_toNat _ ▸ ha⟩, ?_⟩
      rw [State.onBlock_block, hc]
    · refine .inl ?_
      rw [State.onBlock_block, (writeWith_latches ..).1, (writeWith_latches ..).2]
      exact hsame _
  | calcSample =>
    rw [block_of_calcSample h]
    exact .inl ⟨Block.calc_pvolHh .., Block.calc_pvolTom ..⟩
  | reset => exact absurd rfl hr
  | _ => cases h; exact .inl ⟨rfl, rfl⟩

/-- Out of RESET the volume latches stay in a write that is not R98's (R32). -/
theorem exec_keeps_latches {i : Instr} {s t : State} (h : exec i s = .next t) (hr : i ≠ .reset) :
    ((s.block.rhythm = false ∨ ((∀ d, i ≠ .wrInstVol 7 d) ∧
        ((∃ d, i = .ioData d) → s.block.ioAddr.toNat % 64 ≠ 0x37))) →
      t.block.pvolHh = s.block.pvolHh) ∧
    ((s.block.rhythm = false ∨ ((∀ d, i ≠ .wrInstVol 8 d) ∧
        ((∃ d, i = .ioData d) → s.block.ioAddr.toNat % 64 ≠ 0x38))) →
      t.block.pvolTom = s.block.pvolTom) := by
  rcases exec_latches h hr with ⟨hh, htom⟩ | ⟨a, c, d, ha, hi, ht⟩
  · exact ⟨fun _ => hh, fun _ => htom⟩
  · have hother : ∀ j : Channel, ((∀ d, i ≠ .wrInstVol j d) ∧
        ((∃ d, i = .ioData d) → s.block.ioAddr.toNat % 64 ≠ 0x30 + j.val)) → c.val ≠ j.val := by
      rintro j ⟨hdirect, hport⟩ hc
      rcases hi with rfl | ⟨rfl, hio⟩
      · exact hdirect d (Fin.ext hc ▸ rfl)
      · exact hport ⟨d, rfl⟩ (hc ▸ hio)
    obtain ⟨hh, htom⟩ := writeWith_instVol_latches s.block a c d ha
    rw [ht]
    exact ⟨fun h => hh (h.imp_right (hother 7)), fun h => htom (h.imp_right (hother 8))⟩

/-- Settles O34: mask and address latch by the five effects of a command; the volume latches by the
class step of WR_INST_VOL, the only one that writes them. -/
theorem maskAndLatchWriters : Obligations.MaskAndLatchWriters := by
  intro i s t h
  refine ⟨fun hi => ?_, fun hi hr => ?_, exec_keeps_latches h⟩
  · rcases exec_cases h with ⟨a, d, -, hf⟩ | ⟨d, -, rfl⟩ | ⟨-, -, rfl⟩ | ⟨-, rfl⟩ | ⟨m, rfl, -⟩
    · exact hf.mask
    · rfl
    · exact Block.calc_mask ..
    · exact Block.resetBlock_mask ..
    · exact absurd rfl (hi m)
  · rcases exec_cases h with ⟨a, d, -, hf⟩ | ⟨d, rfl, -⟩ | ⟨-, -, rfl⟩ | ⟨rfl, -⟩ | ⟨m, -, rfl⟩
    · exact hf.ioAddr
    · exact absurd rfl (hi d)
    · exact Block.calc_ioAddr ..
    · exact absurd rfl hr
    · rfl

/-! ### Who changes rhythm mode (R56) -/

/-- A well-formed command is a write of R85's table, or one of the six other commands (R86). -/
theorem eq_decodeReg_of_wf {i : Instr} (h : i.wf = true) :
    (∃ a d, i = decodeReg a d) ∨ (∃ d, i = .ioAddr d) ∨ (∃ d, i = .ioData d) ∨ i = .calcSample ∨
      i = .reset ∨ ∃ m, i = .setMask m := by
  cases i with
  | wrFnumLo c d => exact .inl ⟨channelAddr 0x10#6 c, d, by rw [decodeReg, regClass_fnumLo]; rfl⟩
  | wrBlkKey c d => exact .inl ⟨channelAddr 0x20#6 c, d, by rw [decodeReg, regClass_blkKey]; rfl⟩
  | wrInstVol c d => exact .inl ⟨channelAddr 0x30#6 c, d, by rw [decodeReg, regClass_instVol]; rfl⟩
  | wrReserved a d => exact .inl ⟨a, d, by rw [decodeReg, regClass_reserved h]; rfl⟩
  | wrAmpmMod d => exact .inl ⟨0x00#6, d, rfl⟩
  | wrAmpmCar d => exact .inl ⟨0x01#6, d, rfl⟩
  | wrKltl d => exact .inl ⟨0x02#6, d, rfl⟩
  | wrKlwffb d => exact .inl ⟨0x03#6, d, rfl⟩
  | wrArdrMod d => exact .inl ⟨0x04#6, d, rfl⟩
  | wrArdrCar d => exact .inl ⟨0x05#6, d, rfl⟩
  | wrSlrrMod d => exact .inl ⟨0x06#6, d, rfl⟩
  | wrSlrrCar d => exact .inl ⟨0x07#6, d, rfl⟩
  | wrRhythm d => exact .inl ⟨0x0E#6, d, rfl⟩
  | _ => simp

/-- A register write that completes keeps what `WriteFrame` says. -/
theorem frame_of_decodeReg {a : RegAddr} {d : Byte} {s t : State}
    (h : exec (decodeReg a d) s = .next t) : WriteFrame a d s.block t.block := by
  rw [exec_classInstr] at h
  cases h
  exact writeWith_frame (patchStep_classStep a d) s.block a d

/-- A register write that changes rhythm mode is one of 0x0E (R40). -/
theorem WriteFrame.addr_of_rhythm {a : RegAddr} {d : Byte} {b b' : Block}
    (hf : WriteFrame a d b b') (hne : b'.rhythm ≠ b.rhythm) : a = 0x0E#6 := by
  by_contra ha
  have hr : b'.rhythm = (b.setReg a d).rhythm := Block.rhythm_of_reg hf.reg
  exact hne (hr.trans (Block.rhythm_congr (Block.regAt_setReg_ne _ _ ha)))

/-- Below slot 12 key processing does nothing without an edge of the slot's line (R112, R115, R116). -/
theorem keyStep_low {c : Cfg} {b0 b1 : Block} {k : SlotId} {sl : SlotState} (hk : k.val < 12)
    (hl : b0.line k = b1.line k) : keyStep c b0 b1 k sl = sl := by
  rcases keyStep_causes c b0 b1 k sl with ⟨h0, h1, -⟩ | ⟨h0, h1, -⟩ | ⟨h, -⟩ | h
  · simp [hl, h1] at h0
  · simp [hl, h1] at h0
  · omega
  · exact h

/-- Below slot 12 a key line is the channel's key status (R47, R48). -/
theorem line_low {b : Block} {k : SlotId} (hk : k.val < 12) : b.line k = b.key (chOf k) := by
  simp [Block.line, Block.percBit_lt hk]

/-- A write of 0x0E leaves slots 0 to 11 alone. -/
theorem WriteFrame.slotAt_of_rhythmAddr {d : Byte} {b b' : Block} (hf : WriteFrame 0x0E#6 d b b')
    {k : SlotId} (hk : k.val < 12) : b'.slotAt k = b.slotAt k := by
  obtain ⟨b1, h1, hstep⟩ := hf.slot k
  have hkey : b1.key (chOf k) = b.key (chOf k) :=
    (Block.key_of_reg (b' := b.setReg 0x0E#6 d) (h1.trans hf.reg) _).trans (key_setReg ..)
  rw [hstep, keyStep_low hk]
  rw [line_low hk, line_low hk, hkey]

/-- A write of 0x0E leaves the instruments of channels 0 to 5 alone. -/
theorem WriteFrame.inst_of_rhythmAddr {d : Byte} {b b' : Block} (hf : WriteFrame 0x0E#6 d b b')
    {c : Channel} (hc : c.val < 6) : b'.inst c = b.inst c := by
  have hreg : b'.chanReg 0x30#6 c = b.chanReg 0x30#6 c :=
    (chanReg_congr (b' := b.setReg 0x0E#6 d) hf.reg _ c).trans (instReg_setReg_rhythm ..)
  rw [inst_melodic (.inr hc), inst_melodic (.inr hc)]
  simp only [hreg]

/-- A register write that changes rhythm mode is one of 0x0E and leaves the melodic part alone. -/
theorem WriteFrame.melodic_of_rhythm {a : RegAddr} {d : Byte} {b b' : Block}
    (hf : WriteFrame a d b b') (hne : b'.rhythm ≠ b.rhythm) :
    a = 0x0E#6 ∧ (∀ c : Channel, c.val < 6 → b'.inst c = b.inst c) ∧
      ∀ k : SlotId, k.val < 12 → b'.slotAt k = b.slotAt k := by
  have ha := hf.addr_of_rhythm hne
  subst ha
  exact ⟨rfl, fun _ => hf.inst_of_rhythmAddr, fun _ => hf.slotAt_of_rhythmAddr⟩

/-- Settles O36: only a register write or RESET can change register 0x0E, and the write is one of
0x0E, which keys no slot below 12 and which no melodic binding reads. -/
theorem rhythmModeChangesReachPercussionOnly :
    Obligations.RhythmModeChangesReachPercussionOnly := by
  intro i s t hwf h hne
  rcases eq_decodeReg_of_wf hwf with ⟨a, d, rfl⟩ | ⟨d, rfl⟩ | ⟨d, rfl⟩ | rfl | rfl | ⟨m, rfl⟩
  · obtain ⟨rfl, hmelodic⟩ := (frame_of_decodeReg h).melodic_of_rhythm hne
    exact ⟨.inl ⟨d, rfl⟩, fun _ => hmelodic⟩
  · cases h; exact absurd rfl hne
  · rw [execIoData_eq] at h
    obtain ⟨ha, hmelodic⟩ := (frame_of_decodeReg h).melodic_of_rhythm hne
    refine ⟨.inr (.inl ⟨d, rfl, ?_⟩), fun _ => hmelodic⟩
    rw [← effAddr_toNat, ha]
    rfl
  · rw [block_of_calcSample h] at hne
    exact absurd (sameControl_calc _ _).rhythm hne
  · exact ⟨.inr (.inr rfl), fun hr => absurd rfl hr⟩
  · cases h; exact absurd rfl hne

/-! ### What a CALC leaves in a slot (R157 to R178) -/

/-- CALC completes when no slot holds Settle (R231). -/
theorem exec_calcSample {s : State} (h : s.block.NoSettle) :
    ∃ t : State, exec .calcSample s = .next t ∧ t.block = s.block.calc Config.cfg :=
  ⟨_, execCalc_next h, rfl⟩

/-- Settles O40: the mixdown and the envelope stage keep the phase, so it is the one of the phase
step, read off the block before the CALC. -/
theorem calcAdvancesEveryPhase : Obligations.CalcAdvancesEveryPhase := by
  intro s hs
  obtain ⟨t, ht, htb⟩ := exec_calcSample hs
  refine ⟨t, ht, fun k => ?_⟩
  rw [htb, calc_phase, phaseAdd_toNat, phaseInc_generators, patchOf_eq, dphase_eq,
    Nat.shiftRight_eq_div_pow]

/-- The envelope step of a slot in Attack, at the rate of the stored fields (R52, R172). -/
theorem envelope_attack {b : Block} {c : Cfg} {k : SlotId} (h : (b.slotAt k).egMode = .attack) :
    b.envelope c k =
      attackStep c (b.boundPatch k) (c.arRate (b.boundPatch k).ar (b.rateIndex c k))
        (b.slotAt k) := by
  simp only [Block.envelope, egStep, h, Block.egRate, patchOf_eq, rks_eq]

/-- The envelope step of a slot in Decay, at the rate of the stored fields (R52, R172). -/
theorem envelope_decay {b : Block} {c : Cfg} {k : SlotId} (h : (b.slotAt k).egMode = .decay) :
    b.envelope c k =
      decayStep c (b.boundPatch k) (c.drRate (b.boundPatch k).dr (b.rateIndex c k))
        (b.slotAt k) := by
  simp only [Block.envelope, egStep, h, Block.egRate, patchOf_eq, rks_eq]

/-- Settles O41: CALC leaves the mode and accumulator of the slot's envelope step, which in Attack is
`attackStep`. -/
theorem calcAttackStep : Obligations.CalcAttackStep := by
  intro s k hs hk
  obtain ⟨t, ht, htb⟩ := exec_calcSample hs
  refine ⟨t, ht, ?_⟩
  simp only [htb, calc_egPhase, calc_egMode, envelope_attack hk]
  split
  next h => simp [attackStep_done h]
  next h => simp [attackStep_continue h, hk, shiftRight_egSh]

/-- Settles O42: CALC leaves the mode and accumulator of the slot's envelope step, which in Decay is
`decayStep`. -/
theorem calcDecayStep : Obligations.CalcDecayStep := by
  intro s k hs hk
  obtain ⟨t, ht, htb⟩ := exec_calcSample hs
  refine ⟨t, ht, ?_⟩
  simp only [htb, calc_egPhase, calc_egMode, envelope_decay hk]
  refine ⟨shiftRight_egSh .., ?_⟩
  split
  next h => simp [decayStep, h]
  next h => simp [decayStep, h, hk]

/-! ### The attenuation code (R50, R53, R185) -/

/-- The envelope output of a CALC is that of the block before it: the phase step does not reach it. -/
theorem envelope_calcPhases_e (c : Cfg) (b : Block) (k : SlotId) :
    ((calcPhases c b).envelope c k).e = (b.envelope c k).e := by
  rw [envelope_calcPhases, (egStep_phase ..).2, Block.envelope]

/-- R53 from the stored fields. -/
theorem tll_eq (b : Block) (c : Cfg) (k : SlotId) :
    b.tll c k = c.tll (BitVec.ofNat 4 (b.pitchNumber k / 32)) (BitVec.ofNat 3 (b.pitchBlock k))
      (b.level c k) (b.boundPatch k).kl := by
  rw [Block.tll, fnum_high, blockNo_eq, patchOf_eq]

/-- The attenuation code of a CALC, from the block before it (R185). -/
theorem temps_egout (c : Cfg) (b : Block) (k : SlotId) :
    (b.temps c).egout k =
      min (c.eg2db ((b.envelope c k).e + b.tll c k) +
          (if (b.boundPatch k).am then
            c.amTable ((b.amPhase + c.amDphase) % 2 ^ c.amDpBits / 2 ^ (c.amDpBits - c.amPgBits))
          else 0))
        (c.dbMute - 1) := by
  have h := sameControl_calcPhases c b
  show egout c (calcPhases c b) k = _
  rw [egout, Block.attenuation, envelope_calcPhases_e, h.tll, h.patchOf, patchOf_eq, lfoAm,
    calcPhases_amPhase, Nat.shiftRight_eq_div_pow]

/-- Settles O46: level and TLL by their readings from the stored fields, the attenuation code by the
temporaries of a CALC read off the block before it. -/
theorem attenuationOfSlot : Obligations.AttenuationOfSlot := by
  intro c b k
  refine ⟨level_eq b c k, ?_, ?_⟩
  · rw [tll_eq, level_eq]
  · rw [temps_egout, tll_eq, level_eq]

/-! ### The output stages (R206 to R221) -/

/-- The raw output of an FM stage, in plain numbers (R202 to R204). -/
theorem rawOutput_eq (c : Cfg) (wf : Bool) (pg eg : Nat) (off : Int) :
    rawOutput c wf pg eg off =
      if c.dbMute - 1 ≤ eg then 0
      else c.db2lin (c.wave wf ((((pg : Int) + off) % 2 ^ c.pgBits).toNat) + eg) := by
  simp only [rawOutput, muted, wrapIndex, decide_eq_true_eq]

/-- The mixdown runs the FM pair of a channel in a voice of its own, or as the bass drum (R213,
R233). -/
theorem exists_fmVoice {r : Bool} {ch : Channel} (h : r = false ∨ ch.val ≤ 6) :
    ∃ v ∈ voices r, v.skipSlot = carSlot ch ∧ v.owns (modSlot ch) ∧ v.owns (carSlot ch) ∧
      ∀ (c : Cfg) (b : Block) (t : Temps) (slots : Vector SlotState 18),
        runVoice c b t slots v = channelOut c b t ch slots := by
  by_cases hbd : r = true ∧ ch = 6
  · obtain ⟨rfl, rfl⟩ := hbd
    exact ⟨.bd, by decide, rfl, .inl rfl, .inr rfl, fun _ _ _ _ => rfl⟩
  · refine ⟨.channel ch, ?_, rfl, .inl rfl, .inr rfl, fun _ _ _ _ => rfl⟩
    revert h hbd
    revert r ch
    decide

theorem modSlot_ne_carSlot (ch : Channel) : modSlot ch ≠ carSlot ch := by revert ch; decide

/-- The slots of a channel's FM pair after a CALC that runs it, from the block before it (R212). -/
theorem calc_fmPair {b : Block} {c : Cfg} {ch : Channel} (hr : b.rhythm = false ∨ ch.val ≤ 6)
    (hrun : b.endMode c (carSlot ch) ≠ .finish) :
    (b.calc c).slotAt (modSlot ch) =
        modStage c (b.boundPatch (modSlot ch)) ((b.temps c).pgout (modSlot ch))
          ((b.temps c).egout (modSlot ch)) ((egStage c (calcPhases c b)).slotAt (modSlot ch)) ∧
      (b.calc c).slotAt (carSlot ch) =
        carStage c (b.boundPatch (carSlot ch)) ((b.temps c).pgout (carSlot ch))
          ((b.temps c).egout (carSlot ch)) ((b.calc c).slotAt (modSlot ch)).feedback
          ((egStage c (calcPhases c b)).slotAt (carSlot ch)) := by
  obtain ⟨v, hv, hskip, hmod, hcar, hout⟩ := exists_fmVoice hr
  have hp := (sameControl_mixdown c b).patchOf
  have hm : (b.calc c).slotAt (modSlot ch) = _ := calc_slot_own c b hv hmod
  have hc : (b.calc c).slotAt (carSlot ch) = _ := calc_slot_own c b hv hcar
  rw [hskip, if_neg hrun, hout, channelOut_get] at hm hc
  rw [if_neg (modSlot_ne_carSlot ch), if_pos rfl, hp, patchOf_eq] at hm
  rw [if_pos rfl, hp, hp, patchOf_eq, patchOf_eq, ← hm] at hc
  exact ⟨hm, hc⟩

/-- The mixdown of a CALC starts from the output history before the CALC (R211). -/
theorem history_calcPhases (c : Cfg) (b : Block) (k : SlotId) :
    ((egStage c (calcPhases c b)).slotAt k).out0 = (b.slotAt k).out0 ∧
      ((egStage c (calcPhases c b)).slotAt k).out1 = (b.slotAt k).out1 ∧
      ((egStage c (calcPhases c b)).slotAt k).feedback = (b.slotAt k).feedback :=
  egStage_history c b k

/-- The history after ModStage (R206, R210). -/
theorem modStage_history {c : Cfg} {p : Patch} {pg eg : Nat} {sl sl' : SlotState}
    (h : sl' = modStage c p pg eg sl) :
    let raw := rawOutput c p.wf pg eg (feedbackOffset c p.fb sl.feedback)
    sl'.out1 = sl.out0 ∧ sl'.out0 = raw ∧ sl'.feedback = (raw + sl.out0) / 2 := by
  subst h
  exact ⟨rfl, rfl, average_eq ..⟩

/-- The history after CarStage (R208). -/
theorem carStage_history {c : Cfg} {p : Patch} {pg eg : Nat} {fm : Int} {sl sl' : SlotState}
    (h : sl' = carStage c p pg eg fm sl) :
    sl'.out1 = sl.out0 ∧ sl'.out0 = rawOutput c p.wf pg eg (c.modOffset fm) ∧
      sl'.feedback = sl.feedback := by
  subst h
  exact ⟨rfl, rfl, rfl⟩

/-- Settles O47: the voice of the pair is run on the history before the CALC, ModStage on the
modulator and then CarStage on the carrier with the modulator's new average. -/
theorem calcRunsFmPair : Obligations.CalcRunsFmPair := by
  intro s ch hs hr hrun
  obtain ⟨t, ht, htb⟩ := exec_calcSample hs
  obtain ⟨hmod, hcar⟩ := calc_fmPair hr hrun
  obtain ⟨hm0, -, hmf⟩ := history_calcPhases Config.cfg s.block (modSlot ch)
  obtain ⟨hk0, -, hkf⟩ := history_calcPhases Config.cfg s.block (carSlot ch)
  have hm := modStage_history hmod
  have hk := carStage_history hcar
  rw [hm0, hmf, feedbackOffset, rawOutput_eq, ← htb] at hm
  rw [hk0, hkf, rawOutput_eq, ← htb] at hk
  obtain ⟨hm1, hmraw, hmfb⟩ := hm
  exact ⟨t, ht, hm1, hmraw, hmfb, hk⟩

/-- The slot of a percussion voice after a CALC that runs it, from the block before it (R221). -/
theorem calc_percSlot {b : Block} {c : Cfg} {v : PercVoice} (hr : b.rhythm = true)
    (hrun : b.endMode c (percSlot v) ≠ .finish) :
    (b.calc c).slotAt (percSlot v) =
      percStage c v (percInput (egStage c (calcPhases c b)) (b.temps c) v)
        ((egStage c (calcPhases c b)).slotAt (percSlot v)) := by
  have hv : Voice.perc v ∈ voices b.rhythm := by rw [hr]; cases v <;> decide
  calc (b.calc c).slotAt (percSlot v)
    _ = _ := calc_slot_own c b hv rfl
    _ = (runVoice c (egStage c (calcPhases c b)) (b.temps c) (egStage c (calcPhases c b)).slot
          (.perc v)).slots[(percSlot v).val] := if_neg hrun
    _ = _ := (percOut_get ..).trans (if_pos rfl)

/-- A percussion voice's inputs, from the block before and after the CALC (R154, R155, R220). -/
theorem percInput_calc (c : Cfg) (b : Block) (v : PercVoice) :
    percInput (egStage c (calcPhases c b)) (b.temps c) v =
      { egout := (b.temps c).egout (percSlot v)
        pgout := (b.temps c).pgout (percSlot v)
        wf := (b.boundPatch (percSlot v)).wf
        nbit := (b.calc c).noise.getLsbD 0
        na := (b.calc c).naPhase
        nb := (b.calc c).nbPhase
        pgAll := (b.temps c).pgout } := by
  have hwf : (egStage c (calcPhases c b)).wf (percSlot v) = (b.boundPatch (percSlot v)).wf := by
    rw [(sameControl_mixdown c b).wf, Block.wf, patchOf_eq]
  have hnbit : (b.temps c).nbit = (b.calc c).noise.getLsbD 0 := by
    rw [Block.calc_noise, ← calcPhases_noise]
    rfl
  simp only [percInput, hwf, hnbit, egStage_naPhase, egStage_nbPhase, calcPhases_naPhase,
    calcPhases_nbPhase, Block.calc_naPhase, Block.calc_nbPhase]

/-- The history after PercStage (R204, R221). -/
theorem percStage_history {c : Cfg} {v : PercVoice} {x : PercIn} {sl sl' : SlotState}
    (h : sl' = percStage c v x sl) :
    sl'.out1 = sl.out0 ∧ sl'.out0 = (if c.dbMute - 1 ≤ x.egout then 0 else c.percRaw v x) ∧
      sl'.feedback = sl.feedback := by
  subst h
  simp [percStage, muted]

/-- Settles O48: the voice is run on the history before the CALC, with the inputs of this CALC. -/
theorem calcRunsPercussionVoice : Obligations.CalcRunsPercussionVoice := by
  intro s v hs hr hrun
  obtain ⟨t, ht, htb⟩ := exec_calcSample hs
  obtain ⟨h0, -, hf⟩ := history_calcPhases Config.cfg s.block (percSlot v)
  have h := percStage_history (calc_percSlot hr hrun)
  rw [h0, hf, percInput_calc, ← htb] at h
  exact ⟨t, ht, h⟩

/-! ### The views after RESET (R59) -/

/-- A block whose every register is 0. -/
def Block.Cleared (b : Block) : Prop := ∀ a : RegAddr, b.regAt a = 0x00#8

theorem cleared_resetBlock (b : Block) (c : Cfg) : (b.resetBlock c).Cleared :=
  fun a => by simp [Block.regAt]

section cleared
variable {b : Block} (h : b.Cleared)
include h

theorem Block.Cleared.rhythm : b.rhythm = false := by simp [Block.rhythm, h _]
theorem Block.Cleared.chanReg (base : RegAddr) (ch : Channel) : b.chanReg base ch = 0x00#8 := h _
theorem Block.Cleared.inst (ch : Channel) : (b.inst ch).val = 0 := by
  simp [inst_melodic (.inl h.rhythm), h.chanReg]
theorem Block.Cleared.fnum (ch : Channel) : b.fnum ch = 0#9 := by simp [Block.fnum, h.chanReg]
theorem Block.Cleared.blockNo (ch : Channel) : b.blockNo ch = 0#3 := by
  simp [Block.blockNo, h.chanReg]
theorem Block.Cleared.key (ch : Channel) : b.key ch = false := by simp [Block.key, h.chanReg]
theorem Block.Cleared.sustain (k : SlotId) : b.sustain k = false := by
  simp [Block.sustain, h.chanReg]
theorem Block.Cleared.line (k : SlotId) : b.line k = false := by
  simp [Block.line, h.key, h.rhythm]
theorem Block.Cleared.level {c : Cfg} {k : SlotId} (hk : b.role k = .carrier) :
    b.level c k = c.volTl 0#4 := by
  simp [Block.level, hk, h.rhythm, Block.volume, h.chanReg]

end cleared

/-- Settles O59: RESET clears the register shadow, and every view reads 0 there. -/
theorem viewsAfterReset : Obligations.ViewsAfterReset := by
  intro s t h
  cases h
  have hc := cleared_resetBlock s.block Config.cfg
  exact ⟨hc.rhythm, fun ch => ⟨hc.inst ch, hc.fnum ch, hc.blockNo ch, hc.key ch⟩,
    fun k => ⟨hc.sustain k, hc.line k, hc.level⟩⟩

end Sys2Proof.Machine

/-! SUPPORT. Proof of the statement about equal writes (spec/20_memory.md R71): a write of the byte that
its register holds, the class step done twice, and the user patch through a history without RESET. -/

namespace Sys2Proof.Machine

/-! ### Writes of a byte that the register already holds (R71) -/

theorem Block.setReg_of_held {b : Block} {w : RegAddr} {d : Byte} (h : b.regAt w = d) :
    b.setReg w d = b := by
  subst h
  simp [Block.setReg, Block.regAt]

/-- A write of the held byte moves no key line, so the class step is all of it (R111, R112). -/
theorem Block.writeWith_held {b : Block} {c : Cfg} {w : RegAddr} {d : Byte} {f : Block → Block}
    (h : b.regAt w = d) (hf : PatchStep f) : b.writeWith c w d f = f b := by
  have hreg : b.reg = (f b).reg := (hf.reg b).symm
  rw [Block.writeWith, Block.setReg_of_held h]
  exact keyProcess_same (Block.rhythm_of_reg hreg) fun s =>
    Block.line_congr (Block.regAt_congr hreg _) s (Block.key_of_reg hreg _)

theorem exec_decodeReg_held {s : State} {w : RegAddr} {d : Byte} (h : s.block.regAt w = d) :
    exec (decodeReg w d) s = .next (s.onBlock (classStep w d)) := by
  rw [exec_classInstr]
  simp only [State.onBlock, Block.writeWith_held h (patchStep_classStep w d)]

/-! ### The class step in the user instrument, 0x00 to 0x07 (R117 to R124) -/

theorem userAddr_cases {w : RegAddr} (hw : w.toNat < 8) :
    w = 0x00#6 ∨ w = 0x01#6 ∨ w = 0x02#6 ∨ w = 0x03#6 ∨ w = 0x04#6 ∨ w = 0x05#6 ∨ w = 0x06#6 ∨
      w = 0x07#6 := by
  revert w; decide

theorem Block.modifyPatch_eq_self {b : Block} {p : PatchId} {f : Patch → Patch}
    (h : f (b.patchAt p) = b.patchAt p) : b.modifyPatch p f = b := by
  rw [Block.modifyPatch, h]
  simp [Block.patchAt]

section fields
variable {d : Byte} {p : Patch}

theorem ampmFields_eq_self (h : p.am = d.getLsbD 7 ∧ p.pm = d.getLsbD 6 ∧ p.eg = d.getLsbD 5 ∧
    p.kr = d.getLsbD 4 ∧ p.ml = d.extractLsb' 0 4) : ampmFields d p = p := by
  obtain ⟨ham, hpm, heg, hkr, hml⟩ := h
  rw [ampmFields, ← ham, ← hpm, ← heg, ← hkr, ← hml]

theorem klTlFields_eq_self (h : p.kl = d.extractLsb' 6 2 ∧ p.tl = d.extractLsb' 0 6) :
    klTlFields d p = p := by
  rw [klTlFields, ← h.1, ← h.2]

theorem klWfFields_eq_self (hkl : p.kl = d.extractLsb' 6 2) (hwf : p.wf = d.getLsbD 4) :
    klWfFields d p = p := by
  rw [klWfFields, ← hkl, ← hwf]

theorem wfFbFields_eq_self (h : p.wf = d.getLsbD 3 ∧ p.fb = d.extractLsb' 0 3) :
    wfFbFields d p = p := by
  rw [wfFbFields, ← h.1, ← h.2]

theorem arDrFields_eq_self (h : p.ar = d.extractLsb' 4 4 ∧ p.dr = d.extractLsb' 0 4) :
    arDrFields d p = p := by
  rw [arDrFields, ← h.1, ← h.2]

theorem slRrFields_eq_self (h : p.sl = d.extractLsb' 4 4 ∧ p.rr = d.extractLsb' 0 4) :
    slRrFields d p = p := by
  rw [slRrFields, ← h.1, ← h.2]

end fields

/-- Patches that hold a register's fields already are left alone by its class step. -/
theorem classStep_of_holds {b : Block} {w : RegAddr} {d : Byte} (hw : w.toNat < 8)
    (h : b.userPatchHolds w.toNat d) : classStep w d b = b := by
  rcases userAddr_cases hw with rfl | rfl | rfl | rfl | rfl | rfl | rfl | rfl
  · exact Block.modifyPatch_eq_self (ampmFields_eq_self h)
  · exact Block.modifyPatch_eq_self (ampmFields_eq_self h)
  · exact Block.modifyPatch_eq_self (klTlFields_eq_self h)
  · obtain ⟨hkl, hwf, h0⟩ := h
    have h1 : b.modifyPatch 1 (klWfFields d) = b :=
      Block.modifyPatch_eq_self (klWfFields_eq_self hkl hwf)
    show (b.modifyPatch 1 (klWfFields d)).modifyPatch 0 (wfFbFields d) = b
    rw [h1]
    exact Block.modifyPatch_eq_self (wfFbFields_eq_self h0)
  · exact Block.modifyPatch_eq_self (arDrFields_eq_self h)
  · exact Block.modifyPatch_eq_self (arDrFields_eq_self h)
  · exact Block.modifyPatch_eq_self (slRrFields_eq_self h)
  · exact Block.modifyPatch_eq_self (slRrFields_eq_self h)

theorem classStep_low {w : RegAddr} (d : Byte) (b : Block) (hw : w.toNat < 8) :
    classStep w d b = { b with patch := (classStep w d b).patch } := by
  rcases userAddr_cases hw with rfl | rfl | rfl | rfl | rfl | rfl | rfl | rfl <;> rfl

/-! ### The class step from 0x08 on (R125 to R129) -/

theorem regClass_latch {w : RegAddr} (h : w.toNat = 0x37 ∨ w.toNat = 0x38) :
    ∃ c, regClass w = .instVol c := by
  revert w; decide

/-- From 0x08 on the class step writes a percussion volume latch or nothing (R128). -/
theorem classStep_high {w : RegAddr} (d : Byte) (b : Block) (hw : 8 ≤ w.toNat) :
    classStep w d b = { b with
      pvolHh := if b.rhythm = true ∧ w.toNat = 0x37 then d.extractLsb' 4 4 else b.pvolHh
      pvolTom := if b.rhythm = true ∧ w.toNat = 0x38 then d.extractLsb' 4 4 else b.pvolTom } := by
  have ha := regClass_addr w
  by_cases hc : ∃ c, regClass w = .instVol c
  · obtain ⟨c, hc⟩ := hc
    have hn : w.toNat = 0x30 + c.val := by
      rw [← ha, hc]; exact channelAddr_toNat 0x30#6 c (by decide)
    have h7 : w.toNat = 0x37 ↔ c.val = 7 := by omega
    have h8 : w.toNat = 0x38 ↔ c.val = 8 := by omega
    simp only [classStep, hc, instVolStep_eq, h7, h8]
  · have hl : ¬ (w.toNat = 0x37 ∨ w.toNat = 0x38) := fun h => hc (regClass_latch h)
    obtain ⟨h7, h8⟩ := not_or.mp hl
    have hb : classStep w d b = b := by
      unfold classStep
      cases hk : regClass w with
      | instVol c => exact absurd ⟨c, hk⟩ hc
      | rhythm => rfl
      | fnumLo c => rfl
      | blkKey c => rfl
      | reserved a => rfl
      | _ => rw [hk] at ha; subst ha; exact absurd hw (by decide)
    rw [hb, if_neg fun h => h7 h.2, if_neg fun h => h8 h.2]

/-- Latches that hold what the class step wrote there already are left alone by it. -/
theorem classStep_of_latches {b b1 : Block} {w : RegAddr} {d : Byte} (hw : 8 ≤ w.toNat)
    (hr : b.rhythm = b1.rhythm) (hhh : b.pvolHh = (classStep w d b1).pvolHh)
    (htom : b.pvolTom = (classStep w d b1).pvolTom) : classStep w d b = b := by
  rw [classStep_high d b1 hw, ← hr] at hhh htom
  rw [classStep_high d b hw]
  refine Block.ext_fields rfl rfl rfl ?_ ?_ rfl rfl rfl rfl rfl rfl rfl
  · dsimp only; split_ifs with h
    · rw [hhh, if_pos h]
    · rfl
  · dsimp only; split_ifs with h
    · rw [htom, if_pos h]
    · rfl

/-! ### Two equal writes in a row -/

/-- After a write of 0x00 to 0x07 patches 0 and 1 hold the register's fields (R134). -/
theorem userPatchHolds_writeWith (b : Block) (c : Cfg) (w : RegAddr) (d : Byte)
    (hw : w.toNat < 8) : (b.writeWith c w d (classStep w d)).userPatchHolds w.toNat d := by
  refine (userPatchHolds_congr (keyProcess_patch c b _) _ _).mpr ?_
  exact (userPatchHolds_classStep w d d _ ⟨w.toNat, hw⟩).1 rfl

/-- The class step of a write, done once more, changes nothing. -/
theorem classStep_writeWith (b : Block) (w : RegAddr) (d : Byte) :
    classStep w d (b.writeWith Config.cfg w d (classStep w d)) =
      b.writeWith Config.cfg w d (classStep w d) := by
  rcases Nat.lt_or_ge w.toNat 8 with hw | hw
  · exact classStep_of_holds hw (userPatchHolds_writeWith b Config.cfg w d hw)
  · have hframe := writeWith_frame (patchStep_classStep w d) b w d
    obtain ⟨hhh, htom⟩ := writeWith_latches b Config.cfg w d (classStep w d)
    exact classStep_of_latches hw (Block.rhythm_of_reg (b' := b.setReg w d) hframe.reg) hhh htom

theorem regAt_of_exec_decodeReg {w : RegAddr} {d : Byte} {s t : State}
    (h : exec (decodeReg w d) s = .next t) (w' : RegAddr) :
    t.block.regAt w' = if w = w' then d else s.block.regAt w' :=
  (Block.regAt_congr (b' := s.block.setReg w d) (frame_of_decodeReg h).reg w').trans
    (Block.regAt_setReg ..)

theorem exec_decodeReg_twice (w : RegAddr) (d : Byte) (s : State) :
    ∃ t : State, exec (decodeReg w d) s = .next t ∧ exec (decodeReg w d) t = .next t := by
  refine ⟨_, exec_classInstr w d s, ?_⟩
  have hreg := regAt_of_exec_decodeReg (exec_classInstr w d s) w
  rw [exec_decodeReg_held (hreg.trans (if_pos rfl))]
  exact congrArg (fun b => Host.Outcome.next { s with block := b })
    (classStep_writeWith s.block w d)

theorem exec_ioData_twice (d : Byte) (s : State) :
    ∃ t : State, exec (.ioData d) s = .next t ∧ exec (.ioData d) t = .next t := by
  obtain ⟨t, hs, ht⟩ := exec_decodeReg_twice (effAddr s.block.ioAddr) d s
  refine ⟨t, execIoData_eq d s ▸ hs, ?_⟩
  rw [execIoData_eq, (frame_of_decodeReg hs).ioAddr, ht]

/-! ### The user patch and its registers through a history without RESET -/

/-- Patches 0 and 1 hold the fields of the byte in register `w` (0x00 to 0x07). -/
def Block.HoldsUserReg (b : Block) (w : RegAddr) : Prop := b.userPatchHolds w.toNat (b.regAt w)

theorem Block.HoldsUserReg.congr {b b' : Block} {w : RegAddr} (h : b.HoldsUserReg w)
    (hr : b'.reg = b.reg) (hp : b'.patch = b.patch) : b'.HoldsUserReg w := by
  rw [HoldsUserReg, Block.regAt_congr hr]
  exact (userPatchHolds_congr hp _ _).mpr h

theorem holdsUserReg_of_write {w : RegAddr} {d : Byte} {s t : State} (hw : w.toNat < 8)
    (h : exec (decodeReg w d) s = .next t) : t.block.HoldsUserReg w := by
  rw [Block.HoldsUserReg, regAt_of_exec_decodeReg h, if_pos rfl]
  rw [exec_classInstr] at h
  cases h
  exact userPatchHolds_writeWith s.block Config.cfg w d hw

/-- A register write sets the fields of its own register and keeps those of the others. -/
theorem exec_decodeReg_keeps_holdsUserReg {w w' : RegAddr} {d : Byte} {s t : State}
    (hw : w.toNat < 8) (hs : s.block.HoldsUserReg w) (h : exec (decodeReg w' d) s = .next t) :
    t.block.HoldsUserReg w := by
  by_cases hne : w' = w
  · subst hne
    exact holdsUserReg_of_write hw h
  · rw [Block.HoldsUserReg, regAt_of_exec_decodeReg h, if_neg hne]
    rw [exec_classInstr] at h
    cases h
    refine (userPatchHolds_congr (keyProcess_patch Config.cfg s.block _) _ _).mpr ?_
    exact (userPatchHolds_classStep w' d _ _ ⟨w.toNat, hw⟩).2
      (fun e => hne (BitVec.eq_of_toNat_eq e)) hs

theorem exec_keeps_holdsUserReg {w : RegAddr} {i : Instr} {s t : State} (hw : w.toNat < 8)
    (hs : s.block.HoldsUserReg w) (hwf : i.wf = true) (hr : i ≠ .reset)
    (h : exec i s = .next t) : t.block.HoldsUserReg w := by
  rcases eq_decodeReg_of_wf hwf with ⟨a, d, rfl⟩ | ⟨d, rfl⟩ | ⟨d, rfl⟩ | rfl | rfl | ⟨m, rfl⟩
  · exact exec_decodeReg_keeps_holdsUserReg hw hs h
  · cases h; exact hs
  · rw [execIoData_eq] at h
    exact exec_decodeReg_keeps_holdsUserReg hw hs h
  · rw [block_of_calcSample h]
    exact hs.congr (Block.calc_reg ..) (Block.calc_patch ..)
  · exact absurd rfl hr
  · cases h; exact hs

/-- A write of the byte in a user register whose fields the patches hold changes nothing. -/
theorem exec_decodeReg_of_holdsUserReg {w : RegAddr} {s : State} (hw : w.toNat < 8)
    (h : s.block.HoldsUserReg w) : exec (decodeReg w (s.block.regAt w)) s = .next s := by
  rw [exec_decodeReg_held rfl, State.onBlock, classStep_of_holds hw h]

/-- Settles O31: a write of the held byte is the class step alone, which is idempotent; below 0x08
the patches keep the fields of the byte in the register through every command but RESET. -/
theorem equalWriteTwiceIsOnce : Obligations.EqualWriteTwiceIsOnce := by
  intro a d s
  obtain ⟨w, rfl⟩ : ∃ w : RegAddr, a = w.toFin := ⟨BitVec.ofFin a, rfl⟩
  have hrow (e : Byte) : writeRow w.toFin.val e = decodeReg w e := (decodeReg_eq w e).symm
  simp only [hrow]
  refine ⟨?_, fun hd => ⟨fun hw => ?_, fun hw => ⟨?_, ?_⟩⟩, fun hw hs i t hwf hr h => ?_,
    fun hw l t u h hl hwf => ?_⟩
  · rintro i (rfl | rfl | rfl)
    · exact exec_decodeReg_twice w d s
    · exact ⟨_, rfl, rfl⟩
    · exact exec_ioData_twice d s
  · rw [exec_decodeReg_held hd, State.onBlock, classStep_high d _ hw]
    rfl
  · intro hs
    subst hd
    exact exec_decodeReg_of_holdsUserReg hw hs
  · exact ⟨_, exec_decodeReg_held hd,
      congrArg (fun b => { s with block := b }) (classStep_low d _ hw),
      (userPatchHolds_classStep w d d s.block ⟨w.toNat, hw⟩).1 rfl,
      (patchStep_classStep w d).patch s.block⟩
  · exact exec_keeps_holdsUserReg hw hs hwf hr h
  · have hu : u.block.HoldsUserReg w :=
      leads_keeps (P := fun s => s.block.HoldsUserReg w)
        (fun i hi s t hs h => exec_keeps_holdsUserReg hw hs (hwf i hi).1 (hwf i hi).2 h)
        (holdsUserReg_of_write hw h) hl
    exact exec_decodeReg_of_holdsUserReg hw hu

end Sys2Proof.Machine

/-! SUPPORT. Proofs of the statements about the command word (spec/30_encoding.md R82 to R86): the
decoder kind by kind, its inversion, and the words that commands are encoded to. -/

namespace Sys2Proof

open Sys2Proof.Machine

/-! ### The kinds of a word, and the fields of a masked word (R82) -/

theorem wordKind_cases (w : Word) :
    wordKind w = 0x0#4 ∨ wordKind w = 0x1#4 ∨ wordKind w = 0x2#4 ∨ wordKind w = 0x3#4 ∨
      wordKind w = 0x4#4 ∨ 5 ≤ (wordKind w).toNat := by
  generalize wordKind w = k
  revert k
  decide

theorem wordKind_and (x y : Word) : wordKind (x &&& y) = wordKind x &&& wordKind y :=
  BitVec.extractLsb'_and ..

theorem wordZero_and (x y : Word) : wordZero (x &&& y) = wordZero x &&& wordZero y :=
  BitVec.extractLsb'_and ..

theorem wordHi_and (x y : Word) : wordHi (x &&& y) = wordHi x &&& wordHi y :=
  BitVec.extractLsb'_and ..

theorem wordData_and (x y : Word) : wordData (x &&& y) = wordData x &&& wordData y :=
  BitVec.extractLsb'_and ..

/-- The lowest bit of the port byte is bit 8 of the word (R83, R86). -/
theorem wordHi_getLsbD_zero (w : Word) : (wordHi w).getLsbD 0 = w.getLsbD 8 := by
  simp [wordHi]

theorem wordHi_eq_wordMask (w : Word) : wordHi w = (wordMask w).extractLsb' 8 8 := by
  apply BitVec.eq_of_getLsbD_eq
  intro i h
  simp [wordHi, wordMask, h]

theorem wordData_eq_wordMask (w : Word) : wordData w = (wordMask w).extractLsb' 0 8 := by
  apply BitVec.eq_of_getLsbD_eq
  intro i h
  simp [wordData, wordMask, h]

/-- A word is its kind, its must-be-0 field and its mask value (R82). -/
theorem word_ext_mask {x y : Word} (hk : wordKind x = wordKind y) (hz : wordZero x = wordZero y)
    (hm : wordMask x = wordMask y) : x = y :=
  word_ext hk hz (by rw [wordHi_eq_wordMask, hm, ← wordHi_eq_wordMask])
    (by rw [wordData_eq_wordMask, hm, ← wordData_eq_wordMask])

/-! ### The decoder by kind (R84, R86) -/

section
variable {w : Word}

theorem decode_nonzero (hz : wordZero w ≠ 0#12) : decode w = .error .undefinedCommandWord := by
  simp [decode, hz]

theorem decode_kind2 (hz : wordZero w = 0#12) (hk : wordKind w = 0x2#4) :
    decode w = if wordMask w = 0#16 then .ok .calcSample else .error .undefinedCommandWord := by
  simp [decode, hz, hk]

theorem decode_kind3 (hz : wordZero w = 0#12) (hk : wordKind w = 0x3#4) :
    decode w = if wordMask w = 0#16 then .ok .reset else .error .undefinedCommandWord := by
  simp [decode, hz, hk]

theorem decode_kind4 (hz : wordZero w = 0#12) (hk : wordKind w = 0x4#4) :
    decode w = .ok (.setMask (wordMask w)) := by
  simp [decode, hz, hk]

theorem decode_kind_ge (hk : 5 ≤ (wordKind w).toNat) :
    decode w = .error .undefinedCommandWord := by
  have hne (k : BitVec 4) (h : k.toNat < 5) : wordKind w ≠ k := fun e => by
    rw [e] at hk
    omega
  simp [decode, hne]

/-- What a word that decodes is, and what it decodes to (R82 to R86). -/
theorem decode_cases {i : Instr} (h : decode w = .ok i) :
    (wordKind w = 0x0#4 ∧ i = decodeReg (effAddr (wordHi w)) (wordData w)) ∨
    (wordKind w = 0x1#4 ∧ (wordHi w).getLsbD 0 = false ∧ i = .ioAddr (wordData w)) ∨
    (wordKind w = 0x1#4 ∧ (wordHi w).getLsbD 0 = true ∧ i = .ioData (wordData w)) ∨
    (wordKind w = 0x2#4 ∧ wordMask w = 0#16 ∧ i = .calcSample) ∨
    (wordKind w = 0x3#4 ∧ wordMask w = 0#16 ∧ i = .reset) ∨
    (wordKind w = 0x4#4 ∧ i = .setMask (wordMask w)) := by
  have hz := decode_zero h
  rcases wordKind_cases w with hk | hk | hk | hk | hk | hk
  · rw [decode_kind0 hz hk] at h
    cases h
    exact .inl ⟨hk, rfl⟩
  · rw [decode_kind1 hz hk] at h
    split at h <;> rename_i hp <;> cases h
    · exact .inr (.inr (.inl ⟨hk, hp, rfl⟩))
    · exact .inr (.inl ⟨hk, Bool.not_eq_true _ ▸ hp, rfl⟩)
  · rw [decode_kind2 hz hk] at h
    split at h <;> rename_i hm <;> cases h
    exact .inr (.inr (.inr (.inl ⟨hk, hm, rfl⟩)))
  · rw [decode_kind3 hz hk] at h
    split at h <;> rename_i hm <;> cases h
    exact .inr (.inr (.inr (.inr (.inl ⟨hk, hm, rfl⟩))))
  · rw [decode_kind4 hz hk] at h
    cases h
    exact .inr (.inr (.inr (.inr (.inr ⟨hk, rfl⟩))))
  · rw [decode_kind_ge hk] at h
    cases h

end

/-- The words that spell no command, by their fields (R84). -/
theorem decode_eq_error_iff (w : Word) :
    decode w = .error .undefinedCommandWord ↔
      (5 ≤ (wordKind w).toNat ∨ wordZero w ≠ 0#12 ∨
        ((wordKind w = 0x2#4 ∨ wordKind w = 0x3#4) ∧ wordMask w ≠ 0#16)) := by
  by_cases hz : wordZero w = 0#12
  · rcases wordKind_cases w with hk | hk | hk | hk | hk | hk
    · simp [decode_kind0 hz hk, hk, hz]
    · rw [decode_kind1 hz hk]
      split <;> simp [hk, hz]
    · simp [decode_kind2 hz hk, hk, hz]
    · simp [decode_kind3 hz hk, hk, hz]
    · simp [decode_kind4 hz hk, hk, hz]
    · simp [decode_kind_ge hk, hk]
  · simp [decode_nonzero hz, hz]

/-! ### The word of a command (R82, R83) -/

/-- Settles O1: a write of R85's table has a word of its address, every other command a word of its
own kind. -/
theorem decodeOfEncodeIsInstr : Obligations.DecodeOfEncodeIsInstr := by
  intro i hwf
  rcases eq_decodeReg_of_wf hwf with ⟨a, d, rfl⟩ | ⟨d, rfl⟩ | ⟨d, rfl⟩ | rfl | rfl | ⟨m, rfl⟩
  · rw [encode_decodeReg, decode_regWord]
  · rw [encode, decode_kind1] <;> simp
  · rw [encode, decode_kind1] <;> simp
  · decide
  · decide
  · rw [decode_kind4] <;> simp

/-- The ignored bits of a register write's word are bits 15:14 (R83, item A). -/
theorem regWord_of_kind0 {w : Word} (hz : wordZero w = 0#12) (hk : wordKind w = 0x0#4) :
    regWord (effAddr (wordHi w)) (wordData w) = w &&& 0xFFFF3FFF#32 := by
  have haddr (x : Byte) : (effAddr x).setWidth 8 = x &&& 0x3F#8 := by revert x; decide
  apply word_ext
  · simp [regWord, wordKind_and, hk]
  · simp [regWord, wordZero_and, hz]
  · rw [regWord, wordHi_commandWord, haddr, wordHi_and]
    rfl
  · rw [regWord, wordData_commandWord, wordData_and]
    exact BitVec.and_allOnes.symm

/-- The ignored bits of an I/O write's word are bits 15:9 (R83, item P). -/
theorem commandWord_of_kind1 {w : Word} (hz : wordZero w = 0#12) (hk : wordKind w = 0x1#4) :
    commandWord 0x1#4 (if (wordHi w).getLsbD 0 then 1#8 else 0#8) (wordData w) =
      w &&& 0xFFFF01FF#32 := by
  have hport (x : Byte) : (if x.getLsbD 0 then 1#8 else 0#8) = x &&& 0x01#8 := by revert x; decide
  apply word_ext
  · rw [wordKind_commandWord, wordKind_and, hk]
    rfl
  · simp [wordZero_and, hz]
  · rw [wordHi_commandWord, hport, wordHi_and]
    rfl
  · rw [wordData_commandWord, wordData_and]
    exact BitVec.and_allOnes.symm

/-- A word that decodes gives a well-formed command (R99). -/
theorem wf_of_decode {w : Word} {i : Instr} (h : decode w = .ok i) : i.wf = true := by
  rcases decode_cases h with ⟨-, rfl⟩ | ⟨-, -, rfl⟩ | ⟨-, -, rfl⟩ | ⟨-, -, rfl⟩ | ⟨-, -, rfl⟩ |
    ⟨-, rfl⟩
  · exact wf_decodeReg _ _
  all_goals rfl

/-- The word of a decoded command, by the kind of the word that was decoded (R83). -/
theorem encode_of_decode {w : Word} {i : Instr} (h : decode w = .ok i) :
    encode i =
      if wordKind w = 0x0#4 then w &&& 0xFFFF3FFF#32
      else if wordKind w = 0x1#4 then w &&& 0xFFFF01FF#32
      else w := by
  have hz := decode_zero h
  rcases decode_cases h with ⟨hk, rfl⟩ | ⟨hk, hp, rfl⟩ | ⟨hk, hp, rfl⟩ | ⟨hk, hm, rfl⟩ |
    ⟨hk, hm, rfl⟩ | ⟨hk, rfl⟩
  · simpa [hk, encode_decodeReg] using regWord_of_kind0 hz hk
  · rw [if_neg (by simp [hk]), if_pos hk, ← commandWord_of_kind1 hz hk, hp]
    rfl
  · rw [if_neg (by simp [hk]), if_pos hk, ← commandWord_of_kind1 hz hk, hp]
    rfl
  · simpa [hk] using word_ext_mask (hk.symm ▸ rfl) (hz.symm ▸ rfl) (hm.symm ▸ rfl)
  · simpa [hk] using word_ext_mask (hk.symm ▸ rfl) (hz.symm ▸ rfl) (hm.symm ▸ rfl)
  · simpa [hk] using word_ext_mask (by simp [hk]) (by simp [hz]) (by simp)

/-- Settles O2: kind by kind, the encoded word and the masked word agree in every field. -/
theorem encodeOfDecodeClearsIgnoredBits : Obligations.EncodeOfDecodeClearsIgnoredBits :=
  fun _ _ h => ⟨wf_of_decode h, encode_of_decode h⟩

/-! ### Undefined words (R84, R264) -/

theorem step_undefined {w : Word} {rest : List Word} {s : State} (hp : s.pending = w :: rest)
    (hd : decode w = .error .undefinedCommandWord) :
    step s = .refused (.undefinedCommandWord w s.index) := by
  have hw : fetch s = some w := by simp [fetch, hp]
  simp only [step, hw, hd, undefinedWord]

/-- Settles O3: the decoder's error by kind, and the step on a word that the decoder refuses. -/
theorem undefinedWordsAreRefused : Obligations.UndefinedWordsAreRefused :=
  fun w => ⟨decode_eq_error_iff w, fun hd _ _ hp => step_undefined hp hd⟩

/-! ### Defined words (R85, R86) -/

/-- Settles O4: the class of an effective address is its row of R85's table. -/
theorem registerClassOfWriteReg : Obligations.RegisterClassOfWriteReg := by
  intro w hk hz
  rw [decode_kind0 hz hk, decodeReg_eq, effAddr_toNat]
  rfl

/-- Settles O5: the decoder on each of the kinds 0x1 to 0x4. -/
theorem decodeOfOtherKinds : Obligations.DecodeOfOtherKinds := by
  intro w hz
  refine ⟨fun hk => ?_, fun hk hm => ?_, fun hk hm => ?_, decode_kind4 hz⟩
  · rw [decode_kind1 hz hk, wordHi_getLsbD_zero]
    cases w.getLsbD 8 <;> rfl
  · exact (decode_kind2 hz hk).trans (if_pos hm)
  · exact (decode_kind3 hz hk).trans (if_pos hm)

end Sys2Proof

/-! SUPPORT. Proofs of the statements about register writes (spec/40_register_writes.md): a write at
an address that moves no key line is its shadow and class step; every other write is its shadow and
key processing, whose effect on a slot is read off the key lines before and after. -/

namespace Sys2Proof.Machine

/-! ### Writes that move no key line (R111, R112) -/

/-- A write at an address that neither a key line nor rhythm mode reads is shadow and class step. -/
theorem State.write_quiet {a : RegAddr} {f : Block → Block} (ha : quietAddr a) (hf : PatchStep f)
    (s : State) (d : Byte) : s.write a d f = .next { s with block := f (s.block.setReg a d) } := by
  rw [State.write, State.onBlock, Block.writeWith_quiet ha (hf.reg _)]

/-- A write of 0x00 to 0x07 whose class step rewrites fields of one user patch. -/
theorem State.write_userPatch {a : RegAddr} {p : PatchId} (ha : a.toNat < 8) (hp : p.val < 2)
    (g : Patch → Patch) (s : State) (d : Byte) :
    s.write a d (fun b => b.modifyPatch p g) = .next { s with block := { s.block with
      reg := s.block.reg.set a.toNat d
      patch := s.block.patch.set p.val (g (s.block.patchAt p)) } } :=
  State.write_quiet (quietAddr_low ha) (patchStep_modifyPatch hp g) s d

/-- Settles O15: each is a user-patch write with the fields of R89. -/
theorem ampmWritesSetPatchFields : Obligations.AmpmWritesSetPatchFields := fun d s =>
  ⟨State.write_userPatch (p := 0) (by decide) (by decide) (ampmFields d) s d,
    State.write_userPatch (p := 1) (by decide) (by decide) (ampmFields d) s d⟩

/-- Settles O16: a user-patch write with the fields of R90. -/
theorem wrKltlWritesPatch0 : Obligations.WrKltlWritesPatch0 := fun d s =>
  State.write_userPatch (p := 0) (by decide) (by decide) (klTlFields d) s d

/-- The two patch rewrites of WR_KLWFFB, each of the patch as it was (R120). -/
theorem klWfFbStep_eq (d : Byte) (b : Block) :
    klWfFbStep d b = { b with
      patch := (b.patch.set 0 (wfFbFields d (b.patchAt 0))).set 1
        (klWfFields d (b.patchAt 1)) } := by
  have hread : (b.modifyPatch 1 (klWfFields d)).patchAt 0 = b.patchAt 0 := by
    rw [Block.patchAt_modifyPatch, if_neg (by decide)]
  rw [klWfFbStep, Block.modifyPatch, hread, Vector.set_comm _ _ (by decide)]
  rfl

/-- Settles O17: a write of 0x03 moves no key line, so shadow and class step are all of it. -/
theorem wrKlwffbWritesBothPatches : Obligations.WrKlwffbWritesBothPatches := by
  intro d s
  refine (State.write_quiet (quietAddr_low (by decide)) (patchStep_classStep 0x03#6 d) s d).trans ?_
  exact congrArg (fun b => Host.Outcome.next { s with block := b }) (klWfFbStep_eq d _)

/-- Settles O18: each is a user-patch write with the fields of R92. -/
theorem arDrWritesSetPatchRates : Obligations.ArDrWritesSetPatchRates := fun d s =>
  ⟨State.write_userPatch (p := 0) (by decide) (by decide) (arDrFields d) s d,
    State.write_userPatch (p := 1) (by decide) (by decide) (arDrFields d) s d⟩

/-- Settles O19: each is a user-patch write with the fields of R93. -/
theorem slRrWritesSetPatchLevels : Obligations.SlRrWritesSetPatchLevels := fun d s =>
  ⟨State.write_userPatch (p := 0) (by decide) (by decide) (slRrFields d) s d,
    State.write_userPatch (p := 1) (by decide) (by decide) (slRrFields d) s d⟩

/-! ### What a channel binds (R42, R43) -/

theorem chanReg_setReg_other {b : Block} {a base : RegAddr} {c : Channel} {d : Byte}
    (h : a ≠ channelAddr base c) : (b.setReg a d).chanReg base c = b.chanReg base c :=
  Block.regAt_setReg_ne _ _ h

/-- The instrument of a channel reads rhythm mode and the channel's own register (R42). -/
theorem inst_of_regs {b b' : Block} {c : Channel} (hr : b.rhythm = b'.rhythm)
    (h : b.chanReg 0x30#6 c = b'.chanReg 0x30#6 c) : b.inst c = b'.inst c := by
  simp only [Block.inst, hr, h]

/-- The instrument of a channel that binds its register's high nibble, as a number (R42). -/
theorem inst_val_melodic {b : Block} {c : Channel} (h : b.rhythm = false ∨ c.val < 6) :
    (b.inst c).val = (b.chanReg 0x30#6 c).toNat / 16 := by
  rw [inst_melodic h]
  exact highNibble_toNat _

/-- The bound patches after a write of a register that no binding reads (R42, R43). -/
theorem patchOf_setReg {b : Block} {a : RegAddr} {d : Byte} (h0E : a ≠ 0x0E#6)
    (h30 : ∀ c : Channel, a ≠ channelAddr 0x30#6 c) (k : SlotId) :
    (b.setReg a d).patchOf k = b.patchOf k := by
  have hr : (b.setReg a d).rhythm = b.rhythm := Block.rhythm_congr (Block.regAt_setReg_ne _ _ h0E)
  rw [Block.patchOf, inst_of_regs hr (chanReg_setReg_other (h30 _))]
  rfl

/-! ### Reserved and I/O writes (R129 to R131) -/

/-- The registers that the bindings read, 0x0E and 0x30 + c, are not reserved (R99). -/
theorem reservedAddr_not_binding {a : RegAddr} (h : reservedAddr a = true) :
    a ≠ 0x0E#6 ∧ ∀ c : Channel, a ≠ channelAddr 0x30#6 c := by
  revert a; decide

/-- Settles O28: a reserved address moves no key line, its class step is `id`, and no binding reads
it. -/
theorem wrReservedWritesShadowOnly : Obligations.WrReservedWritesShadowOnly := by
  intro a d s hwf
  obtain ⟨h0E, h30⟩ := reservedAddr_not_binding hwf
  exact ⟨State.write_quiet (quietAddr_reserved hwf) patchStep_id s d, patchOf_setReg h0E h30⟩

/-- Settles O29: IO_ADDR is the record update of the latch. -/
theorem ioAddrLatches : Obligations.IoAddrLatches := fun _ _ => rfl

/-- Settles O30: IO_DATA is the register write of the latched address, whose frame holds the latch
and the shadow. -/
theorem ioDataIsWriteRegAtLatch : Obligations.IoDataIsWriteRegAtLatch := by
  intro d s
  have haddr := effAddr_toNat s.block.ioAddr
  refine ⟨?_, ?_⟩
  · rw [execIoData_eq, decodeReg_eq, haddr]
  · have hexec := exec_classInstr (effAddr s.block.ioAddr) d s
    have hframe := frame_of_decodeReg hexec
    refine ⟨_, (execIoData_eq d s).trans hexec, hframe.ioAddr, ?_⟩
    simp only [hframe.reg, haddr]

/-! ### Register 0x0E: what key processing does to each slot (R115, R116, R133) -/

/-- WR_RHYTHM writes its shadow and each slot's key step. -/
theorem exec_wrRhythm_slots (d : Byte) (s : State) :
    ∃ slots : Vector SlotState 18,
      exec (.wrRhythm d) s = .next { s with
        block := { s.block with reg := s.block.reg.set 0x0E d, slot := slots } } ∧
      ∀ k : SlotId, slots[k.val] =
        keyStep Config.cfg s.block (s.block.setReg 0x0E#6 d) k (s.block.slotAt k) :=
  ⟨_, rfl, slotAt_keyProcess Config.cfg s.block (s.block.setReg 0x0E#6 d)⟩

/-- The key lines after a write of 0x0E (R47, R48). -/
theorem line_setReg_rhythm (b : Block) (d : Byte) (k : SlotId) :
    (b.setReg 0x0E#6 d).line k = (b.key (chOf k) || (d.getLsbD 5 && percKeyBit d k)) := by
  simp only [Block.line, key_setReg, rhythm_setReg, percBit_setReg]

/-- Out of rhythm mode a key line is the channel's key status (R48). -/
theorem line_melodic {b : Block} (h : b.rhythm = false) (k : SlotId) :
    b.line k = b.key (chOf k) := by simp [Block.line, h]

/-- The key step of a write of 0x0E does nothing below slot 12. -/
theorem keyStep_rhythm_low {c : Cfg} {b : Block} {d : Byte} {k : SlotId} {sl : SlotState}
    (hk : k.val < 12) : keyStep c b (b.setReg 0x0E#6 d) k sl = sl :=
  keyStep_low hk (by rw [line_low hk, line_low hk, key_setReg])

/-- Rhythm entry at a percussion slot (R115). -/
theorem keyStep_entry {c : Cfg} {b0 b1 : Block} {k : SlotId} {sl : SlotState}
    (h0 : b0.rhythm = false) (h1 : b1.rhythm = true) (hk : 12 ≤ k.val) :
    keyStep c b0 b1 k sl =
      if b0.line k = false ∧ b1.line k = true then keyOn sl else forceFinish sl :=
  if_pos ⟨h0, h1, hk⟩

/-- Rhythm exit at a percussion slot (R116). -/
theorem keyStep_exit {c : Cfg} {b0 b1 : Block} {k : SlotId} {sl : SlotState}
    (h0 : b0.rhythm = true) (h1 : b1.rhythm = false) (hk : 12 ≤ k.val) :
    keyStep c b0 b1 k sl =
      if b0.line k = true ∧ b1.line k = false then forceFinish sl else sl := by
  simp [keyStep, h0, h1, hk]

/-- Key processing of a write that keeps rhythm mode (R112). -/
theorem keyStep_of_rhythm_eq {c : Cfg} {b0 b1 : Block} {k : SlotId} {sl : SlotState}
    (h : b1.rhythm = b0.rhythm) :
    keyStep c b0 b1 k sl =
      if b0.line k = false ∧ b1.line k = true then keyOn sl
      else if b0.line k = true ∧ b1.line k = false ∧ b1.role k = .carrier then keyOff c sl
      else sl := by
  simp only [keyStep, h]
  rw [if_neg (by simp_all), if_neg (by simp_all)]

/-- Settles O20: a line rises exactly where the channel's key is clear and the percussion bit is
set; bindings and roles read the new register 0x0E. -/
theorem rhythmEntryKeysOrFinishes : Obligations.RhythmEntryKeysOrFinishes := by
  intro d s hs hd
  have hr : (s.block.setReg 0x0E#6 d).rhythm = true := (rhythm_setReg ..).trans hd
  obtain ⟨slots, hexec, hslots⟩ := exec_wrRhythm_slots d s
  refine ⟨slots, hexec, fun k => ?_, fun c hc => ?_,
    (role_percussion (by decide) hr).mpr (by decide), (role_percussion (by decide) hr).mpr (by decide)⟩
  · have hrise : (s.block.line k = false ∧ (s.block.setReg 0x0E#6 d).line k = true) ↔
        (s.block.key (chOf k) = false ∧ percKeyBit d k = true) := by
      rw [line_melodic hs, line_setReg_rhythm, hd, Bool.true_and]
      exact and_congr_right fun hkey => by rw [hkey, Bool.false_or]
    rw [hslots]
    rcases Nat.lt_or_ge k.val 12 with hk | hk
    · rw [keyStep_rhythm_low hk, if_pos hk]
    · rw [keyStep_entry hs hr hk, if_neg (Nat.not_lt.mpr hk)]
      simp only [hrise]
      rfl
  · exact congrArg Fin.val ((inst_setReg s.block d c).trans (if_pos ⟨hd, hc⟩))

/-- Settles O21: after the write a line is the channel's key, so a line falls exactly where the
percussion bit alone held it up. -/
theorem rhythmExitFinishesFallenSlots : Obligations.RhythmExitFinishesFallenSlots := by
  intro d s hs hd
  have hr : (s.block.setReg 0x0E#6 d).rhythm = false := (rhythm_setReg ..).trans hd
  have hline (k : SlotId) : (s.block.setReg 0x0E#6 d).line k = s.block.key (chOf k) := by
    rw [line_melodic hr, key_setReg]
  obtain ⟨slots, hexec, hslots⟩ := exec_wrRhythm_slots d s
  refine ⟨slots, hexec, fun k => ?_, fun c => ?_, role_modulator hr⟩
  · rw [hslots]
    rcases Nat.lt_or_ge k.val 12 with hk | hk
    · rw [keyStep_rhythm_low hk, if_neg (by omega)]
    · rw [keyStep_exit hs hr hk, hline]
      simp only [hk, true_and, and_comm]
      rfl
  · exact (inst_val_melodic (.inl hr)).trans (by rw [instReg_setReg_rhythm])

/-- A set percussion bit belongs to a slot from 12 on (R47). -/
theorem percBit_le {b : Block} {k : SlotId} (h : b.percBit k = true) : 12 ≤ k.val := by
  by_contra hk
  rw [Block.percBit_lt (by omega)] at h
  cases h

/-- Settles O22: rhythm mode stays, so a line moves only by its percussion bit, and only in rhythm
mode with the channel's key clear. -/
theorem rhythmRewriteKeysByPercussionBit : Obligations.RhythmRewriteKeysByPercussionBit := by
  intro d s hd
  have hr : (s.block.setReg 0x0E#6 d).rhythm = s.block.rhythm := (rhythm_setReg ..).trans hd
  obtain ⟨slots, hexec, hslots⟩ := exec_wrRhythm_slots d s
  refine ⟨slots, hexec, fun k => ?_, fun c => ?_⟩
  · rw [hslots]
    have hline1 := line_setReg_rhythm s.block d k
    rw [hd] at hline1
    by_cases hact : s.block.rhythm = true ∧ s.block.key (chOf k) = false
    · obtain ⟨hm, hkey⟩ := hact
      have hline0 : s.block.line k = s.block.percBit k := by simp [Block.line, hm, hkey]
      have hrole : (s.block.percBit k = true ∧ percKeyBit d k = false ∧
          (s.block.setReg 0x0E#6 d).role k = .carrier) ↔
          (s.block.percBit k = true ∧ percKeyBit d k = false ∧ k.val ≠ 12) :=
        and_congr_right fun hp => and_congr_right fun _ =>
          role_percussion (percBit_le hp) (hr.trans hm)
      rw [keyStep_of_rhythm_eq hr, hline0, hline1]
      simp only [hm, hkey, Bool.false_or, Bool.true_and, hrole, true_and]
      rfl
    · have hsame : s.block.line k = (s.block.setReg 0x0E#6 d).line k := by
        rw [hline1, Block.line]
        cases hkey : s.block.key (chOf k) with
        | true => rfl
        | false =>
          have hm : s.block.rhythm = false := by simpa [hkey] using hact
          rw [hm]
          rfl
      rw [keyStep_same hr.symm hsame, if_neg (by tauto), if_neg (by tauto)]
  · exact inst_of_regs hr (instReg_setReg_rhythm s.block d c)

/-! ### A channel's registers (R126 to R128) -/

/-- The shadow at a channel's register, by the address in plain numbers (R64). -/
theorem set_channelAddr (base : RegAddr) {n : Nat} (h : base.toNat = n) (hn : n + 8 < 64)
    (r : Vector Byte 64) (c : Channel) (d : Byte) :
    r.set (n + c.val) d = r.set (channelAddr base c).toNat d := by
  subst h
  simp only [channelAddr_toNat base c hn]

/-- Settles O24: the F-number register moves no key line, and pitch reads it and the 0x20 register,
which stays. -/
theorem wrFnumLoSetsPitch : Obligations.WrFnumLoSetsPitch := by
  intro c d s
  have hkey (c' : Channel) : (s.block.setReg (channelAddr 0x10#6 c) d).chanReg 0x20#6 c' =
      s.block.chanReg 0x20#6 c' := chanReg_setReg_other channelAddr_group_ne.1
  refine ⟨_, State.write_quiet (quietAddr_fnumLo c) patchStep_id s d, ?_, ?_, fun c' hc => ?_,
    fun c' => ?_⟩
  · rw [set_channelAddr 0x10#6 (n := 0x10) rfl (by decide)]
    rfl
  · simp only [id_eq, fnum_toNat, hkey, chanReg_setReg_self]
  · simp only [id_eq, Block.fnum, hkey, chanReg_setReg_ne hc]
  · simp only [id_eq, Block.blockNo, hkey]

/-- The key status after a write of 0x20 + c (R46). -/
theorem key_setReg_blkKey (b : Block) (c c' : Channel) (d : Byte) :
    (b.setReg (channelAddr 0x20#6 c) d).key c' = if c' = c then d.getLsbD 4 else b.key c' := by
  split_ifs with hc
  · rw [hc, Block.key, chanReg_setReg_self]
  · exact Block.key_congr (chanReg_setReg_ne hc)

/-- The key lines after a write of 0x20 + c (R48). -/
theorem line_setReg_blkKey (b : Block) (c : Channel) (d : Byte) (k : SlotId) :
    (b.setReg (channelAddr 0x20#6 c) d).line k =
      if chOf k = c then (d.getLsbD 4 || (b.rhythm && b.percBit k)) else b.line k := by
  have h0E : (b.setReg (channelAddr 0x20#6 c) d).regAt 0x0E#6 = b.regAt 0x0E#6 :=
    Block.regAt_setReg_ne _ _ (rhythmAddr_ne c).2.1.symm
  simp only [Block.line, key_setReg_blkKey, Block.rhythm_congr h0E, Block.percBit_congr h0E]
  split_ifs <;> rfl

/-- Key processing after a write of 0x20 + c: the slots of channel `c` alone, by the edge of their
lines (R127). -/
theorem keyStep_blkKey (cfg : Cfg) (b : Block) (c : Channel) (d : Byte) (k : SlotId)
    (sl : SlotState) :
    keyStep cfg b (b.setReg (channelAddr 0x20#6 c) d) k sl =
      if chOf k = c ∧ b.line k = false ∧ d.getLsbD 4 = true then keyOn sl
      else if chOf k = c ∧ b.line k = true ∧ d.getLsbD 4 = false ∧
          (b.rhythm && b.percBit k) = false ∧ b.role k = .carrier then keyOff cfg sl
      else sl := by
  have hr : (b.setReg (channelAddr 0x20#6 c) d).rhythm = b.rhythm :=
    rhythm_setReg_channel (rhythmAddr_ne c).2.1.symm
  have hline := line_setReg_blkKey b c d k
  by_cases hc : chOf k = c
  · rw [if_pos hc] at hline
    have hrise : (b.line k = false ∧ (d.getLsbD 4 || (b.rhythm && b.percBit k)) = true) ↔
        (b.line k = false ∧ d.getLsbD 4 = true) := by
      refine and_congr_right fun h => ?_
      have hperc : (b.rhythm && b.percBit k) = false := (Bool.or_eq_false_iff.mp h).2
      rw [hperc, Bool.or_false]
    rw [keyStep_of_rhythm_eq hr, hline, Block.role_congr hr]
    simp only [hc, hrise, Bool.or_eq_false_iff, true_and, and_assoc]
  · rw [if_neg hc] at hline
    rw [keyStep_same hr.symm hline.symm, if_neg fun h => hc h.1, if_neg fun h => hc h.1]

/-- Key processing changes nothing that a view reads. -/
theorem sameControl_keyProcess (c : Cfg) (b0 b1 : Block) : SameControl (keyProcess c b0 b1) b1 :=
  ⟨keyProcess_reg .., keyProcess_patch .., keyProcess_pvolHh .., keyProcess_pvolTom ..⟩

/-- Settles O25: the slots by `keyStep_blkKey`; pitch, key and sustain read the written register. -/
theorem wrBlkKeyKeysChannel : Obligations.WrBlkKeyKeysChannel := by
  intro c d s
  have hself := chanReg_setReg_self s.block 0x20#6 c d
  have hviews := sameControl_keyProcess Config.cfg s.block
    (s.block.setReg (channelAddr 0x20#6 c) d)
  refine ⟨_, rfl, ?_, fun k => ?_, ?_, ?_, ?_, fun k hk hrole => ?_⟩
  · rw [set_channelAddr 0x20#6 (n := 0x20) rfl (by decide)]
    rfl
  · exact (slotAt_keyProcess ..).trans (keyStep_blkKey ..)
  · refine (congrArg BitVec.toNat (hviews.fnum c)).trans ?_
    rw [fnum_toNat, hself, chanReg_setReg_other channelAddr_group_ne.1.symm]
  · refine (congrArg BitVec.toNat (hviews.blockNo c)).trans ?_
    rw [blockNo_toNat, hself]
  · exact (Block.key_of_reg hviews.reg c).trans
      ((key_setReg_blkKey s.block c c d).trans (if_pos rfl))
  · have hcarrier := (hviews.role k).symm.trans hrole
    refine (hviews.sustain k).trans ?_
    rw [Block.sustain, hcarrier, hk, hself]
    rfl

/-- KeyOff outside Settle, as one update of mode and accumulator (R114). -/
theorem keyOff_eq {c : Cfg} {sl : SlotState} (h : sl.egMode ≠ .settle) :
    keyOff c sl = { sl with
      egMode := if sl.egMode = .finish then .finish else .release
      egPhase := if sl.egMode = .attack then attackConvert c sl.egPhase else sl.egPhase } := by
  obtain ⟨phase, mode, egPhase, out0, out1, feedback⟩ := sl
  cases mode with
  | settle => exact absurd rfl h
  | _ => rfl

theorem attackConvert_eq (c : Cfg) (x : Nat) :
    attackConvert c x = c.arAdjust (x / 2 ^ (c.egDpBits - c.egBits)) *
      2 ^ (c.egDpBits - c.egBits) := by
  rw [attackConvert, Nat.shiftRight_eq_div_pow, Nat.shiftLeft_eq, Cfg.egSh]

theorem role_carSlot (b : Block) (c : Channel) : b.role (carSlot c) = .carrier := by
  simp [Block.role]

/-- Out of rhythm mode the modulator slot of a channel has the Modulator role (R44). -/
theorem role_modSlot {b : Block} (h : b.rhythm = false) (c : Channel) :
    b.role (modSlot c) = .modulator := by simp [Block.role, h]

/-- Settles O26: the lines of both slots fall, and only the carrier has the Carrier role. -/
theorem keyOffReleasesCarrier : Obligations.KeyOffReleasesCarrier := by
  intro c d s hr hkey hd hmode
  obtain ⟨t, hexec, -, hslots, -⟩ := wrBlkKeyKeysChannel c d s
  have hfall (k : SlotId) (hk : chOf k = c) : t.block.slotAt k =
      if s.block.role k = .carrier then keyOff Config.cfg (s.block.slotAt k)
      else s.block.slotAt k := by
    have hline : s.block.line k = true := by rw [line_melodic hr, hk, hkey]
    rw [hslots, if_neg (by simp [hline])]
    simp only [hk, hline, hd, hr, Bool.false_and, true_and]
  refine ⟨t, hexec, ?_, ?_⟩
  · rw [hfall _ (chOf_modSlot c), if_neg (by simp [role_modSlot hr])]
  · rw [hfall _ (chOf_carSlot c), if_pos (role_carSlot ..), keyOff_eq hmode, attackConvert_eq]

/-- A carrier slot is never slot 14 or 16, so its level is its channel's volume in every mode
(R50). -/
theorem level_carSlot (b : Block) (cfg : Cfg) (c : Channel) :
    b.level cfg (carSlot c) = cfg.volTl (b.volume c) := by
  have h14 : carSlot c ≠ 14 := by revert c; decide
  have h16 : carSlot c ≠ 16 := by revert c; decide
  simp [Block.level, role_carSlot, h14, h16]

/-- Settles O27: the instrument register moves no key line, and the class step writes the two
latches alone. -/
theorem wrInstVolBindsAndSetsVolume : Obligations.WrInstVolBindsAndSetsVolume := by
  intro c d s
  have hr : (s.block.setReg (channelAddr 0x30#6 c) d).rhythm = s.block.rhythm :=
    rhythm_setReg_channel (rhythmAddr_ne c).2.2.symm
  have hstep := patchStep_instVol c d
  have hreg : (instVolStep c d (s.block.setReg (channelAddr 0x30#6 c) d)).reg = _ := hstep.reg _
  have hrhythm := (Block.rhythm_of_reg hreg).trans hr
  have hself := (chanReg_congr hreg 0x30#6 c).trans (chanReg_setReg_self s.block 0x30#6 c d)
  refine ⟨_, State.write_quiet (quietAddr_instVol c) hstep s d, ?_, fun h => ?_, fun hm hc => ?_,
    ?_⟩
  · rw [set_channelAddr 0x30#6 (n := 0x30) rfl (by decide), instVolStep_eq, hr]
    rfl
  · rw [inst_val_melodic (h.imp hrhythm.trans Nat.lt_succ_of_le), hself]
  · rw [Block.inst, Block.inst, if_pos ⟨hrhythm.trans hm, hc⟩, if_pos ⟨hm, hc⟩]
  · rw [level_carSlot, Block.volume, hself]

end Sys2Proof.Machine

/-! SUPPORT. Proofs of the statements about the shared generators and the phase
(spec/41_phase_lfo_noise.md): the noise register in plain numbers, what a CALC moves beside the slots,
which commands move the generators, and the waveform index of a CALC. -/

namespace Sys2Proof.Machine

/-! ### The noise register (R153) -/

/-- One step of the noise register, in plain numbers. -/
theorem noiseNext_eq (c : Cfg) (n : BitVec 17) :
    noiseNext c n =
      if n.toNat % 2 = 1 then BitVec.ofNat 17 (n.toNat / 2) ^^^ c.noiseTaps
      else BitVec.ofNat 17 (n.toNat / 2) := by
  have hbit : n.getLsbD 0 = true ↔ n.toNat % 2 = 1 := by simp [BitVec.getLsbD]
  have hshift : n >>> (1 : Nat) = BitVec.ofNat 17 (n.toNat / 2) := by bv_omega
  simp only [noiseNext, hbit, hshift]

/-- Half of a noise register fits 16 bits, so the shift brings in a 0 at bit 16. -/
theorem getLsbD_half (n : BitVec 17) : (BitVec.ofNat 17 (n.toNat / 2)).getLsbD 16 = false := by
  have h : n.toNat / 2 < 2 ^ 16 := by have := n.isLt; omega
  rw [BitVec.getLsbD_ofNat, Nat.testBit_lt_two_pow h, Bool.and_false]

/-- With `NOISE_TAPS[16] = 1` an odd register steps to one with bit 16 set, and an even nonzero one
to its nonzero half. -/
theorem noiseNext_ne_zero {c : Cfg} {n : BitVec 17} (htaps : c.noiseTaps.getLsbD 16 = true)
    (hn : n ≠ 0#17) : noiseNext c n ≠ 0#17 := by
  rw [noiseNext_eq]
  split
  next hodd =>
    have hbit : (BitVec.ofNat 17 (n.toNat / 2) ^^^ c.noiseTaps).getLsbD 16 = true := by
      rw [BitVec.getLsbD_xor, getLsbD_half, htaps, Bool.false_xor]
    intro h
    rw [h] at hbit
    cases hbit
  next heven =>
    contrapose! hn
    bv_omega

theorem noiseNext_zero (c : Cfg) : noiseNext c 0#17 = 0#17 := rfl

/-- Settles O14: the noise step is `noiseNext` on the register. -/
theorem noiseRegisterStaysNonzero : Obligations.NoiseRegisterStaysNonzero := by
  intro c b
  refine ⟨noiseNext_ne_zero, fun h => ?_⟩
  rw [noiseStep_noise, h, noiseNext_zero]

/-! ### Who moves the generators (R151 to R155, R231, R240) -/

/-- Settles O33: of the five effects of a command only a CALC returns a sample, and only it and RESET
write a generator. -/
theorem onlyCalcAndResetMoveGenerators : Obligations.OnlyCalcAndResetMoveGenerators := by
  intro i s t hi h
  rcases exec_cases h with ⟨a, d, ht, hf⟩ | ⟨d, -, rfl⟩ | ⟨hcalc, -, -⟩ | ⟨hreset, rfl⟩ | ⟨m, -, rfl⟩
  · exact ⟨by rw [ht], fun _ => ⟨hf.pmPhase, hf.amPhase, hf.noise, hf.naPhase, hf.nbPhase⟩⟩
  · exact ⟨rfl, fun _ => ⟨rfl, rfl, rfl, rfl, rfl⟩⟩
  · exact absurd hcalc hi
  · exact ⟨rfl, fun hr => absurd hreset hr⟩
  · exact ⟨rfl, fun _ => ⟨rfl, rfl, rfl, rfl, rfl⟩⟩

/-- The block after a CALC is the one before it but for the slots and the generators (R231). -/
theorem calc_eq (b : Block) (c : Cfg) :
    b.calc c = { b with
      slot := (b.calc c).slot
      pmPhase := (b.pmPhase + c.pmDphase) % 2 ^ c.pmDpBits
      amPhase := (b.amPhase + c.amDphase) % 2 ^ c.amDpBits
      noise := noiseNext c b.noise
      naPhase := c.naStep b.naPhase
      nbPhase := c.nbStep b.nbPhase } := by
  apply Block.ext_fields <;> simp

/-- Settles O38: the block by `calc_eq`, with the noise step in plain numbers. -/
theorem calcCompletesAndStepsGenerators : Obligations.CalcCompletesAndStepsGenerators := by
  intro s hs
  have hblock := calc_eq s.block Config.cfg
  rw [noiseNext_eq] at hblock
  refine ⟨_, sampleOf (calcMix Config.cfg s.block).sample, execCalc_next hs, ?_⟩
  exact State.ext_fields hblock rfl rfl rfl

/-! ### The waveform index (R160) -/

/-- The waveform index of a CALC is cut from the phase that it leaves in the slot: no later stage
moves the phase. -/
theorem temps_pgout (c : Cfg) (b : Block) (k : SlotId) :
    (b.temps c).pgout k =
      ((b.calc c).slotAt k).phase.toNat / 2 ^ (c.dpBits - c.pgBits) := by
  show pgout c (calcPhases c b) k = _
  rw [pgout, slotAt_calcPhases, calc_phase, Nat.shiftRight_eq_div_pow]

/-- The top PG_BITS of a phase below 2^DP_BITS are below 2^PG_BITS. -/
theorem phase_index_lt (c : Cfg) {x : Nat} (h : x < 2 ^ c.dpBits) :
    x / 2 ^ (c.dpBits - c.pgBits) < 2 ^ c.pgBits := by
  apply Nat.div_lt_of_lt_mul
  rwa [← pow_add, Nat.sub_add_cancel c.pgBits_le]

/-- Settles O49: the index is cut from the phase after the CALC, which is below 2^DP_BITS. -/
theorem waveformIndexIsNewPhase : Obligations.WaveformIndexIsNewPhase := by
  intro s hs
  obtain ⟨t, ht, htb⟩ := exec_calcSample hs
  refine ⟨t, ht, fun k => ?_⟩
  rw [htb, temps_pgout]
  refine ⟨rfl, phase_index_lt _ ?_⟩
  rw [calc_phase]
  exact phaseAdd_lt ..

end Sys2Proof.Machine

/-! SUPPORT. Proofs of the statements about the envelope (spec/42_envelope.md): the bounds that every
step keeps, the modes that a command can change and why, and the envelope steps of a CALC beside
Attack and Decay. -/

namespace Sys2Proof.Machine

/-! ### Bounds (R183, R28, R33, R60) -/

theorem envelope_bound {c : Cfg} {b : Block} {k : SlotId}
    (h : egBound c (b.slotAt k).egMode (b.slotAt k).egPhase) :
    egBound c (b.envelope c k).slot.egMode (b.envelope c k).slot.egPhase :=
  egStep_bound (egRate_lt ..) h

/-- A CALC keeps the bounds: the phases and the LFO accumulators are remainders, the envelope
accumulators are those of the envelope steps. -/
theorem calc_inv {c : Cfg} {b : Block} (h : b.Inv c) : (b.calc c).Inv c where
  slots k :=
    { phase_lt := by rw [calc_phase]; exact phaseAdd_lt ..
      eg := by rw [calc_egMode, calc_egPhase]; exact envelope_bound (h.slots k).eg }
  pm_lt := by rw [Block.calc_pmPhase]; exact Nat.mod_lt _ (Nat.two_pow_pos _)
  am_lt := by rw [Block.calc_amPhase]; exact Nat.mod_lt _ (Nat.two_pow_pos _)

@[simp] theorem slotAt_resetBlock (b : Block) (c : Cfg) (k : SlotId) :
    (b.resetBlock c).slotAt k = resetSlot c (b.slotAt k) := by
  simp [Block.slotAt]

/-- RESET leaves every slot as construction does (R58, R291). -/
theorem resetSlot_eq_initial (c : Cfg) (sl : SlotState) : resetSlot c sl = SlotState.initial c := rfl

theorem resetBlock_inv (c : Cfg) (b : Block) : (b.resetBlock c).Inv c where
  slots k := by rw [slotAt_resetBlock, resetSlot_eq_initial]; exact initial_inBounds c
  pm_lt := Nat.two_pow_pos _
  am_lt := Nat.two_pow_pos _

/-- A register write keeps the bounds: each of the four things that key processing can do to a slot
does, and the LFO accumulators stay. -/
theorem WriteFrame.inv {a : RegAddr} {d : Byte} {b b' : Block} (hf : WriteFrame a d b b')
    (h : b.Inv Config.cfg) : b'.Inv Config.cfg where
  slots k := by
    rcases hf.slot_cases k with hk | hk | hk | hk <;> rw [hk]
    · exact keyOn_inBounds ..
    · exact keyOff_inBounds (h.slots k)
    · exact forceFinish_inBounds (h.slots k)
    · exact h.slots k
  pm_lt := hf.pmPhase ▸ h.pm_lt
  am_lt := hf.amPhase ▸ h.am_lt

theorem exec_keeps_inv {i : Instr} {s t : State} (hs : s.block.Inv Config.cfg)
    (h : exec i s = .next t) : t.block.Inv Config.cfg := by
  rcases exec_cases h with ⟨a, d, -, hf⟩ | ⟨d, -, rfl⟩ | ⟨-, -, rfl⟩ | ⟨-, rfl⟩ | ⟨m, -, rfl⟩
  · exact hf.inv hs
  · exact ⟨hs.slots, hs.pm_lt, hs.am_lt⟩
  · exact calc_inv hs
  · exact resetBlock_inv ..
  · exact ⟨hs.slots, hs.pm_lt, hs.am_lt⟩

/-- Settles O11: each of the five effects of a command keeps the bounds, and retiring leaves the block
alone. -/
theorem stepKeepsBounds : Obligations.StepKeepsBounds := by
  intro s t hs h
  rcases step_cases h with ⟨-, rfl⟩ | ⟨w, rest, i, u, -, -, he, rfl⟩
  · exact hs
  · exact exec_keeps_inv (t := u) hs he

/-! ### The Settle fault (R179, R267) -/

/-- The search finds a slot in Settle below which no slot is. -/
theorem Block.firstSettle_eq_some {b : Block} {k : SlotId} (hk : (b.slotAt k).egMode = .settle)
    (hlow : ∀ j < k, (b.slotAt j).egMode ≠ .settle) : b.firstSettle = some k := by
  cases hf : b.firstSettle with
  | none => exact absurd hk (Block.firstSettle_none.mp hf k)
  | some j =>
    obtain ⟨hj, hjlow⟩ := Block.firstSettle_some hf
    have hjk : j ≤ k := not_lt.mp fun h => hjlow k h hk
    have hkj : k ≤ j := not_lt.mp fun h => hlow j h hj
    rw [le_antisymm hjk hkj]

/-- Settles O39: the fault names the slot that the search finds. -/
theorem calcFaultsOnLowestSettle : Obligations.CalcFaultsOnLowestSettle := fun _ _ hk hlow =>
  execCalc_fault (Block.firstSettle_eq_some hk hlow)

/-! ### The envelope steps, from the stored fields (R52, R172, R175 to R178) -/

/-- The DR_RATE index of a slot in Sustain or Release: 5 in Release on a Carrier-role slot with the
sustain bit set, RR of the bound patch otherwise (R172, R180). -/
def Block.fadeIndex (b : Block) (k : SlotId) : BitVec 4 :=
  if (b.slotAt k).egMode = .release ∧ b.carrierRole k ∧ b.byte (0x20 + k.val / 2) / 32 % 2 = 1 then
    5#4
  else (b.boundPatch k).rr

section steps
variable {b : Block} {c : Cfg} {k : SlotId}

theorem envelope_sustainHold (h : (b.slotAt k).egMode = .sustainHold) :
    b.envelope c k = sustainHoldStep c (b.boundPatch k) (b.slotAt k) := by
  simp only [Block.envelope, egStep, h, patchOf_eq]

theorem envelope_sustain (h : (b.slotAt k).egMode = .sustain) :
    b.envelope c k = fadeStep c (c.drRate (b.fadeIndex k) (b.rateIndex c k)) (b.slotAt k) := by
  have hindex : b.fadeIndex k = (b.boundPatch k).rr := if_neg (by simp [h])
  simp only [Block.envelope, egStep, h, Block.egRate, patchOf_eq, rks_eq, hindex]

theorem envelope_release (h : (b.slotAt k).egMode = .release) :
    b.envelope c k = fadeStep c (c.drRate (b.fadeIndex k) (b.rateIndex c k)) (b.slotAt k) := by
  have hindex : b.fadeIndex k = if b.sustain k then 5#4 else (b.boundPatch k).rr := by
    simp only [Block.fadeIndex, h, sustain_eq, decide_eq_true_eq, true_and]
  simp only [Block.envelope, egStep, h, Block.egRate, patchOf_eq, rks_eq, hindex]
  split <;> rfl

/-- Sustain and Release share their step (R176, R177). -/
theorem envelope_fade (h : (b.slotAt k).egMode = .sustain ∨ (b.slotAt k).egMode = .release) :
    b.envelope c k = fadeStep c (c.drRate (b.fadeIndex k) (b.rateIndex c k)) (b.slotAt k) :=
  h.elim envelope_sustain envelope_release

theorem envelope_finish (h : (b.slotAt k).egMode = .finish) :
    b.envelope c k = { slot := b.slotAt k, e := c.egMax } := by
  simp only [Block.envelope, egStep, h]

end steps

/-! ### The mode, the accumulator and the output that each envelope step leaves (R173 to R177) -/

section fields
variable (c : Cfg) (p : Patch) (rate : Nat) (sl : SlotState)

theorem attackStep_egMode :
    (attackStep c p rate sl).slot.egMode =
      if 2 ^ c.egDpBits ≤ sl.egPhase + rate ∨ c.attackInstant p.ar = true then .decay
      else sl.egMode := by
  unfold attackStep
  exact apply_ite (fun r : EgResult => r.slot.egMode) ..

theorem decayStep_egMode :
    (decayStep c p rate sl).slot.egMode =
      if c.slThresh p.sl ≤ sl.egPhase + rate then (if p.eg then .sustainHold else .sustain)
      else sl.egMode := apply_ite SlotState.egMode ..

theorem sustainHoldStep_egMode :
    (sustainHoldStep c p sl).slot.egMode = if p.eg = false then .sustain else sl.egMode := by
  cases h : p.eg <;> simp [sustainHoldStep, h]

theorem sustainHoldStep_egPhase : (sustainHoldStep c p sl).slot.egPhase = sl.egPhase := by
  simp only [sustainHoldStep]
  split <;> rfl

theorem fadeStep_egMode :
    (fadeStep c rate sl).slot.egMode =
      if 2 ^ c.egBits ≤ sl.egPhase / 2 ^ (c.egDpBits - c.egBits) then .finish else sl.egMode := by
  rw [← shiftRight_egSh]
  exact apply_ite (fun r : EgResult => r.slot.egMode) ..

theorem fadeStep_egPhase : (fadeStep c rate sl).slot.egPhase = sl.egPhase + rate := by
  unfold fadeStep
  split <;> rfl

theorem fadeStep_e :
    (fadeStep c rate sl).e =
      if 2 ^ c.egBits ≤ sl.egPhase / 2 ^ (c.egDpBits - c.egBits) then 2 ^ c.egBits - 1
      else sl.egPhase / 2 ^ (c.egDpBits - c.egBits) := by
  rw [← shiftRight_egSh]
  exact apply_ite EgResult.e ..

end fields

/-! ### The envelope steps of a CALC (R175 to R178) -/

/-- Settles O43: CALC leaves the mode and accumulator of the slot's envelope step, which in
SustainHold is `sustainHoldStep`. -/
theorem calcSustainHoldStep : Obligations.CalcSustainHoldStep := by
  intro s k hs hk
  obtain ⟨t, ht, htb⟩ := exec_calcSample hs
  refine ⟨t, ht, ?_⟩
  simp only [htb, calc_egPhase, calc_egMode, envelope_sustainHold hk]
  exact ⟨shiftRight_egSh .., sustainHoldStep_egPhase .., hk ▸ sustainHoldStep_egMode ..⟩

/-- Settles O44: in both modes the slot's envelope step is `fadeStep`, at the rate of `fadeIndex`. -/
theorem calcSustainAndReleaseSteps : Obligations.CalcSustainAndReleaseSteps := by
  intro s k hs hk
  obtain ⟨t, ht, htb⟩ := exec_calcSample hs
  refine ⟨t, ht, ?_⟩
  simp only [htb, calc_egPhase, calc_egMode, envelope_fade hk]
  exact ⟨fadeStep_egPhase .., fadeStep_egMode .., fadeStep_e ..⟩

/-- Settles O45: in Finish the envelope step keeps the slot. -/
theorem calcFinishStep : Obligations.CalcFinishStep := by
  intro s k hs hk
  obtain ⟨t, ht, htb⟩ := exec_calcSample hs
  refine ⟨t, ht, ?_⟩
  rw [htb, calc_egPhase, calc_egMode, envelope_finish hk]
  exact ⟨rfl, hk, rfl⟩

/-! ### Who changes an envelope mode (R171) -/

/-- What a register write does to a slot, with the cause of each, by the key lines, rhythm mode and
role before and after it (R112 to R116). -/
theorem WriteFrame.slot_causes {a : RegAddr} {d : Byte} {b b' : Block} (hf : WriteFrame a d b b')
    (k : SlotId) :
    (b.line k = false ∧ b'.line k = true ∧ b'.slotAt k = keyOn (b.slotAt k)) ∨
      (b.line k = true ∧ b'.line k = false ∧ b'.role k = .carrier ∧
        b'.slotAt k = keyOff Config.cfg (b.slotAt k)) ∨
      (12 ≤ k.val ∧
        ((b.rhythm = false ∧ b'.rhythm = true ∧ ¬ (b.line k = false ∧ b'.line k = true)) ∨
          (b.rhythm = true ∧ b'.rhythm = false ∧ b.line k = true ∧ b'.line k = false)) ∧
        b'.slotAt k = forceFinish (b.slotAt k)) ∨
      b'.slotAt k = b.slotAt k := by
  obtain ⟨b1, hreg, hstep⟩ := hf.slot k
  have hr : b1.rhythm = b'.rhythm := Block.rhythm_of_reg hreg
  have hl : b1.line k = b'.line k :=
    Block.line_congr (Block.regAt_congr hreg _) k (Block.key_of_reg hreg _)
  have hcauses := keyStep_causes Config.cfg b b1 k (b.slotAt k)
  rwa [← hstep, hr, hl, Block.role_congr hr] at hcauses

/-- KeyOff changes the mode of an active slot only, to Release (R114). -/
theorem keyOff_mode_cause {c : Cfg} {sl : SlotState} (h : (keyOff c sl).egMode ≠ sl.egMode) :
    (keyOff c sl).egMode = .release ∧
      (sl.egMode = .attack ∨ sl.egMode = .decay ∨ sl.egMode = .sustainHold ∨
        sl.egMode = .sustain) := by
  obtain ⟨phase, mode, egPhase, out0, out1, feedback⟩ := sl
  cases mode with
  | attack => exact ⟨rfl, .inl rfl⟩
  | decay => exact ⟨rfl, .inr (.inl rfl)⟩
  | sustainHold => exact ⟨rfl, .inr (.inr (.inl rfl))⟩
  | sustain => exact ⟨rfl, .inr (.inr (.inr rfl))⟩
  | _ => exact absurd rfl h

/-- What a CALC can do to a slot's mode, with the cause of each (R171, R173 to R178). -/
theorem envelope_mode_cause {b : Block} {c : Cfg} {k : SlotId}
    (hsettle : (b.slotAt k).egMode ≠ .settle)
    (h : (b.envelope c k).slot.egMode ≠ (b.slotAt k).egMode) :
    let old := (b.slotAt k).egMode
    let new := (b.envelope c k).slot.egMode
    let x := (b.slotAt k).egPhase
    let p := b.boundPatch k
    let rks := b.rateIndex c k
    (old = .attack ∧ new = .decay ∧
        (2 ^ c.egDpBits ≤ x + c.arRate p.ar rks ∨ c.attackInstant p.ar = true)) ∨
      (old = .decay ∧ (new = if p.eg then .sustainHold else .sustain) ∧
        c.slThresh p.sl ≤ x + c.drRate p.dr rks) ∨
      (old = .sustainHold ∧ new = .sustain ∧ p.eg = false) ∨
      ((old = .sustain ∨ old = .release) ∧ new = .finish ∧
        2 ^ c.egBits ≤ x / 2 ^ (c.egDpBits - c.egBits)) := by
  have fade (hm : (b.slotAt k).egMode = .sustain ∨ (b.slotAt k).egMode = .release) :
      (b.envelope c k).slot.egMode = .finish ∧
        2 ^ c.egBits ≤ (b.slotAt k).egPhase / 2 ^ (c.egDpBits - c.egBits) := by
    rw [envelope_fade hm, fadeStep_egMode] at h ⊢
    obtain ⟨hc, -⟩ := ite_ne_right_iff.mp h
    exact ⟨if_pos hc, hc⟩
  cases hm : (b.slotAt k).egMode with
  | settle => exact absurd hm hsettle
  | attack =>
    rw [envelope_attack hm, attackStep_egMode] at h ⊢
    obtain ⟨hc, -⟩ := ite_ne_right_iff.mp h
    exact .inl ⟨rfl, if_pos hc, hc⟩
  | decay =>
    rw [envelope_decay hm, decayStep_egMode] at h ⊢
    obtain ⟨hc, -⟩ := ite_ne_right_iff.mp h
    exact .inr (.inl ⟨rfl, if_pos hc, hc⟩)
  | sustainHold =>
    rw [envelope_sustainHold hm, sustainHoldStep_egMode] at h ⊢
    obtain ⟨hc, -⟩ := ite_ne_right_iff.mp h
    exact .inr (.inr (.inl ⟨rfl, if_pos hc, hc⟩))
  | sustain => exact .inr (.inr (.inr ⟨.inl rfl, fade (.inl hm)⟩))
  | release => exact .inr (.inr (.inr ⟨.inr rfl, fade (.inr hm)⟩))
  | finish => exact absurd (by rw [envelope_finish hm]) h

/-- Settles O37: a register write changes a mode by one of the causes of key processing, a CALC by
one of the envelope steps', RESET to Finish, and the other two effects change no slot. -/
theorem envelopeModeTransitions : Obligations.EnvelopeModeTransitions := by
  intro i s t k h old new x p rks hne
  rcases exec_cases h with
    ⟨a, d, -, hf⟩ | ⟨d, -, rfl⟩ | ⟨hi, hs, rfl⟩ | ⟨hi, rfl⟩ | ⟨m, -, rfl⟩
  · rcases hf.slot_causes k with ⟨h0, h1, hk⟩ | ⟨h0, h1, hrole, hk⟩ | ⟨h12, hcause, hk⟩ | hk
    · exact .inl ⟨congrArg SlotState.egMode hk, h0, h1⟩
    · have hmode : new = (keyOff Config.cfg (s.block.slotAt k)).egMode :=
        congrArg SlotState.egMode hk
      obtain ⟨hnew, hold⟩ := keyOff_mode_cause (hmode ▸ hne)
      exact .inr (.inl ⟨hmode.trans hnew, hold, h0, h1, hrole⟩)
    · exact .inr (.inr (.inr (.inl ⟨congrArg SlotState.egMode hk, h12, hcause⟩)))
    · exact absurd (congrArg SlotState.egMode hk) hne
  · exact absurd rfl hne
  · have hnew : new = (s.block.envelope Config.cfg k).slot.egMode := calc_egMode ..
    have hcause := envelope_mode_cause (hs k) (hnew ▸ hne)
    exact .inr (.inr (.inl ⟨hi, hnew ▸ hcause⟩))
  · exact .inr (.inr (.inr (.inr ⟨hi, congrArg SlotState.egMode (slotAt_resetBlock ..)⟩)))
  · exact absurd rfl hne

end Sys2Proof.Machine

/-! SUPPORT. Proof of the statement about a voice skipped in Finish (spec/43_operator_output.md R211,
spec/44_mixdown.md R234). -/

namespace Sys2Proof.Machine

/-- The mixdown leaves the slots of a voice skipped in Finish as the envelope stage left them
(R234). -/
theorem calc_slot_skipped {b : Block} {c : Cfg} {v : Voice} {k : SlotId} (hv : v ∈ voices b.rhythm)
    (hskip : b.endMode c v.skipSlot = .finish) (hk : v.owns k) :
    (b.calc c).slotAt k = (egStage c (calcPhases c b)).slotAt k :=
  (calc_slot_own c b hv hk).trans (if_pos hskip)

/-- Settles O50: the mixdown leaves a slot of the skipped voice alone, and the stages before it keep
every output history. -/
theorem finishSkipFreezesHistory : Obligations.FinishSkipFreezesHistory := by
  intro s v k hs hv hskip hk
  obtain ⟨t, ht, htb⟩ := exec_calcSample hs
  refine ⟨t, ht, ?_⟩
  rw [htb, calc_slot_skipped hv hskip hk]
  exact history_calcPhases ..

end Sys2Proof.Machine

/-! SUPPORT. Proofs of the statements about the mixdown (spec/44_mixdown.md): the sample as a sum
over the slots after the CALC, silence, the order of the voices, and what reads the mask. -/

namespace Sys2Proof.Machine

/-! ### The sample of a CALC (R233 to R239) -/

theorem filter_melodic_voices (r : Bool) :
    (voices r).filter (fun v => !v.percussive) = melodicVoices r := by
  cases r <;> rfl

theorem filter_percussive_voices (r : Bool) :
    (voices r).filter (fun v => v.percussive) = percussionVoices r := by
  cases r <;> rfl

theorem mem_voices_of_melodic {r : Bool} {v : Voice} (h : v ∈ melodicVoices r) : v ∈ voices r :=
  List.mem_of_mem_filter (filter_melodic_voices r ▸ h)

theorem mem_voices_of_percussion {r : Bool} {v : Voice} (h : v ∈ percussionVoices r) :
    v ∈ voices r :=
  List.mem_of_mem_filter (filter_percussive_voices r ▸ h)

/-- What a voice adds to the mix can be read off its skip-test slot after the CALC (R210, R233 to
R235). -/
theorem contribution_eq_voiceValue (c : Cfg) (b : Block) {v : Voice} (hv : v ∈ voices b.rhythm) :
    contribution c (egStage c (calcPhases c b)) (b.temps c) (egStage c (calcPhases c b)).slot v =
      (b.calc c).voiceValue v := by
  have hmode : (egStage c (calcPhases c b)).slot[v.skipSlot.val].egMode =
      ((b.calc c).slotAt v.skipSlot).egMode := (calc_sameControl c b v.skipSlot).2.1.symm
  have hmask : (egStage c (calcPhases c b)).mask = (b.calc c).mask := by simp
  rw [contribution, Block.voiceValue, hmode, hmask]
  split
  next => rfl
  next hsounds =>
    have hrun : b.endMode c v.skipSlot ≠ .finish := fun h =>
      hsounds (.inl ((calc_egMode c b v.skipSlot).trans h))
    rw [calc_slot_own c b hv v.owns_skipSlot, if_neg hrun, runVoice_value]
    exact average_eq ..

/-- The mix of a CALC, from the slots after it (R236 to R239). -/
theorem calcMix_sample (c : Cfg) (b : Block) :
    (calcMix c b).sample =
      clip16 (((melodicVoices b.rhythm).map (b.calc c).voiceValue).sum +
        2 * ((percussionVoices b.rhythm).map (b.calc c).voiceValue).sum) := by
  have hr : (egStage c (calcPhases c b)).rhythm = b.rhythm := (sameControl_mixdown c b).rhythm
  obtain ⟨hinst, hperc⟩ := foldl_sums (c := c) (b := egStage c (calcPhases c b)) (t := b.temps c)
    (voices_disjoint b.rhythm) { slots := (egStage c (calcPhases c b)).slot, inst := 0, perc := 0 }
  rw [filter_melodic_voices, zero_add,
    List.map_congr_left fun v hv =>
      contribution_eq_voiceValue c b (mem_voices_of_melodic hv)] at hinst
  rw [filter_percussive_voices, zero_add,
    List.map_congr_left fun v hv =>
      contribution_eq_voiceValue c b (mem_voices_of_percussion hv)] at hperc
  rw [Mix.sample, calcMix, mixdown, hr]
  exact congrArg clip16 (congrArg₂ (fun x y => x + 2 * y) hinst hperc)

/-- Settles O51: CALC returns the 16-bit word of the mix, which the clip has brought into its
range. -/
theorem sampleIsClippedSumOfVoices : Obligations.SampleIsClippedSumOfVoices := by
  intro s hs
  refine ⟨_, sampleOf (calcMix Config.cfg s.block).sample, execCalc_next hs, rfl, ?_⟩
  rw [calcMix_sample]
  exact sampleOf_toInt (clip16_bounds _)

/-! ### Silence (R234, R242, R243) -/

/-- A CALC whose voices all read 0 after it returns 0. -/
theorem exec_calcSample_silent {s : State} (hs : s.block.NoSettle)
    (hv : ∀ v : Voice, (s.block.calc Config.cfg).voiceValue v = 0) :
    ∃ t : State, exec .calcSample s = .next t ∧ t.samples = 0#16 :: s.samples ∧
      t.block = s.block.calc Config.cfg := by
  refine ⟨_, execCalc_next hs, ?_, rfl⟩
  have hsample : (calcMix Config.cfg s.block).sample = 0 := by
    simp [calcMix_sample, funext hv, clip16]
  rw [hsample]
  rfl

theorem voiceValue_of_masked {b : Block} {v : Voice} (h : b.mask.getLsbD v.maskBit = true) :
    b.voiceValue v = 0 := if_pos (.inr h)

theorem voiceValue_of_finish {b : Block} {v : Voice} (h : (b.slotAt v.skipSlot).egMode = .finish) :
    b.voiceValue v = 0 := if_pos (.inl h)

/-- Every voice's mask bit is one of the 14 (R233). -/
theorem Voice.maskBit_lt (v : Voice) : v.maskBit < 14 := by
  cases v with
  | channel ch => exact ch.isLt.trans (by decide)
  | bd => decide
  | perc p => cases p <;> decide

theorem getLsbD_fullMask {i : Nat} (h : i < 14) : (0x3FFF#14).getLsbD i = true := by
  have hall : (0x3FFF#14) = BitVec.allOnes 14 := rfl
  rw [hall, BitVec.getLsbD_allOnes, decide_eq_true h]

/-- Settles O53: CALC keeps the mask, and under the full one no voice adds to the sum. -/
theorem fullMuteReturnsZero : Obligations.FullMuteReturnsZero := by
  intro s hs hmask
  have hsilent : ∀ v : Voice, (s.block.calc Config.cfg).voiceValue v = 0 := fun v =>
    voiceValue_of_masked (by rw [Block.calc_mask, hmask, getLsbD_fullMask v.maskBit_lt])
  obtain ⟨t, ht, hsample, -⟩ := exec_calcSample_silent hs hsilent
  exact ⟨t, ht, hsample⟩

/-- A slot in Finish stays there through a CALC (R178). -/
theorem calc_finish (c : Cfg) {b : Block} {k : SlotId} (h : (b.slotAt k).egMode = .finish) :
    ((b.calc c).slotAt k).egMode = .finish := by
  rw [calc_egMode, envelope_finish h, h]

/-- Settles O55: every slot is still in Finish after the CALC, so it skips every voice. -/
theorem allFinishReturnsZero : Obligations.AllFinishReturnsZero := by
  intro s h
  have hs : s.block.NoSettle := fun k => by simp [h k]
  have hfinish := fun k => calc_finish Config.cfg (h k)
  obtain ⟨t, ht, hsample, htb⟩ :=
    exec_calcSample_silent hs fun v => voiceValue_of_finish (hfinish v.skipSlot)
  exact ⟨t, ht, hsample, fun k => htb ▸ hfinish k⟩

/-- Settles O60: RESET leaves every slot in Finish, and the CALC after it is the one of O55. -/
theorem resetThenCalcIsSilent : Obligations.ResetThenCalcIsSilent := by
  intro s
  have hfinish : ∀ k : SlotId, ((s.block.resetBlock Config.cfg).slotAt k).egMode = .finish :=
    fun k => congrArg SlotState.egMode (slotAt_resetBlock ..)
  obtain ⟨u, hu, hsample, -⟩ :=
    allFinishReturnsZero { s with block := s.block.resetBlock Config.cfg } hfinish
  exact ⟨_, u, rfl, hu, hsample⟩

/-! ### The order of the voices (R232) -/

theorem Voice.Disjoint.symm {v w : Voice} (h : v.Disjoint w) : w.Disjoint v :=
  fun s hs => h s hs.symm

theorem Mix.ext_fields {m m' : Mix} (hslots : m.slots = m'.slots) (hinst : m.inst = m'.inst)
    (hperc : m.perc = m'.perc) : m = m' := by
  cases m
  cases m'
  simp only [Mix.mk.injEq]
  exact ⟨hslots, hinst, hperc⟩

/-- The mixdown over voices with disjoint slots does not depend on their order: a slot is moved by
the one voice that owns it, and each sum is one of contributions to the slots as they stood before
it. -/
theorem foldl_mixVoice_perm {c : Cfg} {b : Block} {t : Temps} {l l' : List Voice}
    (hp : l.Perm l') (hd' : l'.Pairwise Voice.Disjoint) (m : Mix) :
    l.foldl (mixVoice c b t) m = l'.foldl (mixVoice c b t) m := by
  have hd : l.Pairwise Voice.Disjoint := hd'.perm hp.symm Voice.Disjoint.symm
  have hslots : (l.foldl (mixVoice c b t) m).slots = (l'.foldl (mixVoice c b t) m).slots := by
    refine Block.slot_ext fun s => ?_
    by_cases hs : ∃ v ∈ l, v.owns s
    · obtain ⟨v, hv, hown⟩ := hs
      rw [foldl_own hd hv hown, foldl_own hd' (hp.mem_iff.mp hv) hown]
    · push Not at hs
      rw [foldl_other hs, foldl_other fun v hv => hs v (hp.mem_iff.mpr hv)]
  obtain ⟨hinst, hperc⟩ := foldl_sums (c := c) (b := b) (t := t) hd m
  obtain ⟨hinst', hperc'⟩ := foldl_sums (c := c) (b := b) (t := t) hd' m
  rw [((hp.filter _).map _).sum_eq, ← hinst'] at hinst
  rw [((hp.filter _).map _).sum_eq, ← hperc'] at hperc
  exact Mix.ext_fields hslots hinst hperc

/-- Settles O52: the voices of a CALC own disjoint slots. -/
theorem voiceOrderDoesNotMatter : Obligations.VoiceOrderDoesNotMatter :=
  fun _ b _ m _ hp => foldl_mixVoice_perm hp (voices_disjoint b.rhythm) m

/-! ### The mask and every command (R235, R241) -/

theorem Block.SameButMask.eq_withMask {a b : Block} (h : a.SameButMask b) :
    b = a.withMask b.mask := h.symm

/-- A block function that neither reads nor writes the mask does not tell blocks apart that differ
in it alone. -/
theorem Block.SameButMask.map {f : Block → Block} (hf : ∀ b m, f (b.withMask m) = (f b).withMask m)
    {a b : Block} (h : a.SameButMask b) : (f a).SameButMask (f b) := by
  rw [h.eq_withMask, hf]
  rfl

theorem instVolStep_withMask (ch : Channel) (d : Byte) (b : Block) (m : BitVec 14) :
    instVolStep ch d (b.withMask m) = (instVolStep ch d b).withMask m := by
  rw [instVolStep_eq, instVolStep_eq]
  rfl

/-- A register write keeps two blocks equal but for the mask if its class step neither reads nor
writes the mask. -/
theorem Block.SameButMask.writeWith {c : Cfg} {ad : RegAddr} {d : Byte} {f : Block → Block}
    (hf : ∀ b m, f (b.withMask m) = (f b).withMask m) {a b : Block} (h : a.SameButMask b) :
    (a.writeWith c ad d f).SameButMask (b.writeWith c ad d f) :=
  h.map (f := fun b => b.writeWith c ad d f) fun b m =>
    writeWith_withMask (hf (b.setReg ad d) m)

/-- Every command but CALC completes by one function of the block, which keeps two blocks equal but
for the mask. -/
theorem exec_eq_onBlock {i : Instr} (hi : i ≠ .calcSample) :
    ∃ f : Block → Block, (∀ s, exec i s = .next (s.onBlock f)) ∧
      ∀ a b : Block, a.SameButMask b → (f a).SameButMask (f b) := by
  cases i with
  | calcSample => exact absurd rfl hi
  | wrInstVol ch d => exact ⟨_, fun _ => rfl, fun _ _ h => h.writeWith (instVolStep_withMask ch d)⟩
  | ioData d =>
    exact ⟨_, fun _ => rfl, fun _ _ h =>
      h.map (f := fun b => b.writeReg Config.cfg b.ioAddr d) fun b m =>
        writeWith_withMask
          (classStep_withMask (effAddr b.ioAddr) d (b.setReg (effAddr b.ioAddr) d) m)⟩
  | ioAddr d =>
    exact ⟨_, fun _ => rfl, fun _ _ h =>
      h.map (f := fun b => { b with ioAddr := d }) fun _ _ => rfl⟩
  | reset =>
    exact ⟨_, fun _ => rfl, fun _ _ h =>
      h.map (f := fun b => b.resetBlock Config.cfg) fun _ _ => rfl⟩
  | setMask m =>
    refine ⟨_, fun _ => rfl, fun a b h => ?_⟩
    rw [h.eq_withMask]
    rfl
  | _ => exact ⟨_, fun _ => rfl, fun _ _ h => h.writeWith fun _ _ => rfl⟩

/-- The Settle search does not see the mask. -/
theorem Block.SameButMask.firstSettle {a b : Block} (h : a.SameButMask b) :
    a.firstSettle = b.firstSettle := by
  rw [h.eq_withMask]
  rfl

/-- CALC completes on both of two blocks that differ at most in the mask, or faults on both with the
same slot. -/
theorem execCalc_sameButMask {s1 s2 : State} (h : s1.block.SameButMask s2.block) :
    (∃ t1 t2 : State, exec .calcSample s1 = .next t1 ∧ exec .calcSample s2 = .next t2 ∧
        t1.block.SameButMask t2.block) ∨
      ∃ k : SlotId, exec .calcSample s1 = .fault (.settleUnmodelled k) ∧
        exec .calcSample s2 = .fault (.settleUnmodelled k) := by
  cases hk : s2.block.firstSettle with
  | none =>
    obtain ⟨t1, h1, hb1⟩ := exec_calcSample (Block.firstSettle_none.mp (h.firstSettle.trans hk))
    obtain ⟨t2, h2, hb2⟩ := exec_calcSample (Block.firstSettle_none.mp hk)
    refine .inl ⟨t1, t2, h1, h2, ?_⟩
    rw [hb1, hb2]
    exact h.map (f := fun b => b.calc Config.cfg) (calc_withMask Config.cfg)
  | some k => exact .inr ⟨k, execCalc_fault (h.firstSettle.trans hk), execCalc_fault hk⟩

/-- Settles O54: CALC meets the same slots whatever the mask is, and every other command is one
function of the block that leaves the mask out of account. -/
theorem maskDoesNotReachState : Obligations.MaskDoesNotReachState := by
  intro i s1 s2 h
  by_cases hi : i = .calcSample
  · subst hi
    rcases execCalc_sameButMask h with ⟨t1, t2, h1, h2, ht⟩ | ⟨k, h1, h2⟩
    · rw [h1, h2]
      exact ht
    · rw [h1, h2]
  · obtain ⟨f, hexec, hf⟩ := exec_eq_onBlock hi
    rw [hexec, hexec]
    exact hf _ _ h

/-- Settles O56: the low 14 bits of M are M mod 2^14. -/
theorem setMaskWritesMask : Obligations.SetMaskWritesMask := by
  intro m s
  have hlow : m.extractLsb' 0 14 = BitVec.ofNat 14 (m.toNat % 2 ^ 14) := by
    apply BitVec.eq_of_toNat_eq
    simp
  rw [← hlow]
  rfl

end Sys2Proof.Machine

/-! SUPPORT. Proofs of the statements about refusals and faults (spec/60_exceptions.md): the mark
stays, each way a step stops sets it, and which commands complete. -/

namespace Sys2Proof.Machine

/-! ### The sticky mark (R262, R263, R267) -/

theorem Marked.advance_of_mark {m : Marked} {k : Mark} (h : m.mark = some k) : m.advance = m := by
  simp only [Marked.advance, h]

/-- A marked model keeps its state and its mark for the rest of the run. -/
theorem Marked.run_of_mark {m : Marked} {k : Mark} (h : m.mark = some k) (n : Nat) :
    Marked.run n m = m := by
  induction n with
  | zero => rfl
  | succ n ih => rw [Marked.run, Marked.advance_of_mark h, ih]

/-- Once a step of the unmarked model sets a mark, every longer run ends there. -/
theorem Marked.run_succ_of_advance {m m' : Marked} {k : Mark} (h : m.advance = m')
    (hk : m'.mark = some k) (n : Nat) : Marked.run (n + 1) m = m' := by
  rw [Marked.run, h, Marked.run_of_mark hk]

theorem Marked.run_of_refused {s : State} {r : Refusal} (h : step s = .refused r) (n : Nat) :
    Marked.run (n + 1) { state := s, mark := none } = { state := s, mark := some (.refused r) } :=
  Marked.run_succ_of_advance (by simp only [Marked.advance, h]) rfl n

theorem Marked.run_of_fault {s : State} {f : Fault} (h : step s = .fault f) (n : Nat) :
    Marked.run (n + 1) { state := s, mark := none } = { state := s, mark := some (.faulted f) } :=
  Marked.run_succ_of_advance (by simp only [Marked.advance, h]) rfl n

theorem Marked.not_final_of_mark {m : Marked} {k : Mark} (h : m.mark = some k) : ¬ m.Final := by
  rintro ⟨hnone, -⟩
  rw [h] at hnone
  cases hnone

/-- Settles O9: the step refuses the word, and the mark it sets stays. -/
theorem refusalMarkIsSticky : Obligations.RefusalMarkIsSticky := fun _ _ _ n hp hd =>
  Marked.run_of_refused (step_undefined hp hd) n

/-! ### The fault of a CALC (R179, R263) -/

theorem decode_calcWord : decode 0x20000000#32 = .ok .calcSample := by decide

/-- A step that applies a CALC faults with the slot that the search finds. -/
theorem step_calc_fault {s : State} {rest : List Word} {k : SlotId}
    (hp : s.pending = 0x20000000#32 :: rest) (hk : s.block.firstSettle = some k) :
    step s = .fault (.settleUnmodelled k) := by
  have hexec : exec .calcSample s = .fault (.settleUnmodelled k) := execCalc_fault hk
  rw [stepRunsIssuedCommand s _ rest _ hp decode_calcWord, hexec]

/-- Settles O10: the search finds the lowest slot in Settle, the step faults with it, and the mark it
sets stays. -/
theorem faultMarkIsSticky : Obligations.FaultMarkIsSticky := by
  intro s rest n k hp hk hlow
  have hstep := step_calc_fault hp (Block.firstSettle_eq_some hk hlow)
  have hrun := Marked.run_of_fault hstep n
  exact ⟨hrun, Marked.not_final_of_mark (congrArg Marked.mark hrun)⟩

/-! ### Which commands complete (R261) -/

/-- Settles O35: CALC completes when no slot holds Settle, and every other command is one function of
the block. -/
theorem everyCommandCompletes : Obligations.EveryCommandCompletes := by
  intro i s hcalc
  by_cases hi : i = .calcSample
  · subst hi
    obtain ⟨t, ht, -⟩ := exec_calcSample (hcalc rfl)
    exact ⟨t, ht⟩
  · obtain ⟨f, hexec, -⟩ := exec_eq_onBlock hi
    exact ⟨s.onBlock f, hexec s⟩

end Sys2Proof.Machine

/-! SUPPORT. Proofs of the statements about RESET, construction and the order of writes
(spec/70_reset_and_hazards.md): RESET's block is the constructed one but for the mask, and a write
that moves no key line commutes with key processing. -/

namespace Sys2Proof.Machine

/-! ### RESET and construction (R291, R292, R293) -/

/-- RESET gives the constructed block with the mask of the block before it (R292, R293). -/
theorem resetBlock_eq_construct (b : Block) (c : Cfg) :
    b.resetBlock c = { Block.construct c with mask := b.mask } := by
  have hslot : (b.resetBlock c).slot = (Block.construct c).slot :=
    Block.slot_ext fun k => (slotAt_resetBlock b c k).trans
      ((resetSlot_eq_initial c _).trans (slotAt_construct c k).symm)
  have hreg : (b.resetBlock c).reg = (Block.construct c).reg := by
    ext i hi
    simp
  exact Block.ext_fields hreg rfl hslot rfl rfl rfl rfl rfl rfl rfl rfl rfl

/-- The state that RESET answers. -/
theorem exec_reset (s : State) :
    exec .reset s =
      .next { s with block := { Block.construct Config.cfg with mask := s.block.mask } } := by
  rw [← resetBlock_eq_construct]
  rfl

theorem regAt_construct (c : Cfg) (a : RegAddr) : (Block.construct c).regAt a = 0x00#8 := by
  simp [Block.regAt]

theorem patchAt_construct (c : Cfg) (p : PatchId) :
    (Block.construct c).patchAt p = c.factory p := by
  simp [Block.patchAt]

/-- Settles O57: each field is read off the constructed block; the mask and the host's bookkeeping
are the state's. -/
theorem resetWritesEveryField : Obligations.ResetWritesEveryField := fun s =>
  ⟨_, exec_reset s, regAt_construct Config.cfg, patchAt_construct Config.cfg,
    slotAt_construct Config.cfg, rfl, rfl, rfl, rfl, rfl, rfl, rfl, rfl, rfl, rfl, rfl, rfl⟩

/-- Settles O58: RESET answers the constructed block with the mask of the state. -/
theorem constructionIsResetWithMaskZero : Obligations.ConstructionIsResetWithMaskZero :=
  ⟨rfl, rfl, fun s => ⟨_, exec_reset s, rfl⟩⟩

/-! ### The order of two writes (R299) -/

/-- Writes of two registers commute on the shadow. -/
theorem Block.setReg_comm {b : Block} {a a' : RegAddr} {d e : Byte} (h : a ≠ a') :
    (b.setReg a d).setReg a' e = (b.setReg a' e).setReg a d := by
  have hne : a.toNat ≠ a'.toNat := fun hn => h (BitVec.eq_of_toNat_eq hn)
  simp only [Block.setReg, Vector.set_comm _ _ hne]

section quiet
variable {a : RegAddr} {d : Byte} (ha : quietAddr a)
include ha

/-- A quiet address is not read by rhythm mode (R40). -/
theorem rhythm_setReg_quiet (b : Block) : (b.setReg a d).rhythm = b.rhythm :=
  Block.rhythm_congr (Block.regAt_setReg_ne _ _ ha.1)

/-- A quiet address is not read by a key line (R48). -/
theorem line_setReg_quiet (b : Block) (k : SlotId) : (b.setReg a d).line k = b.line k :=
  Block.line_congr (Block.regAt_setReg_ne _ _ ha.1) k
    (Block.key_congr (chanReg_setReg_other (ha.2 _)))

/-- A quiet register, changed both before and after a write, changes no key step of that write. -/
theorem keyStep_setReg_quiet (c : Cfg) (b0 b1 : Block) (k : SlotId) (sl : SlotState) :
    keyStep c (b0.setReg a d) (b1.setReg a d) k sl = keyStep c b0 b1 k sl := by
  simp only [keyStep, rhythm_setReg_quiet ha, line_setReg_quiet ha,
    Block.role_congr (rhythm_setReg_quiet ha b1)]

/-- Key processing commutes with a write of a quiet register. -/
theorem keyProcess_setReg_quiet (c : Cfg) (b0 b1 : Block) :
    keyProcess c (b0.setReg a d) (b1.setReg a d) = (keyProcess c b0 b1).setReg a d := by
  simp only [keyProcess, keyStep_setReg_quiet ha]
  rfl

/-- A shadow write with key processing at another address commutes with a write of a quiet
register. -/
theorem writeWith_setReg_quiet {a' : RegAddr} (hne : a ≠ a') (c : Cfg) (b : Block) (e : Byte) :
    (b.setReg a d).writeWith c a' e id = (b.writeWith c a' e id).setReg a d := by
  simp only [Block.writeWith, id_eq]
  rw [Block.setReg_comm hne, keyProcess_setReg_quiet ha]

end quiet

/-- WR_FNUM_LO is its shadow write. -/
theorem exec_wrFnumLo (c : Channel) (d : Byte) (s : State) :
    exec (.wrFnumLo c d) s =
      .next { s with block := s.block.setReg (channelAddr 0x10#6 c) d } :=
  State.write_quiet (quietAddr_fnumLo c) patchStep_id s d

/-- Settles O32: WR_FNUM_LO is the shadow write of a quiet register, which commutes with the shadow
write and the key processing of WR_BLK_KEY. -/
theorem pitchAndKeyWritesCommute : Obligations.PitchAndKeyWritesCommute := by
  intro c d e s
  have hblock := writeWith_setReg_quiet (d := d) (quietAddr_fnumLo c)
    (channelAddr_group_ne (c' := c)).1 Config.cfg s.block e
  refine ⟨_, _, _, exec_wrFnumLo c d s, rfl, rfl, (exec_wrFnumLo c d _).trans ?_⟩
  exact congrArg (fun b => Host.Outcome.next { s with block := b }) hblock.symm

end Sys2Proof.Machine

/-! SUPPORT. Proofs of the statements about the spec's listed words (spec/95_test_vectors.md V1 to V18)
and about a step with no command issued (spec/60_exceptions.md R274). -/

namespace Sys2Proof.Machine

/-- Settles O6: each listed word has zero bits 27:16, and the decoder's rule for its kind computes the
command. -/
theorem listedWordsDecode : Obligations.ListedWordsDecode :=
  ⟨decode_kind0 rfl rfl, decode_kind0 rfl rfl, decode_kind0 rfl rfl, decode_kind0 rfl rfl,
    decode_kind0 rfl rfl, decode_kind0 rfl rfl, decode_kind1 rfl rfl, decode_kind1 rfl rfl,
    decode_kind2 rfl rfl, decode_kind3 rfl rfl, decode_kind4 rfl rfl⟩

/-- Settles O8: an empty queue gives `fetch` no word, and a step without a word keeps the state. -/
theorem noCommandHoldsState : Obligations.NoCommandHoldsState := by
  intro s hp
  have hidle : fetch s = none := by simp [fetch, hp]
  simp only [step, hidle]

end Sys2Proof.Machine
